-- ==== Sys2Proof/Word.lean ====
section
/-! DEFINITION. The element types of the block: its registers are 32 bits wide (spec/10_state.md R23), its memories hold
elements of 8, 16 and 32 bits (spec/20_memory.md R60), and the bit cursor is 64 bits wide (spec/10_state.md R41). -/

namespace Sys2Proof

/-- An element of `IN`, `HTS` and `XTC`, and a Huffman symbol (R60, R63). -/
abbrev Byte := BitVec 8

/-- A sample: an element of `MOS`, `RGB`, `CURVE` and `GLUT` (R60). -/
abbrev Sample := BitVec 16

/-- A register, a command word, an element of `XTR` (R23, R60, R91). -/
abbrev Word := BitVec 32

/-- The bit cursor `br.pos` (R41). -/
abbrev Position := BitVec 64

end Sys2Proof
end

