-- ==== Sys2Proof/Config.lean ====
section
/-! DEFINITION. What an implementation fixes (spec/00_scope.md R7, R8; spec/10_state.md R46) and the free values: constants
with no body, so that nothing can evaluate them or prove a value of them (spec/10_state.md R48). -/

namespace Sys2Proof.Config

/-- Huffman table slots (R8, R150). -/
abbrev nSlot : Nat := 4
/-- Elements of `HTS` one slot occupies (R63). -/
abbrev htsStride : Nat := 528
/-- Elements of `HTS` (R60). -/
abbrev htsSize : Nat := 2112
/-- Entries of `CURVE` (R8, R60). -/
abbrev curveSize : Nat := 65536
/-- Entries of `GLUT` (R7, R60). -/
abbrev glutSize : Nat := 65536
/-- Words of `XTR` (R8, R60). -/
abbrev xtrSize : Nat := 2592
/-- Entries of `XTC` (R8, R60). -/
abbrev xtcSize : Nat := 72
/-- Registers numbers of space `REG` (R60). -/
abbrev regSize : Nat := 256
/-- `BIT_SHIFT` of the colour matrix (R7). -/
abbrev bitShift : Nat := 13

/-- `NIKON_DITHER` (R8, R205), an OPEN parameter: the default, which dithers nothing, or one of a family of functions of
which nothing is known. Plain data, so that State can carry it. -/
inductive Dither where
  /-- `seed = 0`, `step(curve, len, p, rng) = (curve[p], rng)`: the spec's default. -/
  | off
  /-- Some other dithering function, uninterpreted. -/
  | other (which : Nat)
deriving DecidableEq, Repr

/-- The model arguments of R8. No command and no host access reads or writes them as such (R46). -/
structure Params where
  /-- `IN_SIZE`: bytes in `IN`. -/
  inSize : Nat
  /-- `MAX_PIXELS`: samples in `MOS`; `RGB` holds three times as many. -/
  maxPixels : Nat
  /-- `NIKON_DITHER`. -/
  dither : Dither
deriving DecidableEq, Repr

/-- The constraints of spec/92_eei_decisions.md's table of open parameters. -/
def Params.wf (p : Params) : Bool :=
  decide (1 ≤ p.inSize ∧ p.inSize ≤ 2 ^ 32 ∧ 4 ≤ p.maxPixels ∧ p.maxPixels ≤ 2 ^ 32)

/-- The spec's defaults (R8); no rule depends on them. -/
def Params.default : Params := { inSize := 2 ^ 26, maxPixels := 2 ^ 25, dither := .off }

/-- FREE VALUE (log 2, log 4): element `index` of what draw number `draw` drew, `w` bits wide. -/
opaque unspecified : (w : Nat) → (draw index : Nat) → BitVec w

/-- FREE VALUE (log 5): the `maxlen` a slot holds after a reset. -/
opaque unspecifiedMaxlen : (draw slot : Nat) → Nat

/-- FREE VALUE (log 5): the codes of the `lut` a slot holds after a reset, as (code, length, symbol). -/
opaque unspecifiedLut : (draw slot : Nat) → List (Nat × Nat × Byte)

/-- FREE VALUE (log 8): the `seed` of dithering function `which`. -/
opaque ditherSeed : (which : Nat) → Word

/-- FREE VALUE (log 8): the `step` of dithering function `which`, a function of the entries `CURVE[0 .. len)`, the
length, the index and the dither state, and of nothing else (R205). -/
opaque ditherStep : (which : Nat) → (curve : List Sample) → (len p : Nat) → (rng : Word) → Sample × Word

end Sys2Proof.Config
end

