-- ==== Sys2Proof/Syntax.lean ====
section
/-! DEFINITION. The fourteen commands of QRB-1 (spec/30_encoding.md R92), one constructor per row of
spec/opcode_table.json, with their operand fields (R93). -/

namespace Sys2Proof

/-- The bit-reader variants, field `mode` (R93); value 3 has no name because it is illegal. -/
inductive ReaderMode where
  | msb
  | lsb
  | jpeg
deriving DecidableEq, Repr

/-- How `PP.NORM` applies `SCALE`, field `mul` (R93). -/
inductive NormMode where
  | shift
  | multiply
deriving DecidableEq, Repr

/-- The demosaic quality modes, field `dmode` (R93). -/
inductive DemosaicMode where
  | none
  | superPixel
  | linear
  | enhancedLinear
deriving DecidableEq, Repr

/-- A Huffman slot number, field `slot` (R93). -/
abbrev Slot := Fin Config.nSlot

/-- The commands. A bit count is a Nat; `Instr.wf` says which counts are legal. -/
inductive Instr where
  /-- `SYS.RESET` (R320). -/
  | sysReset
  /-- `BR.INIT mode` (R125). -/
  | brInit (mode : ReaderMode)
  /-- `BR.READ n` (R126). -/
  | brRead (n : Nat)
  /-- `BR.PEEK n` (R127); `BR.CHECK n` is the same word (R95). -/
  | brPeek (n : Nat)
  /-- `BR.SKIP n` (R128). -/
  | brSkip (n : Nat)
  /-- `HU.BUILD slot` (R155). -/
  | huBuild (slot : Slot)
  /-- `HU.SYM slot` (R156). -/
  | huSym (slot : Slot)
  /-- `HU.DEC slot` (R157). -/
  | huDec (slot : Slot)
  /-- `DC.RUN` (R180). -/
  | dcRun
  /-- `PP.NORM mul` (R230). -/
  | ppNorm (mul : NormMode)
  /-- `DM.RUN dmode` (R240). -/
  | dmRun (dmode : DemosaicMode)
  /-- `CP.WB` (R290). -/
  | cpWb
  /-- `CP.CC` (R293). -/
  | cpCc
  /-- `CP.GAMMA` (R296). -/
  | cpGamma
deriving DecidableEq, Repr

end Sys2Proof
end

