-- ==== Sys2Proof/WellFormed.lean ====
section
/-! DEFINITION. Which terms of `Instr` are commands: the operand constraints of spec/30_encoding.md R93 that the types do
not already carry. -/

namespace Sys2Proof

/-- A legal bit count: "1 to 32" (R93). -/
def legalCount (n : Nat) : Bool := decide (1 ≤ n ∧ n ≤ 32)

/-- The operand check of R93. Modes, slots and flags are legal by their types. -/
def Instr.wf : Instr → Bool
  | .sysReset => true
  | .brInit _ => true
  | .brRead n => legalCount n
  | .brPeek n => legalCount n
  | .brSkip n => legalCount n
  | .huBuild _ => true
  | .huSym _ => true
  | .huDec _ => true
  | .dcRun => true
  | .ppNorm _ => true
  | .dmRun _ => true
  | .cpWb => true
  | .cpCc => true
  | .cpGamma => true

end Sys2Proof
end

