-- ==== Sys2Proof/Decode.lean ====
section
/-! DEFINITION. The command decoder and encoder, from the command table of spec/30_encoding.md R92 and the field table of
R93. The decoder is total: a word selects one command or is rejected by name (R90, R94). -/

namespace Sys2Proof

/-- The rows of the command table (R92), in its order. -/
inductive Row where
  | sysReset | brInit | brRead | brPeek | brSkip | huBuild | huSym | huDec | dcRun | ppNorm | dmRun | cpWb | cpCc | cpGamma
deriving DecidableEq, Repr

/-- Every row of R92. -/
def Row.all : List Row :=
  [.sysReset, .brInit, .brRead, .brPeek, .brSkip, .huBuild, .huSym, .huDec, .dcRun, .ppNorm, .dmRun, .cpWb, .cpCc, .cpGamma]

/-- Column "match" of R92. -/
def Row.value : Row → Word
  | .sysReset => 0x00000001#32
  | .brInit => 0x00000010#32
  | .brRead => 0x00000011#32
  | .brPeek => 0x00000012#32
  | .brSkip => 0x00000013#32
  | .huBuild => 0x00000020#32
  | .huSym => 0x00000021#32
  | .huDec => 0x00000022#32
  | .dcRun => 0x00000030#32
  | .ppNorm => 0x00000038#32
  | .dmRun => 0x00000040#32
  | .cpWb => 0x00000050#32
  | .cpCc => 0x00000051#32
  | .cpGamma => 0x00000052#32

/-- Column "mask" of R92. -/
def Row.mask : Row → Word
  | .sysReset => 0xFFFFFFFF#32
  | .brInit => 0xFFFFFCFF#32
  | .brRead => 0xFFFFC0FF#32
  | .brPeek => 0xFFFFC0FF#32
  | .brSkip => 0xFFFFC0FF#32
  | .huBuild => 0xFFFFFCFF#32
  | .huSym => 0xFFFFFCFF#32
  | .huDec => 0xFFFFFCFF#32
  | .dcRun => 0xFFFFFFFF#32
  | .ppNorm => 0xFFFFFEFF#32
  | .dmRun => 0xFFFFFCFF#32
  | .cpWb => 0xFFFFFFFF#32
  | .cpCc => 0xFFFFFFFF#32
  | .cpGamma => 0xFFFFFFFF#32

/-- `(c & mask) = match` (R90). -/
def Row.selects (r : Row) (c : Word) : Bool := c &&& r.mask == r.value

/-- Why a word is no command (R94). -/
inductive DecodeError where
  /-- No row of R92 matches: an unknown `OP`, or a set bit where the row's mask wants zero. -/
  | noSuchCommand
  /-- `mode = 3`. -/
  | illegalReaderMode
  /-- `n = 0` or `n > 32`. -/
  | illegalBitCount
deriving DecidableEq, Repr

/-- `c[hi:lo]`, the unsigned value of bits `hi` down to `lo` (spec/00_scope.md R10). -/
def wordField (c : Word) (hi lo : Nat) : Nat := c.toNat / 2 ^ lo % 2 ^ (hi + 1 - lo)

/-- Field `mode`, bits 9:8 (R93). -/
def decodeReaderMode (c : Word) : Except DecodeError ReaderMode :=
  match wordField c 9 8 with
  | 0 => .ok .msb
  | 1 => .ok .lsb
  | 2 => .ok .jpeg
  | _ => .error .illegalReaderMode

/-- Field `n`, bits 13:8 (R93). -/
def decodeCount (c : Word) : Except DecodeError Nat :=
  if legalCount (wordField c 13 8) then .ok (wordField c 13 8) else .error .illegalBitCount

/-- Field `slot`, bits 9:8 (R93). -/
def decodeSlot (c : Word) : Slot := Fin.ofNat Config.nSlot (wordField c 9 8)

/-- Field `mul`, bit 8 (R93). -/
def decodeNormMode (c : Word) : NormMode := if wordField c 8 8 = 0 then .shift else .multiply

/-- Field `dmode`, bits 9:8 (R93). -/
def decodeDemosaicMode (c : Word) : DemosaicMode :=
  match wordField c 9 8 with
  | 0 => .none
  | 1 => .superPixel
  | 2 => .linear
  | _ => .enhancedLinear

/-- The operand fields of a row and their constraints: step (3) of R90. -/
def decodeOperands (r : Row) (c : Word) : Except DecodeError Instr :=
  match r with
  | .sysReset => .ok .sysReset
  | .brInit => (decodeReaderMode c).map .brInit
  | .brRead => (decodeCount c).map .brRead
  | .brPeek => (decodeCount c).map .brPeek
  | .brSkip => (decodeCount c).map .brSkip
  | .huBuild => .ok (.huBuild (decodeSlot c))
  | .huSym => .ok (.huSym (decodeSlot c))
  | .huDec => .ok (.huDec (decodeSlot c))
  | .dcRun => .ok .dcRun
  | .ppNorm => .ok (.ppNorm (decodeNormMode c))
  | .dmRun => .ok (.dmRun (decodeDemosaicMode c))
  | .cpWb => .ok .cpWb
  | .cpCc => .ok .cpCc
  | .cpGamma => .ok .cpGamma

/-- Steps (2) and (3) of R90: find the row the word matches, then test the row's field constraints. -/
def decode (c : Word) : Except DecodeError Instr :=
  match Row.all.find? (·.selects c) with
  | some r => decodeOperands r c
  | none => .error .noSuchCommand

/-- The decoder on a word given as opcode_table.json numbers its bits: a command is one 32-bit word, bit 0 its least
significant bit (R10, R91); bits from `nbits` up are zero. -/
def decodeTableWord (nbits w : Nat) : Option Instr :=
  if w % 2 ^ nbits < 2 ^ 32 then (decode (BitVec.ofNat 32 (w % 2 ^ nbits))).toOption else none

/-- The row of a command. -/
def Instr.row : Instr → Row
  | .sysReset => .sysReset
  | .brInit _ => .brInit
  | .brRead _ => .brRead
  | .brPeek _ => .brPeek
  | .brSkip _ => .brSkip
  | .huBuild _ => .huBuild
  | .huSym _ => .huSym
  | .huDec _ => .huDec
  | .dcRun => .dcRun
  | .ppNorm _ => .ppNorm
  | .dmRun _ => .dmRun
  | .cpWb => .cpWb
  | .cpCc => .cpCc
  | .cpGamma => .cpGamma

/-- The legal values of field `mode` (R93). -/
def encodeReaderMode : ReaderMode → Nat
  | .msb => 0
  | .lsb => 1
  | .jpeg => 2

/-- The legal values of field `mul` (R93). -/
def encodeNormMode : NormMode → Nat
  | .shift => 0
  | .multiply => 1

/-- The legal values of field `dmode` (R93). -/
def encodeDemosaicMode : DemosaicMode → Nat
  | .none => 0
  | .superPixel => 1
  | .linear => 2
  | .enhancedLinear => 3

/-- The value of a command's operand field, which starts at bit 8 in every row that has one (R92); 0 where it has none. -/
def Instr.operandField : Instr → Nat
  | .sysReset => 0
  | .brInit m => encodeReaderMode m
  | .brRead n => n
  | .brPeek n => n
  | .brSkip n => n
  | .huBuild s => s.val
  | .huSym s => s.val
  | .huDec s => s.val
  | .dcRun => 0
  | .ppNorm m => encodeNormMode m
  | .dmRun d => encodeDemosaicMode d
  | .cpWb => 0
  | .cpCc => 0
  | .cpGamma => 0

/-- The command word of a well-formed command: its row's "match" with the operand field laid in at bit 8 (R91, R92). -/
def encode (i : Instr) : Word := i.row.value ||| BitVec.ofNat 32 (i.operandField * 2 ^ 8)

end Sys2Proof
end

