-- ==== Sys2Proof/Machine/State.lean ====
section
/-! DEFINITION. The state of the block as plain data (spec/10_state.md, spec/20_memory.md R60), its value after a hardware
reset, the fault codes the block records, and the two reason types of the host's interface. -/

namespace Sys2Proof.Machine

/-- A memory space of elements `w` bits wide: the elements that have been written, by index, strictly rising (`Memory.wf`).
An element that is not listed is unspecified (R47, R48): it has no value of its own, and reading it reads the free value
`Config.unspecified w epoch index`. -/
structure Memory (w : Nat) where
  /-- The written elements, index first. -/
  cells : List (Nat × BitVec w)
  /-- The draw the unspecified elements are taken from (log 2, log 3). -/
  epoch : Nat
deriving DecidableEq, Repr

/-- A memory of which nothing is specified. -/
def Memory.blank (w epoch : Nat) : Memory w := { cells := [], epoch := epoch }

/-- The canonical form: indices strictly rising, none at or beyond the size of the space. -/
def Memory.wf {w : Nat} (size : Nat) (m : Memory w) : Bool :=
  decide (m.cells.Pairwise (fun a b => a.1 < b.1)) && m.cells.all (fun c => decide (c.1 < size))

/-- The eight memories (R60, R43). -/
structure Memories where
  /-- `IN`, the input bytes (R61). -/
  inp : Memory 8
  /-- `MOS`, the mosaic (R62). -/
  mos : Memory 16
  /-- `RGB`, the 3-channel image (R62). -/
  rgb : Memory 16
  /-- `HTS`, the Huffman table specifications (R63). -/
  hts : Memory 8
  /-- `CURVE`, the tone or linearisation curve (R64). -/
  curve : Memory 16
  /-- `GLUT`, the gamma table (R64). -/
  glut : Memory 16
  /-- `XTR`, the X-Trans rule table (R65). -/
  xtr : Memory 32
  /-- `XTC`, the X-Trans colour map (R65). -/
  xtc : Memory 8
deriving DecidableEq, Repr

/-- Every element of every memory unspecified, from eight draws of its own each. -/
def Memories.blank (draw : Nat) : Memories :=
  { inp := .blank 8 draw, mos := .blank 16 (draw + 1), rgb := .blank 16 (draw + 2), hts := .blank 8 (draw + 3)
    curve := .blank 16 (draw + 4), glut := .blank 16 (draw + 5), xtr := .blank 32 (draw + 6), xtc := .blank 8 (draw + 7) }

/-- The address spaces of R60. -/
inductive Space where
  | reg | inp | mos | rgb | hts | curve | glut | xtr | xtc
deriving DecidableEq, Repr

/-- The registers of R24 that have storage. `CMD`, `STATUS`, `BR_POS_LO` and `BR_POS_HI` have none (R25, R26, R29). -/
structure Regs where
  /-- `FAULT_CODE` (R27). -/
  faultCode : Word
  /-- `FAULT_INFO` (R27). -/
  faultInfo : Word
  /-- `RES` (R28). -/
  res : Word
  /-- `IN_OFF` (R30). -/
  inOff : Word
  /-- `IN_LEN` (R30). -/
  inLen : Word
  /-- `WIDTH` (R31). -/
  width : Word
  /-- `HEIGHT` (R31). -/
  height : Word
  /-- `CFA` (R32). -/
  cfa : Word
  /-- `COMPRESSION` (R33). -/
  compression : Word
  /-- `UNPACK_CFG` (R34). -/
  unpackCfg : Word
  /-- `BLACK` (R35). -/
  black : Word
  /-- `SCALE` (R35). -/
  scale : Word
  /-- `CURVE_LEN` (R36). -/
  curveLen : Word
  /-- `NIKON_CFG` (R37). -/
  nikonCfg : Word
  /-- `NIKON_SPLIT` (R37). -/
  nikonSplit : Word
  /-- `VPRED00` (R37). -/
  vpred00 : Word
  /-- `VPRED01` (R37). -/
  vpred01 : Word
  /-- `VPRED10` (R37). -/
  vpred10 : Word
  /-- `VPRED11` (R37). -/
  vpred11 : Word
  /-- `WB_R` (R38). -/
  wbR : Word
  /-- `WB_G` (R38). -/
  wbG : Word
  /-- `WB_B` (R38). -/
  wbB : Word
  /-- `WB_SHIFT` (R38). -/
  wbShift : Word
  /-- `RGB_WIDTH` (R39). -/
  rgbWidth : Word
  /-- `RGB_HEIGHT` (R39). -/
  rgbHeight : Word
  /-- `CM0` to `CM8` (R40). -/
  cm : Vector Word 9
deriving DecidableEq, Repr

/-- Every register at its reset value, "which is 0 for all of them" (R47). -/
def Regs.zero : Regs :=
  { faultCode := 0, faultInfo := 0, res := 0, inOff := 0, inLen := 0, width := 0, height := 0, cfa := 0, compression := 0
    unpackCfg := 0, black := 0, scale := 0, curveLen := 0, nikonCfg := 0, nikonSplit := 0, vpred00 := 0, vpred01 := 0
    vpred10 := 0, vpred11 := 0, wbR := 0, wbG := 0, wbB := 0, wbShift := 0, rgbWidth := 0, rgbHeight := 0
    cm := #v[0, 0, 0, 0, 0, 0, 0, 0, 0] }

/-- The bit cursor `br` (R41). -/
structure BitReader where
  bound : Bool
  mode : ReaderMode
  /-- `IN_OFF` as `BR.INIT` found it. -/
  base : Word
  /-- `IN_LEN` as `BR.INIT` found it. -/
  len : Word
  /-- The index in the logical bitstream of the next unconsumed bit. -/
  pos : Position
deriving DecidableEq, Repr

/-- The cursor after a reset (R47). -/
def BitReader.unbound : BitReader := { bound := false, mode := .msb, base := 0, len := 0, pos := 0 }

/-- One code of a Huffman table: the `len`-bit pattern `code`, first bit most significant, stands for `sym` (R152). -/
structure LutCode where
  code : Nat
  len : Nat
  sym : Byte
deriving DecidableEq, Repr

/-- A Huffman slot `hu[s]` (R42). -/
structure HuffSlot where
  built : Bool
  maxlen : Nat
  /-- The lookup table in its sparse form (log 6): the entry of index `w` is the code `e` with
  `w >> (maxlen - e.len) = e.code`, and `INVALID` where no code claims `w` (R153). -/
  lut : List LutCode
deriving DecidableEq, Repr

/-- Slot `slot` after a reset: not built, the rest unspecified (R47, log 5). -/
def HuffSlot.unspecified (draw slot : Nat) : HuffSlot :=
  { built := false
    maxlen := Config.unspecifiedMaxlen draw slot
    lut := (Config.unspecifiedLut draw slot).map (fun t => { code := t.1, len := t.2.1, sym := t.2.2 }) }

/-- All slots after a reset. -/
def HuffSlot.allUnspecified (draw : Nat) : Vector HuffSlot Config.nSlot :=
  #v[.unspecified draw 0, .unspecified draw 1, .unspecified draw 2, .unspecified draw 3]

/-- What the outside world can do to the block (R66; R360 for the reset input). A space is given by its id, so that an
unknown one can be named. -/
inductive HostAction where
  /-- `HostWrite(space, index, value)`. -/
  | write (space index : Nat) (value : Word)
  /-- `HostRead(space, index)`. -/
  | read (space index : Nat)
  /-- The hardware reset. -/
  | hardwareReset
deriving DecidableEq, Repr

/-- The state of the block, and, as the model's own fields, the host's side of the port and the model arguments. -/
structure State where
  /-- The registers (R24). -/
  regs : Regs
  /-- The fault latch, `STATUS.FAULT` (R26, R334). -/
  fault : Bool
  /-- The bit cursor (R41). -/
  br : BitReader
  /-- The Huffman slots (R42). -/
  hu : Vector HuffSlot Config.nSlot
  /-- The memories (R43, R60). -/
  mem : Memories
  /-- MODEL'S OWN (log 7, log 8): the model arguments of R8; no step changes them. -/
  params : Config.Params
  /-- MODEL'S OWN (log 3): how many free values have been drawn. -/
  draws : Nat
  /-- MODEL'S OWN (log 9): the host's actions still to come, oldest first. -/
  port : List HostAction
  /-- MODEL'S OWN (log 10): the values host reads returned, newest first. -/
  readback : List Word
deriving DecidableEq, Repr

/-- The machine right after a hardware reset (R47, R360, R361), with the spec's default parameters and nothing yet asked
of the port. Draw 0 is the slots', draws 1 to 8 the memories'. -/
def State.reset : State :=
  { regs := .zero, fault := false, br := .unbound, hu := HuffSlot.allUnspecified 0, mem := Memories.blank 1
    params := Config.Params.default, draws := 9, port := [], readback := [] }

/-- The fault codes the block records (R331). They are values of `FAULT_CODE`, not stops of the model. -/
inductive FaultCode where
  | illegalCmd | illegalCfg | bitsExhausted | huffEmptyTable | huffBadTable | huffNotBuilt | huffInvalidCode
  | unknownCompression | invalidDecodedSize | bounds | arithOverflow | unsupported | geometry | decodeFormat | readerUnbound
deriving DecidableEq, Repr

/-- What `raise Fault(CODE, info)` carries; the information is recorded `mod 2^32` (R331, R334). -/
structure Cause where
  code : FaultCode
  info : Word
deriving DecidableEq, Repr

/-- A raise inside a command that moves the cursor: the cause, and the cursor as it stood, because cursor effects made
before the raise stand (R334). -/
structure Raised where
  cause : Cause
  br : BitReader
deriving DecidableEq, Repr

/-- Reasons for which the model would STOP with a fault. There is none, so nothing raises one: every fault of the block is
taken as a next state that records it (R334), and no access of a command falls outside a space (R323). -/
inductive Fault where
deriving DecidableEq, Repr

/-- Reasons for which the model REFUSES a step. -/
inductive Refusal where
  /-- Raised by `exec` alone, for a command that has no meaning yet; no arm raises it, since all fourteen have one. Safe:
  nothing can be proved of a step that is not taken. -/
  | notModelled (mnemonic : String)
deriving DecidableEq, Repr

/-- What a step answers. -/
abbrev Outcome := Host.Outcome State Fault Refusal

end Sys2Proof.Machine
end

