-- ==== Sys2Proof/Machine/Ops.lean ====
section
/-! DEFINITION. The shared operations: reading and writing an element of a memory (spec/20_memory.md R60, R66), the loops of
the pseudocode (spec/00_scope.md R11), arithmetic that must fit `i32` (R9), binding the cursor, and taking a fault
(spec/60_exceptions.md R334) beside the way back from one (spec/46_system.md R320). -/

namespace Sys2Proof.Machine

/-! ### Memories -/

/-- The value listed for index `i`, if it has been written. -/
def lookupCell {w : Nat} (i : Nat) : List (Nat × BitVec w) → Option (BitVec w)
  | [] => none
  | (j, v) :: rest => if i = j then some v else lookupCell i rest

/-- Writes index `i`, keeping the indices strictly rising. -/
def insertCell {w : Nat} (i : Nat) (v : BitVec w) : List (Nat × BitVec w) → List (Nat × BitVec w)
  | [] => [(i, v)]
  | (j, u) :: rest =>
    if i < j then (i, v) :: (j, u) :: rest
    else if i = j then (i, v) :: rest
    else (j, u) :: insertCell i v rest

/-- What an element that nothing has written since the last reset, or since the fault that spoiled its space, reads as: a
free value (R48, log 2). -/
def Memory.unlisted {w : Nat} (m : Memory w) (i : Nat) : BitVec w := Config.unspecified w m.epoch i

/-- `MemRead(S, i)` (R11). -/
def Memory.read {w : Nat} (m : Memory w) (i : Nat) : BitVec w :=
  match lookupCell i m.cells with
  | some v => v
  | none => m.unlisted i

/-- `MemWrite(S, i, v)` (R11). -/
def Memory.write {w : Nat} (m : Memory w) (i : Nat) (v : BitVec w) : Memory w :=
  { m with cells := insertCell i v m.cells }

/-- `HTS[i]`, zero-extended, and so on for the others: elements are unsigned (spec/46_system.md R323). -/
def Memory.readNat {w : Nat} (m : Memory w) (i : Nat) : Nat := (m.read i).toNat

/-- How many elements a space has (R60). -/
def spaceSize (p : Config.Params) : Space → Nat
  | .reg => Config.regSize
  | .inp => p.inSize
  | .mos => p.maxPixels
  | .rgb => 3 * p.maxPixels
  | .hts => Config.htsSize
  | .curve => Config.curveSize
  | .glut => Config.glutSize
  | .xtr => Config.xtrSize
  | .xtc => Config.xtcSize

/-- Every memory in canonical form. -/
def Memories.wf (p : Config.Params) (m : Memories) : Bool :=
  m.inp.wf (spaceSize p .inp) && m.mos.wf (spaceSize p .mos) && m.rgb.wf (spaceSize p .rgb) && m.hts.wf (spaceSize p .hts)
    && m.curve.wf (spaceSize p .curve) && m.glut.wf (spaceSize p .glut) && m.xtr.wf (spaceSize p .xtr)
    && m.xtc.wf (spaceSize p .xtc)

/-- "every element of S <- unspecified" (R334), from draw `draw`. The register space is no memory. -/
def Memories.spoil (draw : Nat) (m : Memories) : Space → Memories
  | .reg => m
  | .inp => { m with inp := .blank 8 draw }
  | .mos => { m with mos := .blank 16 draw }
  | .rgb => { m with rgb := .blank 16 draw }
  | .hts => { m with hts := .blank 8 draw }
  | .curve => { m with curve := .blank 16 draw }
  | .glut => { m with glut := .blank 16 draw }
  | .xtr => { m with xtr := .blank 32 draw }
  | .xtc => { m with xtc := .blank 8 draw }

/-- The same for a list of spaces, a draw for each. -/
def Memories.spoilAll : List Space → Nat → Memories → Memories
  | [], _, m => m
  | sp :: rest, draw, m => Memories.spoilAll rest (draw + 1) (m.spoil draw sp)

/-! ### Loops -/

/-- `for i in i0 .. i0 + k: s <- f i s`, ended by the first raise. -/
def loopFrom {σ ε : Type} (f : Nat → σ → Except ε σ) : (k i0 : Nat) → σ → Except ε σ
  | 0, _, s => .ok s
  | k + 1, i0, s =>
    match f i0 s with
    | .ok s' => loopFrom f k (i0 + 1) s'
    | .error e => .error e

/-- `for i in 0..n: s <- f i s` (R11). -/
def loop {σ ε : Type} (n : Nat) (f : Nat → σ → Except ε σ) (s : σ) : Except ε σ := loopFrom f n 0 s

/-- `for i in i0 .. i0 + k: s <- f i s`, where nothing raises. -/
def repeatFrom {σ : Type} (f : Nat → σ → σ) : (k i0 : Nat) → σ → σ
  | 0, _, s => s
  | k + 1, i0, s => repeatFrom f k (i0 + 1) (f i0 s)

/-- `for i in 0..n: s <- f i s`, where nothing raises. -/
def repeatTimes {σ : Type} (n : Nat) (f : Nat → σ → σ) (s : σ) : σ := repeatFrom f n 0 s

/-! ### Arithmetic -/

/-- `fits_i32(v)` (R9). -/
def fitsI32 (v : Int) : Bool := decide (-(2 ^ 31) ≤ v ∧ v ≤ 2 ^ 31 - 1)

/-- `bitlen(v)`, the number of bits of `v` without leading zeros (R9). -/
def bitlen (v : Nat) : Nat := if v = 0 then 0 else Nat.log2 v + 1

/-- `w[hi:lo]` (R10). -/
def bits (w : Word) (hi lo : Nat) : Nat := wordField w hi lo

/-- An information value recorded `mod 2^32` (R331). -/
def infoNat (n : Nat) : Word := BitVec.ofNat 32 n

/-- The same of a value that may be negative (R205). -/
def infoInt (v : Int) : Word := BitVec.ofInt 32 v

/-! ### The cursor, the slots, the result register -/

/-- `Bind(mode)` (R182), the effect of `BR.INIT mode` after its bounds test (R125). -/
def bindCursor (mode : ReaderMode) (r : Regs) : BitReader :=
  { bound := true, mode := mode, base := r.inOff, len := r.inLen, pos := 0 }

/-- `br.bound <- 0`; mode and position stay (R66, R180). -/
def BitReader.unbind (br : BitReader) : BitReader := { br with bound := false }

/-- `hu[s].built <- 0`; the hidden contents stay, out of reach (R66, R155). -/
def HuffSlot.unbuild (h : HuffSlot) : HuffSlot := { h with built := false }

/-- `hu[slot].built <- 0`. -/
def State.unbuildSlot (slot : Slot) (s : State) : State := { s with hu := s.hu.set slot.val s.hu[slot].unbuild }

/-- `reg.RES <- v` (R28). -/
def State.setRes (v : Word) (s : State) : State := { s with regs := { s.regs with res := v } }

/-- The cursor replaced. -/
def State.setBr (br : BitReader) (s : State) : State := { s with br := br }

/-- The mosaic replaced. -/
def State.setMos (m : Memory 16) (s : State) : State := { s with mem := { s.mem with mos := m } }

/-- The image replaced. -/
def State.setRgb (m : Memory 16) (s : State) : State := { s with mem := { s.mem with rgb := m } }

/-! ### Taking a fault, and the way back -/

/-- The numbering of the fault codes (R331). -/
def FaultCode.number : FaultCode → Word
  | .illegalCmd => 1
  | .illegalCfg => 2
  | .bitsExhausted => 3
  | .huffEmptyTable => 4
  | .huffBadTable => 5
  | .huffNotBuilt => 6
  | .huffInvalidCode => 7
  | .unknownCompression => 8
  | .invalidDecodedSize => 9
  | .bounds => 10
  | .arithOverflow => 11
  | .unsupported => 12
  | .geometry => 13
  | .decodeFormat => 14
  | .readerUnbound => 15

/-- Fault entry (R334): the latch is set, the cause recorded, `RES` and every element of every space the command writes
become unspecified. Nothing is saved, no mode changes, control goes nowhere. -/
def takeFault (writes : List Space) (c : Cause) (s : State) : State :=
  { s with
    fault := true
    regs := { s.regs with faultCode := c.code.number, faultInfo := c.info, res := Config.unspecified 32 s.draws 0 }
    mem := s.mem.spoilAll writes (s.draws + 1)
    draws := s.draws + 1 + writes.length }

/-- How a command ends: with the state its pseudocode reached, or by taking the fault it raised, the cursor standing where
it stood at the raise (R334). `base` is the state whose other effects stand. -/
def settle (writes : List Space) (base : State) : Except Raised State → State
  | .ok s' => s'
  | .error e => takeFault writes e.cause (base.setBr e.br)

/-- A raise in a command that does not move the cursor. -/
def raiseAt (s : State) (code : FaultCode) (info : Word) : Except Raised State := .error ⟨⟨code, info⟩, s.br⟩

/-- Every command but `SYS.RESET` does nothing while the block is in the fault state: step (1) of R90, R336. -/
def whenAccepting (s : State) (f : State → State) : Outcome := .next (if s.fault then s else f s)

/-- The pseudocode of `SYS.RESET` (R320), the only way out of the fault state (R336): every register 0, cursor unbound,
slots not built and their hidden contents unspecified (R47, R360), memories kept. -/
def systemReset (s : State) : State :=
  { s with regs := .zero, fault := false, br := .unbound, hu := HuffSlot.allUnspecified s.draws, draws := s.draws + 1 }

/-- The hardware reset as an event (R360): as `SYS.RESET`, and every element of every memory unspecified. -/
def hardwareReset (s : State) : State :=
  { systemReset s with mem := Memories.blank (s.draws + 1), draws := s.draws + 9 }

end Sys2Proof.Machine
end

