-- ==== Sys2Proof/Machine/Operands.lean ====
section
/-! DEFINITION. What commands read by name: the fields of the registers (spec/10_state.md R30 to R40) and the tests on them
that several commands share; and the writing of registers by number with their access kinds and reserved bits (R23, R24). -/

namespace Sys2Proof.Machine

/-! ### Register numbers, access kinds, reserved bits -/

/-- The registers of R24 by name. -/
inductive Reg where
  | cmd | status | faultCode | faultInfo | res | brPosLo | brPosHi | inOff | inLen | width | height | cfa | compression
  | unpackCfg | black | scale | curveLen | nikonCfg | nikonSplit | vpred00 | vpred01 | vpred10 | vpred11 | wbR | wbG | wbB
  | wbShift | rgbWidth | rgbHeight
  | cm (i : Fin 9)
deriving DecidableEq, Repr

/-- The register of a register number (R24); the other numbers are reserved. -/
def Reg.ofNumber : Nat → Option Reg
  | 0x00 => some .cmd
  | 0x01 => some .status
  | 0x02 => some .faultCode
  | 0x03 => some .faultInfo
  | 0x04 => some .res
  | 0x05 => some .brPosLo
  | 0x06 => some .brPosHi
  | 0x08 => some .inOff
  | 0x09 => some .inLen
  | 0x0A => some .width
  | 0x0B => some .height
  | 0x0C => some .cfa
  | 0x0D => some .compression
  | 0x0E => some .unpackCfg
  | 0x0F => some .black
  | 0x10 => some .scale
  | 0x11 => some .curveLen
  | 0x12 => some .nikonCfg
  | 0x13 => some .nikonSplit
  | 0x14 => some .vpred00
  | 0x15 => some .vpred01
  | 0x16 => some .vpred10
  | 0x17 => some .vpred11
  | 0x18 => some .wbR
  | 0x19 => some .wbG
  | 0x1A => some .wbB
  | 0x1B => some .wbShift
  | 0x1C => some .rgbWidth
  | 0x1D => some .rgbHeight
  | 0x20 => some (.cm 0)
  | 0x21 => some (.cm 1)
  | 0x22 => some (.cm 2)
  | 0x23 => some (.cm 3)
  | 0x24 => some (.cm 4)
  | 0x25 => some (.cm 5)
  | 0x26 => some (.cm 6)
  | 0x27 => some (.cm 7)
  | 0x28 => some (.cm 8)
  | _ => none

/-- The defined bits of a register the host writes; every other bit is reserved, reads 0 and ignores writes (R23). A
register the host does not write has none here. -/
def Reg.writable : Reg → Word
  | .cmd => 0
  | .status => 0
  | .faultCode => 0
  | .faultInfo => 0
  | .res => 0
  | .brPosLo => 0
  | .brPosHi => 0
  | .cfa => 0x00000007
  | .unpackCfg => 0x0000031F
  | .black => 0x0000FFFF
  | .scale => 0x0000FFFF
  | .curveLen => 0x0001FFFF
  | .nikonCfg => 0x0000001F
  | .wbR => 0x7FFFFFFF
  | .wbG => 0x7FFFFFFF
  | .wbB => 0x7FFFFFFF
  | .wbShift => 0x0000001F
  | .inOff => 0xFFFFFFFF
  | .inLen => 0xFFFFFFFF
  | .width => 0xFFFFFFFF
  | .height => 0xFFFFFFFF
  | .compression => 0xFFFFFFFF
  | .nikonSplit => 0xFFFFFFFF
  | .vpred00 => 0xFFFFFFFF
  | .vpred01 => 0xFFFFFFFF
  | .vpred10 => 0xFFFFFFFF
  | .vpred11 => 0xFFFFFFFF
  | .rgbWidth => 0xFFFFFFFF
  | .rgbHeight => 0xFFFFFFFF
  | .cm _ => 0xFFFFFFFF

/-- The register file with the host's word `v` in register `r`, reserved bits masked (R23); a read-only or write-only
register keeps what it holds. -/
def Regs.hostSet (r : Reg) (v : Word) (g : Regs) : Regs :=
  match r with
  | .cmd => g
  | .status => g
  | .faultCode => g
  | .faultInfo => g
  | .res => g
  | .brPosLo => g
  | .brPosHi => g
  | .inOff => { g with inOff := v }
  | .inLen => { g with inLen := v }
  | .width => { g with width := v }
  | .height => { g with height := v }
  | .cfa => { g with cfa := v &&& Reg.writable .cfa }
  | .compression => { g with compression := v }
  | .unpackCfg => { g with unpackCfg := v &&& Reg.writable .unpackCfg }
  | .black => { g with black := v &&& Reg.writable .black }
  | .scale => { g with scale := v &&& Reg.writable .scale }
  | .curveLen => { g with curveLen := v &&& Reg.writable .curveLen }
  | .nikonCfg => { g with nikonCfg := v &&& Reg.writable .nikonCfg }
  | .nikonSplit => { g with nikonSplit := v }
  | .vpred00 => { g with vpred00 := v }
  | .vpred01 => { g with vpred01 := v }
  | .vpred10 => { g with vpred10 := v }
  | .vpred11 => { g with vpred11 := v }
  | .wbR => { g with wbR := v &&& Reg.writable .wbR }
  | .wbG => { g with wbG := v &&& Reg.writable .wbG }
  | .wbB => { g with wbB := v &&& Reg.writable .wbB }
  | .wbShift => { g with wbShift := v &&& Reg.writable .wbShift }
  | .rgbWidth => { g with rgbWidth := v }
  | .rgbHeight => { g with rgbHeight := v }
  | .cm i => { g with cm := g.cm.set i.val v }

/-- A host write to a register other than `CMD`: `IN_OFF` and `IN_LEN` also unbind the cursor (R30, R66). -/
def State.hostWriteReg (r : Reg) (v : Word) (s : State) : State :=
  let s' := { s with regs := s.regs.hostSet r v }
  match r with
  | .inOff => { s' with br := s'.br.unbind }
  | .inLen => { s' with br := s'.br.unbind }
  | _ => s'

/-! ### The fields commands read -/

/-- `W` (R31). -/
def Regs.w (g : Regs) : Nat := g.width.toNat
/-- `H` (R31). -/
def Regs.h (g : Regs) : Nat := g.height.toNat
/-- `CFA`, bits 2:0 (R32). -/
def Regs.cfaCode (g : Regs) : Nat := bits g.cfa 2 0
/-- `UNPACK_CFG.BITS`, bits 4:0 (R34). -/
def Regs.unpackBits (g : Regs) : Nat := bits g.unpackCfg 4 0
/-- `UNPACK_CFG.LAYOUT`, bit 8: word-aligned when set (R34). -/
def Regs.unpackWordAligned (g : Regs) : Bool := bits g.unpackCfg 8 8 == 1
/-- `UNPACK_CFG.ENDIAN`, bit 9: little-endian when set (R34). -/
def Regs.unpackLittle (g : Regs) : Bool := bits g.unpackCfg 9 9 == 1
/-- `BLACK`, bits 15:0 (R35). -/
def Regs.blackLevel (g : Regs) : Nat := bits g.black 15 0
/-- `SCALE`, bits 15:0 (R35). -/
def Regs.scaleFactor (g : Regs) : Nat := bits g.scale 15 0
/-- `CURVE_LEN`, bits 16:0 (R36). -/
def Regs.curveEntries (g : Regs) : Nat := bits g.curveLen 16 0
/-- `NIKON_CFG.SLOT_A`, bits 1:0 (R37). -/
def Regs.nikonSlotA (g : Regs) : Slot := Fin.ofNat Config.nSlot (bits g.nikonCfg 1 0)
/-- `NIKON_CFG.SLOT_B`, bits 3:2 (R37). -/
def Regs.nikonSlotB (g : Regs) : Slot := Fin.ofNat Config.nSlot (bits g.nikonCfg 3 2)
/-- `NIKON_CFG.SPLIT_EN`, bit 4 (R37). -/
def Regs.nikonSplitEnabled (g : Regs) : Bool := bits g.nikonCfg 4 4 == 1
/-- `WB_R`, `WB_G`, `WB_B`, bits 30:0, unsigned (R38). -/
def wbGain (w : Word) : Nat := bits w 30 0
/-- `WB_SHIFT`, bits 4:0 (R38). -/
def Regs.wbShiftAmount (g : Regs) : Nat := bits g.wbShift 4 0
/-- `M[i][j] = CM(3i + j)` as `i32` (R40); only `i`, `j` below 3 name an entry. -/
def Regs.matrixEntry (g : Regs) (i j : Nat) : Int := (g.cm.getD (3 * i + j) 0).toInt

/-- `IN_OFF + IN_LEN <= IN_SIZE`, the sum exact (R30, R125). -/
def State.regionInside (s : State) : Bool := decide (s.regs.inOff.toNat + s.regs.inLen.toNat ≤ s.params.inSize)

/-- `W` and `H` are not zero and `W * H <= MAX_PIXELS`, the product exact (R180, R230). -/
def State.mosaicFits (s : State) : Bool :=
  decide (s.regs.w ≠ 0 ∧ s.regs.h ≠ 0 ∧ s.regs.w * s.regs.h ≤ s.params.maxPixels)

/-- `N`, the pixels of the image in `RGB` (R297). -/
def Regs.imagePixels (g : Regs) : Nat := g.rgbWidth.toNat * g.rgbHeight.toNat

end Sys2Proof.Machine
end

