-- ==== Sys2Proof/Machine/Flags.lean ====
section
/-! DEFINITION. The flags of the block, all of them fields of `STATUS` (spec/10_state.md R26, R44), and the reading of
registers by number (R23, R24), of which `STATUS` and the two halves of `br.pos` are views. -/

namespace Sys2Proof.Machine

/-- Field `BR_MODE` (R26, R41). -/
def readerModeBits (m : ReaderMode) : Nat := encodeReaderMode m

/-- `STATUS` (R26): `FAULT` bit 1, `BR_BOUND` bit 2, `BR_MODE` bits 4:3, `HBUILT` bits 11:8. `BUSY`, bit 0, reads 0: a
command is one step (R20, R26, log 12). -/
def State.status (s : State) : Word :=
  BitVec.ofNat 32
    (2 * s.fault.toNat + 4 * s.br.bound.toNat + 8 * readerModeBits s.br.mode
      + 256 * (s.hu[0].built.toNat + 2 * s.hu[1].built.toNat + 4 * s.hu[2].built.toNat + 8 * s.hu[3].built.toNat))

/-- `BR_POS_LO` (R29). -/
def State.posLow (s : State) : Word := BitVec.ofNat 32 s.br.pos.toNat

/-- `BR_POS_HI` (R29). -/
def State.posHigh (s : State) : Word := BitVec.ofNat 32 (s.br.pos.toNat / 2 ^ 32)

/-- A host read of a register (R23 to R40): a write-only register reads 0. -/
def State.hostReadReg (s : State) : Reg → Word
  | .cmd => 0
  | .status => s.status
  | .faultCode => s.regs.faultCode
  | .faultInfo => s.regs.faultInfo
  | .res => s.regs.res
  | .brPosLo => s.posLow
  | .brPosHi => s.posHigh
  | .inOff => s.regs.inOff
  | .inLen => s.regs.inLen
  | .width => s.regs.width
  | .height => s.regs.height
  | .cfa => s.regs.cfa
  | .compression => s.regs.compression
  | .unpackCfg => s.regs.unpackCfg
  | .black => s.regs.black
  | .scale => s.regs.scale
  | .curveLen => s.regs.curveLen
  | .nikonCfg => s.regs.nikonCfg
  | .nikonSplit => s.regs.nikonSplit
  | .vpred00 => s.regs.vpred00
  | .vpred01 => s.regs.vpred01
  | .vpred10 => s.regs.vpred10
  | .vpred11 => s.regs.vpred11
  | .wbR => s.regs.wbR
  | .wbG => s.regs.wbG
  | .wbB => s.regs.wbB
  | .wbShift => s.regs.wbShift
  | .rgbWidth => s.regs.rgbWidth
  | .rgbHeight => s.regs.rgbHeight
  | .cm i => s.regs.cm[i]

end Sys2Proof.Machine
end

