-- ==== Sys2Proof/Machine/BitReader.lean ====
section
/-! DEFINITION. The bit reader (spec/40_bit_reader.md): the logical bitstream (R121 to R124), the three primitives every
other unit reads through (R129), and the meanings of `BR.INIT`, `BR.READ`, `BR.PEEK` and `BR.SKIP` (R125 to R128). -/

namespace Sys2Proof.Machine

/-! ### The logical bitstream -/

/-- `B[k] = IN[br.base + k]` (R121). -/
def regionByte (inp : Memory 8) (br : BitReader) (k : Nat) : Byte := inp.read (br.base.toNat + k)

/-- The loop of `Destuff` from byte `k` on (R124); `fuel` bounds the bytes still to look at. -/
def destuffFrom (b : Nat → Byte) (len : Nat) : (fuel k : Nat) → List Byte
  | 0, _ => []
  | fuel + 1, k =>
    if k < len then
      if b k ≠ 0xFF#8 then b k :: destuffFrom b len fuel (k + 1)
      else if k + 1 < len ∧ b (k + 1) = 0x00#8 then 0xFF#8 :: destuffFrom b len fuel (k + 2)
      else []
    else []

/-- `Destuff(B)`, the data bytes of a byte-stuffed region (R98, R124). -/
def destuff (b : Nat → Byte) (len : Nat) : List Byte := destuffFrom b len len 0

/-- `L`, the length of an MSB or LSB stream in bits (R123). -/
def streamBits (br : BitReader) : Nat := 8 * br.len.toNat

/-- `bit(j)` of the logical bitstream (R123, R124). In MSB and LSB mode it exists below `L` only, which R129 tests. -/
def streamBit (inp : Memory 8) (br : BitReader) (j : Nat) : Bool :=
  match br.mode with
  | .msb => (regionByte inp br (j / 8)).getLsbD (7 - j % 8)
  | .lsb => (regionByte inp br (j / 8)).getLsbD (j % 8)
  | .jpeg =>
    match (destuff (regionByte inp br) br.len.toNat)[j / 8]? with
    | some d => d.getLsbD (7 - j % 8)
    | none => false

/-- The sum of R122 with the first bit most significant, and the one with the first bit least significant. -/
def bitsMsbFirst (bit : Nat → Bool) (p : Nat) : Nat → Nat
  | 0 => 0
  | n + 1 => 2 * bitsMsbFirst bit p n + (bit (p + n)).toNat

@[inherit_doc bitsMsbFirst]
def bitsLsbFirst (bit : Nat → Bool) (p : Nat) : Nat → Nat
  | 0 => 0
  | n + 1 => bitsLsbFirst bit p n + (bit (p + n)).toNat * 2 ^ n

/-- `val(p, n)` (R122). -/
def streamValue (inp : Memory 8) (br : BitReader) (p n : Nat) : Nat :=
  match br.mode with
  | .lsb => bitsLsbFirst (streamBit inp br) p n
  | .msb => bitsMsbFirst (streamBit inp br) p n
  | .jpeg => bitsMsbFirst (streamBit inp br) p n

/-! ### The primitives -/

/-- `InRange(p, n)` (R129). -/
def inRange (br : BitReader) (p n : Nat) : Bool :=
  match br.mode with
  | .jpeg => decide (p + n < 2 ^ 64)
  | .msb => decide (p + n ≤ streamBits br)
  | .lsb => decide (p + n ≤ streamBits br)

/-- The raise of R129, its information `br.pos mod 2^32`. -/
def bitsExhausted (br : BitReader) : Raised := ⟨⟨.bitsExhausted, infoNat br.pos.toNat⟩, br⟩

/-- `Peek(n)` (R129). -/
def peek (inp : Memory 8) (br : BitReader) (n : Nat) : Except Raised Nat :=
  if n = 0 then .ok 0
  else if inRange br br.pos.toNat n then .ok (streamValue inp br br.pos.toNat n)
  else .error (bitsExhausted br)

/-- `Consume(n)` (R129). -/
def consume (br : BitReader) (n : Nat) : Except Raised BitReader :=
  if n = 0 then .ok br
  else if inRange br br.pos.toNat n then .ok { br with pos := br.pos + BitVec.ofNat 64 n }
  else .error (bitsExhausted br)

/-- `Read(n)` (R129). -/
def readBits (inp : Memory 8) (br : BitReader) (n : Nat) : Except Raised (Nat × BitReader) :=
  match peek inp br n with
  | .error e => .error e
  | .ok v =>
    match consume br n with
    | .error e => .error e
    | .ok br' => .ok (v, br')

/-! ### The commands -/

/-- The pseudocode of `BR.INIT` (R125). -/
def brInitBody (mode : ReaderMode) (s : State) : Except Raised State :=
  if s.regionInside then .ok (s.setBr (bindCursor mode s.regs)) else raiseAt s .bounds s.regs.inOff

/-- The pseudocode of `BR.READ` (R126). -/
def brReadBody (n : Nat) (s : State) : Except Raised State :=
  if s.br.bound then
    match readBits s.mem.inp s.br n with
    | .error e => .error e
    | .ok (v, br') => .ok ((s.setBr br').setRes (infoNat v))
  else raiseAt s .readerUnbound 0

/-- The pseudocode of `BR.PEEK` (R127). -/
def brPeekBody (n : Nat) (s : State) : Except Raised State :=
  if s.br.bound then
    match peek s.mem.inp s.br n with
    | .error e => .error e
    | .ok v => .ok (s.setRes (infoNat v))
  else raiseAt s .readerUnbound 0

/-- The pseudocode of `BR.SKIP` (R128). -/
def brSkipBody (n : Nat) (s : State) : Except Raised State :=
  if s.br.bound then
    match consume s.br n with
    | .error e => .error e
    | .ok br' => .ok (s.setBr br')
  else raiseAt s .readerUnbound 0

/-- `BR.INIT mode` (R125). -/
def execBrInit (mode : ReaderMode) (s : State) : Outcome := whenAccepting s fun s => settle [] s (brInitBody mode s)

/-- `BR.READ n` (R126). -/
def execBrRead (n : Nat) (s : State) : Outcome := whenAccepting s fun s => settle [] s (brReadBody n s)

/-- `BR.PEEK n` (R127). -/
def execBrPeek (n : Nat) (s : State) : Outcome := whenAccepting s fun s => settle [] s (brPeekBody n s)

/-- `BR.SKIP n` (R128). -/
def execBrSkip (n : Nat) (s : State) : Outcome := whenAccepting s fun s => settle [] s (brSkipBody n s)

end Sys2Proof.Machine
end

