-- ==== Sys2Proof/Machine/Huffman.lean ====
section
/-! DEFINITION. The Huffman unit (spec/41_huffman.md): reading a table specification (R151), the canonical code assignment
(R152), the lookup table (R153), the primitives `HuffSym` (R154) and `HuffDec` (R158), and the meanings of `HU.BUILD`,
`HU.SYM` and `HU.DEC` (R155 to R157). -/

namespace Sys2Proof.Machine

/-! ### From a table specification to a lookup table -/

/-- `count[i]` of slot `s`: the number of codes of `i + 1` bits (R63, R151). -/
def codeCount (hts : Memory 8) (s i : Nat) : Nat := hts.readNat (Config.htsStride * s + i)

/-- `value[k]` of slot `s` (R63, R151). -/
def codeSymbol (hts : Memory 8) (s k : Nat) : Byte := hts.read (Config.htsStride * s + 16 + k)

/-- `shift[k]` of slot `s` (R63, R151). -/
def codeShift (hts : Memory 8) (s k : Nat) : Byte := hts.read (Config.htsStride * s + 272 + k)

/-- The sum of the first `m` counts; `n` of R151 is that of all sixteen. -/
def countSum (count : Nat → Nat) : Nat → Nat
  | 0 => 0
  | m + 1 => countSum count m + count m

/-- The greatest length up to `m` that some code has, 0 if none has; `maxlen` of R151 is that up to 16. -/
def longestCode (count : Nat → Nat) : Nat → Nat
  | 0 => 0
  | m + 1 => if count m ≠ 0 then m + 1 else longestCode count m

/-- Some `shift[k]`, `k < n`, is not zero (R155). -/
def anyShift (shift : Nat → Byte) : Nat → Bool
  | 0 => false
  | n + 1 => anyShift shift n || shift n != 0#8

/-- What `Assign` carries along: the next candidate code, the number of values used, the codes so far. -/
structure Assignment where
  code : Nat
  k : Nat
  codes : List LutCode
deriving DecidableEq, Repr

/-- The inner loop of `Assign` (R152): `t` codes of length `l`. An over-subscribed length is the error. -/
def assignLength (value : Nat → Byte) (l : Nat) : (t : Nat) → Assignment → Except Nat Assignment
  | 0, a => .ok a
  | t + 1, a =>
    if 2 ^ l ≤ a.code then .error l
    else assignLength value l t
      { code := a.code + 1, k := a.k + 1, codes := a.codes ++ [{ code := a.code, len := l, sym := value a.k }] }

/-- The outer loop of `Assign` (R152): `m` lengths from `l` on, the candidate doubled after each. -/
def assignFrom (count : Nat → Nat) (value : Nat → Byte) : (m l : Nat) → Assignment → Except Nat Assignment
  | 0, _, a => .ok a
  | m + 1, l, a =>
    match assignLength value l (count (l - 1)) a with
    | .error e => .error e
    | .ok a' => assignFrom count value m (l + 1) { a' with code := 2 * a'.code }

/-- `Assign(count, value)` (R152): the codes in canonical order, or the length the counts over-subscribe. -/
def assignCodes (count : Nat → Nat) (value : Nat → Byte) : Except Nat (List LutCode) :=
  (assignFrom count value 16 1 { code := 0, k := 0, codes := [] }).map Assignment.codes

/-- `lut[w]` (R153): the code that claims the `maxlen`-bit index `w`, or `INVALID` (`none`). -/
def HuffSlot.entry (h : HuffSlot) (w : Nat) : Option LutCode := h.lut.find? (fun e => w >>> (h.maxlen - e.len) == e.code)

/-! ### Decoding -/

/-- `HuffSym(s)` (R154) over slot number `s`, whose state is `h`. -/
def huffSym (inp : Memory 8) (s : Nat) (h : HuffSlot) (br : BitReader) : Except Raised (Nat × BitReader) :=
  if !h.built then .error ⟨⟨.huffNotBuilt, infoNat s⟩, br⟩
  else if !br.bound then .error ⟨⟨.readerUnbound, 0⟩, br⟩
  else if br.mode = .lsb then .error ⟨⟨.unsupported, 1⟩, br⟩
  else
    match peek inp br h.maxlen with
    | .error e => .error e
    | .ok w =>
      match h.entry w with
      | none => .error ⟨⟨.huffInvalidCode, infoNat w⟩, br⟩
      | some e =>
        match consume br e.len with
        | .error r => .error r
        | .ok br' => .ok (e.sym.toNat, br')

/-- The SSSS sign rule (R97, R158): a `t`-bit field with top bit 0 stands for `v - (2^t - 1)`. -/
def signedDifference (t v : Nat) : Int :=
  if v >>> (t - 1) &&& 1 = 0 then (v : Int) - (2 ^ t - 1) else (v : Int)

/-- `HuffDec(s)` (R158). -/
def huffDec (inp : Memory 8) (s : Nat) (h : HuffSlot) (br : BitReader) : Except Raised (Int × BitReader) :=
  match huffSym inp s h br with
  | .error e => .error e
  | .ok (t, br1) =>
    if t = 0 then .ok (0, br1)
    else if 32 < t then .error ⟨⟨.decodeFormat, infoNat t⟩, br1⟩
    else
      match readBits inp br1 t with
      | .error e => .error e
      | .ok (v, br2) =>
        if fitsI32 (signedDifference t v) then .ok (signedDifference t v, br2)
        else .error ⟨⟨.arithOverflow, infoNat t⟩, br2⟩

/-! ### The commands -/

/-- The pseudocode of `HU.BUILD` (R155) after its first line, which `execHuBuild` runs: `built` is already clear. -/
def huBuildBody (slot : Slot) (s : State) : Except Raised State :=
  let count := codeCount s.mem.hts slot.val
  let value := codeSymbol s.mem.hts slot.val
  let shift := codeShift s.mem.hts slot.val
  let n := countSum count 16
  if n = 0 then raiseAt s .huffEmptyTable (infoNat slot.val)
  else if 256 < n then raiseAt s .huffBadTable 0
  else if anyShift shift n then raiseAt s .unsupported 2
  else
    match assignCodes count value with
    | .error l => raiseAt s .huffBadTable (infoNat l)
    | .ok codes => .ok { s with hu := s.hu.set slot.val { built := true, maxlen := longestCode count 16, lut := codes } }

/-- The pseudocode of `HU.SYM` (R156). -/
def huSymBody (slot : Slot) (s : State) : Except Raised State :=
  match huffSym s.mem.inp slot.val s.hu[slot] s.br with
  | .error e => .error e
  | .ok (t, br') => .ok ((s.setBr br').setRes (infoNat t))

/-- The pseudocode of `HU.DEC` (R157): the difference as a two's complement word. -/
def huDecBody (slot : Slot) (s : State) : Except Raised State :=
  match huffDec s.mem.inp slot.val s.hu[slot] s.br with
  | .error e => .error e
  | .ok (d, br') => .ok ((s.setBr br').setRes (infoInt d))

/-- `HU.BUILD slot` (R155): "hu[slot].built <- 0" stands also when the build faults (R334). -/
def execHuBuild (slot : Slot) (s : State) : Outcome :=
  whenAccepting s fun s => settle [] (s.unbuildSlot slot) (huBuildBody slot (s.unbuildSlot slot))

/-- `HU.SYM slot` (R156). -/
def execHuSym (slot : Slot) (s : State) : Outcome := whenAccepting s fun s => settle [] s (huSymBody slot s)

/-- `HU.DEC slot` (R157). -/
def execHuDec (slot : Slot) (s : State) : Outcome := whenAccepting s fun s => settle [] s (huDecBody slot s)

end Sys2Proof.Machine
end

