-- ==== Sys2Proof/Machine/Decompress.lean ====
section
/-! DEFINITION. The decompressor (spec/42_decompress.md): the uncompressed codec (R184 to R186), the Sony codec (R190 to
R194), the Nikon codec (R200 to R205), and the meaning of `DC.RUN`, which dispatches among them (R180, R181). A codec works on
the mosaic and its own cursor; the registers, slots and other memories it reads it cannot change. -/

namespace Sys2Proof.Machine

/-! ### Compression 1: uncompressed -/

/-- One sample of the packed layout: `MOS[k] <- Read(bits)` (R185). -/
def unpackPackedSample (inp : Memory 8) (width : Nat) (k : Nat) (st : Memory 16 × BitReader) :
    Except Raised (Memory 16 × BitReader) :=
  match readBits inp st.2 width with
  | .error e => .error e
  | .ok (v, br') => .ok (st.1.write k (BitVec.ofNat 16 v), br')

/-- `UnpackPacked` (R185). -/
def unpackPacked (s : State) (br : BitReader) : Except Raised (Memory 16 × BitReader) :=
  let g := s.regs
  if 8 * g.inLen.toNat ≠ g.w * g.h * g.unpackBits then .error ⟨⟨.invalidDecodedSize, g.inLen⟩, br⟩
  else
    loop (g.w * g.h) (unpackPackedSample s.mem.inp g.unpackBits)
      (s.mem.mos, bindCursor (if g.unpackLittle then .lsb else .msb) g)

/-- The 16-bit word of bytes `2k`, `2k + 1` of the region, in the chosen order (R100, R186). -/
def unpackWord (s : State) (k : Nat) : Sample :=
  let b0 := s.mem.inp.readNat (s.regs.inOff.toNat + 2 * k)
  let b1 := s.mem.inp.readNat (s.regs.inOff.toNat + 2 * k + 1)
  if s.regs.unpackLittle then BitVec.ofNat 16 (b0 + 256 * b1) else BitVec.ofNat 16 (256 * b0 + b1)

/-- `UnpackWords` (R186): it binds no cursor. -/
def unpackWords (s : State) (br : BitReader) : Except Raised (Memory 16 × BitReader) :=
  let g := s.regs
  if g.inLen.toNat ≠ 2 * g.w * g.h then .error ⟨⟨.invalidDecodedSize, g.inLen⟩, br⟩
  else .ok (repeatTimes (g.w * g.h) (fun k m => m.write k (unpackWord s k)) s.mem.mos, br)

/-- `Unpack` (R184). -/
def unpack (s : State) (br : BitReader) : Except Raised (Memory 16 × BitReader) :=
  let g := s.regs
  if g.unpackBits ≠ 12 ∧ g.unpackBits ≠ 14 ∧ g.unpackBits ≠ 16 then
    .error ⟨⟨.illegalCfg, infoNat g.unpackBits⟩, br⟩
  else if g.unpackWordAligned then unpackWords s br
  else unpackPacked s br

/-! ### Compression 32767: Sony -/

/-- `Store(y, x, v)` (R194), the tone curve and the store. -/
def sonyStore (s : State) (br : BitReader) (y x v : Nat) (m : Memory 16) : Except Raised (Memory 16) :=
  let idx := 2 * v
  if s.regs.curveEntries ≤ idx then .error ⟨⟨.bounds, infoNat idx⟩, br⟩
  else .ok (m.write (y * s.regs.w + x) (s.mem.curve.read idx))

/-- One sample of a half-group whose header is read (R193): `st` is the mosaic and the position `q` of the next delta. -/
def sonySample (s : State) (br : BitReader) (r g h max min imax imin scale : Nat) (i : Nat) (st : Memory 16 × Nat) :
    Except Raised (Memory 16 × Nat) :=
  let isMax := i == imax
  let isMin := i == imin
  let delta := streamValue s.mem.inp br st.2 7
  let v := if isMax then max else if isMin then min else Nat.min (min + delta <<< scale) 0x7FF
  let q := if isMax || isMin then st.2 else st.2 + 7
  match sonyStore s br r (32 * g + 2 * i + h) v st.1 with
  | .error e => .error e
  | .ok m => .ok (m, q)

/-- `HalfGroup(r, g, h)` (R191 to R193), `groups` being `G`. -/
def sonyHalfGroup (s : State) (br : BitReader) (groups r g h : Nat) (m : Memory 16) : Except Raised (Memory 16) :=
  let inp := s.mem.inp
  let k := (r * groups + g) * 2 + h
  let p := 128 * k
  let max := streamValue inp br p 11
  let min := streamValue inp br (p + 11) 11
  let imax := streamValue inp br (p + 22) 4
  let imin := streamValue inp br (p + 26) 4
  if imax = imin then .error ⟨⟨.decodeFormat, infoNat k⟩, br⟩
  else if max < min then .error ⟨⟨.decodeFormat, infoNat k⟩, br⟩
  else
    let scale := bitlen ((max - min) >>> 7)
    (loop 16 (sonySample s br r g h max min imax imin scale) (m, p + 30)).map Prod.fst

/-- `Sony(W, H)` (R190): the cursor is bound but never advanced. -/
def sony (s : State) (br : BitReader) : Except Raised (Memory 16 × BitReader) :=
  let g := s.regs
  if g.w % 32 ≠ 0 then .error ⟨⟨.geometry, 1⟩, br⟩
  else if g.inLen.toNat ≠ g.w * g.h then .error ⟨⟨.invalidDecodedSize, g.inLen⟩, br⟩
  else if Config.curveSize < g.curveEntries then .error ⟨⟨.illegalCfg, infoNat g.curveEntries⟩, br⟩
  else
    let br' := bindCursor .lsb g
    let groups := g.w / 32
    (loop g.h (fun r => loop groups (fun gr => loop 2 (fun h => sonyHalfGroup s br' groups r gr h))) s.mem.mos).map
      (fun m => (m, br'))

/-! ### Compression 0x8799: Nikon -/

/-- The working state of one Nikon run (R200), with the mosaic and the cursor it moves. -/
structure NikonRun where
  mos : Memory 16
  br : BitReader
  /-- `vpred[a][b]`, row parity first. -/
  vpred00 : Int
  vpred01 : Int
  vpred10 : Int
  vpred11 : Int
  /-- `hpred[b]`; written before it is read (R204). -/
  hpred0 : Int
  hpred1 : Int
  /-- The slot in use. -/
  cur : Slot
  /-- The dither state. -/
  rng : Word
deriving DecidableEq, Repr

/-- `NIKON_DITHER.seed` (R205). -/
def ditherSeed : Config.Dither → Word
  | .off => 0
  | .other which => Config.ditherSeed which

/-- `NIKON_DITHER.step(CURVE, CURVE_LEN, p, rng)` (R205): the curve is seen through its first `len` entries only. -/
def ditherStep (d : Config.Dither) (curve : Memory 16) (len p : Nat) (rng : Word) : Sample × Word :=
  match d with
  | .off => (curve.read p, rng)
  | .other which => Config.ditherStep which ((List.range len).map curve.read) len p rng

/-- `vpred[row & 1][col]` for the first two columns (R204). -/
def NikonRun.vertical (st : NikonRun) (row col : Nat) : Int :=
  match row % 2, col with
  | 0, 0 => st.vpred00
  | 0, _ => st.vpred01
  | _, 0 => st.vpred10
  | _, _ => st.vpred11

/-- `vpred[row & 1][col] <- t` (R204). -/
def NikonRun.setVertical (st : NikonRun) (row col : Nat) (t : Int) : NikonRun :=
  match row % 2, col with
  | 0, 0 => { st with vpred00 := t }
  | 0, _ => { st with vpred01 := t }
  | _, 0 => { st with vpred10 := t }
  | _, _ => { st with vpred11 := t }

/-- `hpred[col & 1]` (R204). -/
def NikonRun.horizontal (st : NikonRun) (col : Nat) : Int := if col % 2 = 0 then st.hpred0 else st.hpred1

/-- `hpred[col & 1] <- t` (R204). -/
def NikonRun.setHorizontal (st : NikonRun) (col : Nat) (t : Int) : NikonRun :=
  if col % 2 = 0 then { st with hpred0 := t } else { st with hpred1 := t }

/-- `Predict(row, col, d)` (R204); the predicted sample is then `hpred[col & 1]`. -/
def nikonPredict (row col : Nat) (d : Int) (st : NikonRun) : Except Raised NikonRun :=
  if col < 2 then
    let t := st.vertical row col + d
    if fitsI32 t then .ok ((st.setVertical row col t).setHorizontal col t) else .error ⟨⟨.arithOverflow, 0⟩, st.br⟩
  else
    let t := st.horizontal col + d
    if fitsI32 t then .ok (st.setHorizontal col t) else .error ⟨⟨.arithOverflow, 0⟩, st.br⟩

/-- `MOS[k] <- Linearize(p)` (R202, R205). -/
def nikonLinearize (s : State) (k : Nat) (p : Int) (st : NikonRun) : Except Raised NikonRun :=
  if p < 0 ∨ (s.regs.curveEntries : Int) ≤ p then .error ⟨⟨.bounds, infoInt p⟩, st.br⟩
  else
    let out := ditherStep s.params.dither s.mem.curve s.regs.curveEntries p.toNat st.rng
    .ok { st with mos := st.mos.write k out.1, rng := out.2 }

/-- One sample of the loop of R202. -/
def nikonSample (s : State) (row col : Nat) (st : NikonRun) : Except Raised NikonRun :=
  match huffDec s.mem.inp st.cur.val s.hu[st.cur] st.br with
  | .error e => .error e
  | .ok (d, br') =>
    match nikonPredict row col d { st with br := br' } with
    | .error e => .error e
    | .ok st' => nikonLinearize s (row * s.regs.w + col) (st'.horizontal col) st'

/-- One row of the loop of R202, with the switch of R203 at its start. -/
def nikonRow (s : State) (row : Nat) (st : NikonRun) : Except Raised NikonRun :=
  loop s.regs.w (nikonSample s row)
    (if s.regs.nikonSplitEnabled && row == s.regs.nikonSplit.toNat then { st with cur := s.regs.nikonSlotB } else st)

/-- The initial working state (R200); the horizontal predictors need no value, and have one only because a field must. -/
def nikonStart (s : State) : NikonRun :=
  { mos := s.mem.mos, br := bindCursor .msb s.regs
    vpred00 := s.regs.vpred00.toInt, vpred01 := s.regs.vpred01.toInt
    vpred10 := s.regs.vpred10.toInt, vpred11 := s.regs.vpred11.toInt
    hpred0 := 0, hpred1 := 0, cur := s.regs.nikonSlotA, rng := ditherSeed s.params.dither }

/-- `Nikon(W, H)` (R202). -/
def nikon (s : State) (br : BitReader) : Except Raised (Memory 16 × BitReader) :=
  let g := s.regs
  if !s.hu[g.nikonSlotA].built then .error ⟨⟨.huffNotBuilt, infoNat g.nikonSlotA.val⟩, br⟩
  else if g.nikonSplitEnabled && !s.hu[g.nikonSlotB].built then .error ⟨⟨.huffNotBuilt, infoNat g.nikonSlotB.val⟩, br⟩
  else if Config.curveSize < g.curveEntries then .error ⟨⟨.illegalCfg, infoNat g.curveEntries⟩, br⟩
  else (loop g.h (nikonRow s) (nikonStart s)).map (fun st => (st.mos, st.br))

/-! ### The command -/

/-- The compression codes (R104, R181). -/
abbrev codeUncompressed : Nat := 1
@[inherit_doc codeUncompressed]
abbrev codeSony : Nat := 32767
@[inherit_doc codeUncompressed]
abbrev codeNikon : Nat := 0x8799

/-- "case code of" of R180: the codec by the compression code; a code outside the three answers nothing. -/
def codecOf (code : Nat) : Option (State → BitReader → Except Raised (Memory 16 × BitReader)) :=
  if code = codeUncompressed then some unpack
  else if code = codeSony then some sony
  else if code = codeNikon then some nikon
  else none

/-- The pseudocode of `DC.RUN` (R180). -/
def dcRunBody (s : State) : Except Raised State :=
  match codecOf s.regs.compression.toNat with
  | none => raiseAt s .unknownCompression s.regs.compression
  | some codec =>
    if !s.mosaicFits then raiseAt s .geometry 0
    else if !s.regionInside then raiseAt s .bounds s.regs.inOff
    else
      match codec s s.br.unbind with
      | .error e => .error e
      | .ok (m, br') => .ok ((s.setMos m).setBr br'.unbind)

/-- `DC.RUN` (R180). On any fault `MOS` is unspecified. -/
def execDcRun (s : State) : Outcome := whenAccepting s fun s => settle [.mos] s (dcRunBody s)

end Sys2Proof.Machine
end

