-- ==== Sys2Proof/Machine/Preprocess.lean ====
section
/-! DEFINITION. The normalisation stage (spec/43_preprocess.md): `Normalize` (R231) and the meaning of `PP.NORM` (R230). -/

namespace Sys2Proof.Machine

/-- `Normalize(s, black, scale, mul)` (R231): subtract, saturating at 0, scale exactly, saturate at 65535. -/
def normalize (mul : NormMode) (black scale sample : Nat) : Nat :=
  let t := sample - black
  match mul with
  | .shift => Nat.min (t * 2 ^ scale) 65535
  | .multiply => Nat.min (t * scale) 65535

/-- `SCALE > 31` is illegal in shift mode (R230). -/
def scaleLegal (mul : NormMode) (scale : Nat) : Bool :=
  match mul with
  | .shift => decide (scale ≤ 31)
  | .multiply => true

/-- `MOS[k] <- Normalize(MOS[k], ...)` (R230). -/
def normSample (mul : NormMode) (g : Regs) (k : Nat) (m : Memory 16) : Memory 16 :=
  m.write k (BitVec.ofNat 16 (normalize mul g.blackLevel g.scaleFactor (m.readNat k)))

/-- The pseudocode of `PP.NORM` (R230). -/
def ppNormBody (mul : NormMode) (s : State) : Except Raised State :=
  if !s.mosaicFits then raiseAt s .geometry 0
  else if !scaleLegal mul s.regs.scaleFactor then raiseAt s .illegalCfg (infoNat s.regs.scaleFactor)
  else .ok (s.setMos (repeatTimes (s.regs.w * s.regs.h) (normSample mul s.regs) s.mem.mos))

/-- `PP.NORM mul` (R230). -/
def execPpNorm (mul : NormMode) (s : State) : Outcome := whenAccepting s fun s => settle [.mos] s (ppNormBody mul s)

end Sys2Proof.Machine
end

