-- ==== Sys2Proof/Machine/Demosaic.lean ====
section
/-! DEFINITION. The CFA demosaicker (spec/44_demosaic.md): the Bayer patterns in modes None, SuperPixel and Linear (R243 to
R249), the X-Trans patterns driven by the host's tables (R260 to R264), and the meaning of `DM.RUN` (R240). -/

namespace Sys2Proof.Machine

/-- A colour of the filter, and a channel of the image: 0 red, 1 green, 2 blue (R12). -/
inductive Colour where
  | red | green | blue
deriving DecidableEq, Repr

/-- An image pixel. -/
structure Pixel where
  r : Nat
  g : Nat
  b : Nat
deriving DecidableEq, Repr

/-- What a Pixel function sees: the mosaic and its geometry. -/
structure Mosaic where
  mos : Memory 16
  w : Nat
  h : Nat
deriving DecidableEq, Repr

/-- `m(y, x) = MOS[y*W + x]` (R12). -/
def Mosaic.at (m : Mosaic) (p : Nat × Nat) : Nat := m.mos.readNat (p.1 * m.w + p.2)

/-- A neighbour code `d` in 0..8 names `(y + (d div 3) - 1, x + (d mod 3) - 1)` (R102); no position when that lies outside
the image. -/
def Mosaic.neighbour (m : Mosaic) (y x d : Nat) : Option (Nat × Nat) :=
  if 1 ≤ y + d / 3 ∧ y + d / 3 - 1 < m.h ∧ 1 ≤ x + d % 3 ∧ x + d % 3 - 1 < m.w then
    some (y + d / 3 - 1, x + d % 3 - 1)
  else none

/-! ### Bayer patterns -/

/-- The 2x2 tile of a pattern, row-major (R243). -/
def bayerTile : Nat → List Colour
  | 0 => [.red, .green, .green, .blue]
  | 1 => [.green, .red, .blue, .green]
  | 2 => [.green, .blue, .red, .green]
  | _ => [.blue, .green, .green, .red]

/-- `color(y, x)` (R243). -/
def bayerColour (cfa y x : Nat) : Colour := (bayerTile cfa).getD (y % 2 * 2 + x % 2) .green

/-- A pixel with one channel set and the others 0 (R244, R261). -/
def pixelOf (c : Colour) (v : Nat) : Pixel :=
  match c with
  | .red => ⟨v, 0, 0⟩
  | .green => ⟨0, v, 0⟩
  | .blue => ⟨0, 0, v⟩

/-- `Pixel(None, cfa, y, x)` (R244). -/
def bayerNone (m : Mosaic) (cfa y x : Nat) : Pixel := pixelOf (bayerColour cfa y x) (m.at (y, x))

/-- The samples of colour `c` in the 2x2 block `(y, x)`, in row-major order (R245). -/
def blockSamples (m : Mosaic) (cfa y x : Nat) (c : Colour) : List Nat :=
  ([(2 * y, 2 * x), (2 * y, 2 * x + 1), (2 * y + 1, 2 * x), (2 * y + 1, 2 * x + 1)].filter
    (fun p => bayerColour cfa p.1 p.2 == c)).map m.at

/-- `Pixel(SuperPixel, cfa, y, x)` (R245): the block's red, the mean of its two greens, its blue. -/
def bayerSuperPixel (m : Mosaic) (cfa y x : Nat) : Pixel :=
  { r := (blockSamples m cfa y x .red).headD 0
    g := (blockSamples m cfa y x .green).sum / 2
    b := (blockSamples m cfa y x .blue).headD 0 }

/-- `Plus`, `Diag`, `Horiz`, `Vert` of R246 as neighbour codes. -/
abbrev plusCodes : List Nat := [1, 3, 5, 7]
@[inherit_doc plusCodes]
abbrev diagCodes : List Nat := [0, 2, 6, 8]
@[inherit_doc plusCodes]
abbrev horizCodes : List Nat := [3, 5]
@[inherit_doc plusCodes]
abbrev vertCodes : List Nat := [1, 7]

/-- `In(S)` (R246, R249): the members of the set that lie inside the image. -/
def Mosaic.inside (m : Mosaic) (y x : Nat) (codes : List Nat) : List (Nat × Nat) := codes.filterMap (m.neighbour y x)

/-- `Avg(S) = (sum of MOS over In(S)) div |In(S)|` (R246). -/
def Mosaic.avg (m : Mosaic) (y x : Nat) (codes : List Nat) : Nat :=
  ((m.inside y x codes).map m.at).sum / (m.inside y x codes).length

/-- `Pixel(Linear, cfa, y, x)` (R247, R248). -/
def bayerLinear (m : Mosaic) (cfa y x : Nat) : Pixel :=
  match bayerColour cfa y x with
  | .red => ⟨m.at (y, x), m.avg y x plusCodes, m.avg y x diagCodes⟩
  | .blue => ⟨m.avg y x diagCodes, m.avg y x plusCodes, m.at (y, x)⟩
  | .green =>
    if bayerColour cfa y (x ^^^ 1) = .red then ⟨m.avg y x horizCodes, m.at (y, x), m.avg y x vertCodes⟩
    else ⟨m.avg y x vertCodes, m.at (y, x), m.avg y x horizCodes⟩

/-! ### X-Trans patterns -/

/-- The index in `XTC` of the filter colour at a position, variant `v` (R65, R261). -/
def xtransColourIndex (v y x : Nat) : Nat := (v * 6 + y % 6) * 6 + x % 6

/-- `Pixel(None, cfa >= 4, y, x)` (R261). -/
def xtransNone (m : Mosaic) (xtc : Memory 8) (cfa y x : Nat) : Except Cause Pixel :=
  match xtc.readNat (xtransColourIndex (cfa - 4) y x) with
  | 0 => .ok (pixelOf .red (m.at (y, x)))
  | 1 => .ok (pixelOf .green (m.at (y, x)))
  | 2 => .ok (pixelOf .blue (m.at (y, x)))
  | c => .error ⟨.illegalCfg, infoNat c⟩

/-- The border class `b` (R262). -/
def borderClass (m : Mosaic) (y x : Nat) : Nat :=
  3 * (if y = 0 then 1 else if y = m.h - 1 then 2 else 0) + (if x = 0 then 1 else if x = m.w - 1 then 2 else 0)

/-- The first word of the `XTR` entry of a position, variant `v` (R65, R263). -/
def xtransEntry (m : Mosaic) (v y x : Nat) : Nat := 4 * (((v * 6 + y % 6) * 6 + x % 6) * 9 + borderClass m y x)

/-- One neighbour of a channel rule: the `j`-th of word `w` (R101, R263), added to the sum. -/
def xtransNeighbour (m : Mosaic) (e y x : Nat) (w : Word) (j sum : Nat) : Except Cause Nat :=
  let d := bits w (6 + 4 * j) (3 + 4 * j)
  if 8 < d then .error ⟨.illegalCfg, w⟩
  else
    match m.neighbour y x d with
    | none => .error ⟨.bounds, infoNat e⟩
    | some p => .ok (sum + m.at p)

/-- One channel rule (R263), word `w` of entry `e`. -/
def xtransChannel (m : Mosaic) (e y x : Nat) (w : Word) : Except Cause Nat :=
  let k := bits w 2 0
  if 4 < k then .error ⟨.illegalCfg, w⟩
  else
    match loop k (xtransNeighbour m e y x w) 0 with
    | .error c => .error c
    | .ok sum => .ok (if k = 0 then 0 else sum / k)

/-- `Pixel(Linear, cfa >= 4, y, x)` (R263); a classification with no entry gives (0, 0, 0) (R264). -/
def xtransLinear (m : Mosaic) (xtr : Memory 32) (cfa y x : Nat) : Except Cause Pixel :=
  let e := xtransEntry m (cfa - 4) y x
  if bits (xtr.read e) 0 0 = 0 then .ok ⟨0, 0, 0⟩
  else
    match xtransChannel m e y x (xtr.read (e + 1)) with
    | .error c => .error c
    | .ok r =>
      match xtransChannel m e y x (xtr.read (e + 2)) with
      | .error c => .error c
      | .ok g =>
        match xtransChannel m e y x (xtr.read (e + 3)) with
        | .error c => .error c
        | .ok b => .ok ⟨r, g, b⟩

/-! ### The command -/

/-- Stores pixel `k` of the image: `RGB[3k]`, `RGB[3k+1]`, `RGB[3k+2]` (R12, R62). -/
def storePixel (k : Nat) (p : Pixel) (rgb : Memory 16) : Memory 16 :=
  ((rgb.write (3 * k) (BitVec.ofNat 16 p.r)).write (3 * k + 1) (BitVec.ofNat 16 p.g)).write (3 * k + 2)
    (BitVec.ofNat 16 p.b)

/-- `Pixel(dmode, cfa, y, x)` (R240). EnhancedLinear has no pixel function, and the command faults before it would be asked
for one (R258); so has SuperPixel on X-Trans (R265). -/
def demosaicPixel (s : State) (dmode : DemosaicMode) (y x : Nat) : Except Cause Pixel :=
  let m : Mosaic := { mos := s.mem.mos, w := s.regs.w, h := s.regs.h }
  let cfa := s.regs.cfaCode
  match dmode with
  | .none => if cfa < 4 then .ok (bayerNone m cfa y x) else xtransNone m s.mem.xtc cfa y x
  | .superPixel => if cfa < 4 then .ok (bayerSuperPixel m cfa y x) else .error ⟨.unsupported, 4⟩
  | .linear => if cfa < 4 then .ok (bayerLinear m cfa y x) else xtransLinear m s.mem.xtr cfa y x
  | .enhancedLinear => .error ⟨.unsupported, 3⟩

/-- `(OW, OH)` (R242). -/
def outputSize (dmode : DemosaicMode) (w h : Nat) : Nat × Nat :=
  match dmode with
  | .superPixel => (w / 2, h / 2)
  | .none => (w, h)
  | .linear => (w, h)
  | .enhancedLinear => (w, h)

/-- One pixel of the loop of R240. -/
def demosaicStep (s : State) (dmode : DemosaicMode) (ow y x : Nat) (rgb : Memory 16) : Except Cause (Memory 16) :=
  match demosaicPixel s dmode y x with
  | .error c => .error c
  | .ok p => .ok (storePixel (y * ow + x) p rgb)

/-- `W < 2 or H < 2 or W*H > MAX_PIXELS` does not hold (R240). -/
def State.demosaicFits (s : State) : Bool :=
  decide (2 ≤ s.regs.w ∧ 2 ≤ s.regs.h ∧ s.regs.w * s.regs.h ≤ s.params.maxPixels)

/-- The pseudocode of `DM.RUN` (R240). -/
def dmRunBody (dmode : DemosaicMode) (s : State) : Except Raised State :=
  let g := s.regs
  let size := outputSize dmode g.w g.h
  if dmode = .enhancedLinear then raiseAt s .unsupported 3
  else if 5 < g.cfaCode then raiseAt s .illegalCfg (infoNat g.cfaCode)
  else if !s.demosaicFits then raiseAt s .geometry 2
  else if 4 ≤ g.cfaCode ∧ dmode = .superPixel then raiseAt s .unsupported 4
  else
    match loop size.2 (fun y => loop size.1 (demosaicStep s dmode size.1 y)) s.mem.rgb with
    | .error c => .error ⟨c, s.br⟩
    | .ok rgb =>
      .ok { s.setRgb rgb with
        regs := { g with rgbWidth := BitVec.ofNat 32 size.1, rgbHeight := BitVec.ofNat 32 size.2 } }

/-- `DM.RUN dmode` (R240). -/
def execDmRun (dmode : DemosaicMode) (s : State) : Outcome := whenAccepting s fun s => settle [.rgb] s (dmRunBody dmode s)

end Sys2Proof.Machine
end

