-- ==== Sys2Proof/Machine/ColorPipeline.lean ====
section
/-! DEFINITION. The colour pipeline (spec/45_color_pipeline.md): the frame its three commands share (R297), white balance
(R291), colour matrix (R294), gamma (R296), and the meanings of `CP.WB`, `CP.CC` and `CP.GAMMA`. -/

namespace Sys2Proof.Machine

/-- `(RGB[3k], RGB[3k+1], RGB[3k+2])` (R297). -/
def loadPixel (rgb : Memory 16) (k : Nat) : Pixel :=
  { r := rgb.readNat (3 * k), g := rgb.readNat (3 * k + 1), b := rgb.readNat (3 * k + 2) }

/-- One pixel of the frame of R297; a stage that leaves `i32` faults with the pixel's index (R298). -/
def stagePixel (stage : Pixel → Option Pixel) (k : Nat) (rgb : Memory 16) : Except Cause (Memory 16) :=
  match stage (loadPixel rgb k) with
  | none => .error ⟨.arithOverflow, infoNat k⟩
  | some p => .ok (storePixel k p rgb)

/-- `N = 0 or N > MAX_PIXELS` does not hold (R297). -/
def State.imageFits (s : State) : Bool :=
  decide (s.regs.imagePixels ≠ 0 ∧ s.regs.imagePixels ≤ s.params.maxPixels)

/-- The frame of R297. -/
def pipelineBody (stage : Pixel → Option Pixel) (s : State) : Except Raised State :=
  if !s.imageFits then raiseAt s .geometry 3
  else
    match loop s.regs.imagePixels (stagePixel stage) s.mem.rgb with
    | .error c => .error ⟨c, s.br⟩
    | .ok rgb => .ok (s.setRgb rgb)

/-- One channel of `WhiteBalanceFix` (R291): nothing when the product does not fit `i32`. -/
def whiteBalanceChannel (gain shift v : Nat) : Option Nat :=
  if v * gain ≤ 2 ^ 31 - 1 then some (Nat.min ((v * gain) >>> shift) 65535) else none

/-- `WhiteBalanceFix(r, g, b)` (R291), the channels in the order R, G, B. -/
def whiteBalanceFix (g : Regs) (p : Pixel) : Option Pixel :=
  match whiteBalanceChannel (wbGain g.wbR) g.wbShiftAmount p.r with
  | none => none
  | some r =>
    match whiteBalanceChannel (wbGain g.wbG) g.wbShiftAmount p.g with
    | none => none
    | some gr =>
      match whiteBalanceChannel (wbGain g.wbB) g.wbShiftAmount p.b with
      | none => none
      | some b => some ⟨r, gr, b⟩

/-- `clamp(v, 0, 65535)` of a possibly negative value (R9). -/
def clampSample (v : Int) : Nat := Nat.min v.toNat 65535

/-- Row `i` of `ColorConvert` (R294): nothing when a product or a partial sum does not fit `i32`; the shift floors. -/
def colorConvertRow (g : Regs) (p : Pixel) (i : Nat) : Option Nat :=
  let p0 := g.matrixEntry i 0 * (p.r : Int)
  let p1 := g.matrixEntry i 1 * (p.g : Int)
  let p2 := g.matrixEntry i 2 * (p.b : Int)
  let s1 := p0 + p1
  let s2 := s1 + p2
  if fitsI32 p0 && fitsI32 p1 && fitsI32 p2 && fitsI32 s1 && fitsI32 s2 then some (clampSample (s2 >>> Config.bitShift))
  else none

/-- `ColorConvert(r, g, b)` (R294), the rows in the order 0, 1, 2. -/
def colorConvert (g : Regs) (p : Pixel) : Option Pixel :=
  match colorConvertRow g p 0 with
  | none => none
  | some r =>
    match colorConvertRow g p 1 with
    | none => none
    | some gr =>
      match colorConvertRow g p 2 with
      | none => none
      | some b => some ⟨r, gr, b⟩

/-- `(GLUT[r], GLUT[g], GLUT[b])` (R296); no lookup can fail. -/
def gammaCorrect (glut : Memory 16) (p : Pixel) : Option Pixel :=
  some ⟨glut.readNat p.r, glut.readNat p.g, glut.readNat p.b⟩

/-- `CP.WB` (R290). -/
def execCpWb (s : State) : Outcome := whenAccepting s fun s => settle [.rgb] s (pipelineBody (whiteBalanceFix s.regs) s)

/-- `CP.CC` (R293). -/
def execCpCc (s : State) : Outcome := whenAccepting s fun s => settle [.rgb] s (pipelineBody (colorConvert s.regs) s)

/-- `CP.GAMMA` (R296). -/
def execCpGamma (s : State) : Outcome := whenAccepting s fun s => settle [.rgb] s (pipelineBody (gammaCorrect s.mem.glut) s)

end Sys2Proof.Machine
end

