-- ==== Sys2Proof/Machine/System.lean ====
section
/-! DEFINITION. The system command (spec/46_system.md R320). -/

namespace Sys2Proof.Machine

/-- `SYS.RESET` (R320): the one command accepted in the fault state (R336). -/
def execSysReset (s : State) : Outcome := .next (systemReset s)

end Sys2Proof.Machine
end

