-- ==== Sys2Proof/Machine/Dispatch.lean ====
section
/-! DEFINITION. Which meaning each command has (spec/30_encoding.md R90, step 4). -/

namespace Sys2Proof.Machine

def exec (i : Instr) (s : State) : Host.Outcome State Fault Refusal :=
  match i with
  | .sysReset => Sys2Proof.Machine.execSysReset s
  | .brInit mode => Sys2Proof.Machine.execBrInit mode s
  | .brRead n => Sys2Proof.Machine.execBrRead n s
  | .brPeek n => Sys2Proof.Machine.execBrPeek n s
  | .brSkip n => Sys2Proof.Machine.execBrSkip n s
  | .huBuild slot => Sys2Proof.Machine.execHuBuild slot s
  | .huSym slot => Sys2Proof.Machine.execHuSym slot s
  | .huDec slot => Sys2Proof.Machine.execHuDec slot s
  | .dcRun => Sys2Proof.Machine.execDcRun s
  | .ppNorm mul => Sys2Proof.Machine.execPpNorm mul s
  | .dmRun dmode => Sys2Proof.Machine.execDmRun dmode s
  | .cpWb => Sys2Proof.Machine.execCpWb s
  | .cpCc => Sys2Proof.Machine.execCpCc s
  | .cpGamma => Sys2Proof.Machine.execCpGamma s

end Sys2Proof.Machine
end

