-- ==== Sys2Proof/Machine/HostPort.lean ====
section
/-! DEFINITION. The host port (spec/20_memory.md R66): reading and writing an element of a space with the side effects of a
write, and the running of a command word written to `CMD` (spec/10_state.md R25, spec/30_encoding.md R90). -/

namespace Sys2Proof.Machine

/-- The space of a space id (R60); ids above 8 name none. -/
def Space.ofId : Nat → Option Space
  | 0 => some .reg
  | 1 => some .inp
  | 2 => some .mos
  | 3 => some .rgb
  | 4 => some .hts
  | 5 => some .curve
  | 6 => some .glut
  | 7 => some .xtr
  | 8 => some .xtc
  | _ => none

/-- Element `i` of a memory space, zero-extended to a word (R66, R70). -/
def Memories.hostRead (m : Memories) (i : Nat) : Space → Word
  | .reg => 0
  | .inp => (m.inp.read i).zeroExtend 32
  | .mos => (m.mos.read i).zeroExtend 32
  | .rgb => (m.rgb.read i).zeroExtend 32
  | .hts => (m.hts.read i).zeroExtend 32
  | .curve => (m.curve.read i).zeroExtend 32
  | .glut => (m.glut.read i).zeroExtend 32
  | .xtr => m.xtr.read i
  | .xtc => (m.xtc.read i).zeroExtend 32

/-- Element `i` of a memory space written; of a value wider than the element, its low bits (log 13). -/
def Memories.hostWrite (m : Memories) (i : Nat) (v : Word) : Space → Memories
  | .reg => m
  | .inp => { m with inp := m.inp.write i (v.truncate 8) }
  | .mos => { m with mos := m.mos.write i (v.truncate 16) }
  | .rgb => { m with rgb := m.rgb.write i (v.truncate 16) }
  | .hts => { m with hts := m.hts.write i (v.truncate 8) }
  | .curve => { m with curve := m.curve.write i (v.truncate 16) }
  | .glut => { m with glut := m.glut.write i (v.truncate 16) }
  | .xtr => { m with xtr := m.xtr.write i v }
  | .xtc => { m with xtc := m.xtc.write i (v.truncate 8) }

/-- `HostRead(S, i)` (R66): no side effect; 0 beyond a space, of an unknown space, and of a reserved register number. -/
def hostReadValue (s : State) (space i : Nat) : Word :=
  match Space.ofId space with
  | none => 0
  | some sp =>
    if spaceSize s.params sp ≤ i then 0
    else
      match sp with
      | .reg => ((Reg.ofNumber i).map s.hostReadReg).getD 0
      | other => s.mem.hostRead i other

/-- The side effect of a host write to a memory (R66): an element of `IN` unbinds the cursor, an element `j` of `HTS` clears
`built` of slot `j div 528`. -/
def hostWriteEffect (sp : Space) (i : Nat) (s : State) : State :=
  match sp with
  | .inp => s.setBr s.br.unbind
  | .hts => s.unbuildSlot (Fin.ofNat Config.nSlot (i / Config.htsStride))
  | _ => s

/-- `HostWrite(S, i, v)` other than to `CMD` (R66). A write beyond a space, to an unknown space, to a reserved register
number or to a read-only register changes nothing. -/
def hostWriteElement (s : State) (space i : Nat) (v : Word) : State :=
  match Space.ofId space with
  | none => s
  | some sp =>
    if spaceSize s.params sp ≤ i then s
    else
      match sp with
      | .reg =>
        match Reg.ofNumber i with
        | some r => s.hostWriteReg r v
        | none => s
      | other => hostWriteEffect other i { s with mem := s.mem.hostWrite i v other }

/-- A word written to `CMD` (R25, R90): decode it and run it, or take `ILLEGAL_CMD`. Step (1) of R90, that the fault state
ignores all but `SYS.RESET`, stands in `whenAccepting`, which every meaning but that one goes through. -/
def runCommand (c : Word) (s : State) : Outcome :=
  match decode c with
  | .ok i => exec i s
  | .error _ => whenAccepting s (takeFault [] ⟨.illegalCmd, c⟩)

/-- One action of the host. A write to element 0 of space 0 is a write to `CMD`. -/
def runHostAction (a : HostAction) (s : State) : Outcome :=
  match a with
  | .write space i v => if space = 0 ∧ i = 0 then runCommand v s else .next (hostWriteElement s space i v)
  | .read space i => .next { s with readback := hostReadValue s space i :: s.readback }
  | .hardwareReset => .next (hardwareReset s)

/-- What the block does next (R20, R21): the oldest action of the host still to come, taken off the port; with none, the
block is idle and all state persists (R345). -/
def nextAction (s : State) : Outcome :=
  match s.port with
  | [] => .next s
  | a :: rest => runHostAction a { s with port := rest }

/-- The state in which the next action of the host is a write of word `c` to `CMD`. -/
def State.withCommand (c : Word) (s : State) : State := { s with port := .write 0 0 c :: s.port }

end Sys2Proof.Machine
end

