-- ==== Sys2Proof/Machine/Step.lean ====
section
/-! DEFINITION. One step of the machine. The block fetches nothing (spec/10_state.md R21): a step takes the host's next action
off the port, and a command is a word the host writes to `CMD`. -/

namespace Sys2Proof.Machine

/-- One step: one action of the host, run to completion (R20). -/
def step (s : State) : Host.Outcome State Fault Refusal := nextAction s

/-- The state in which the command word `w`, its bits from `nbits` up zero, is the next thing the host writes to `CMD`. -/
def State.withFetchWord (s : State) (nbits w : Nat) : State := s.withCommand (BitVec.ofNat 32 (w % 2 ^ nbits))

end Sys2Proof.Machine
end

