-- ==== Sys2Proof/Safety.lean ====
section
/-! DEFINITION. What a well-formed state is (the invariant every step keeps), which spaces a command writes, and the few
notions the statements are said in. Nothing here is used by the machine. -/

namespace Sys2Proof.Machine

/-! ### The invariant -/

/-- The reserved bits of every register the host writes are 0 (R23). -/
def Regs.reservedClear (g : Regs) : Bool :=
  (g.cfa &&& ~~~ Reg.writable .cfa) == 0 && (g.unpackCfg &&& ~~~ Reg.writable .unpackCfg) == 0
    && (g.black &&& ~~~ Reg.writable .black) == 0 && (g.scale &&& ~~~ Reg.writable .scale) == 0
    && (g.curveLen &&& ~~~ Reg.writable .curveLen) == 0 && (g.nikonCfg &&& ~~~ Reg.writable .nikonCfg) == 0
    && (g.wbR &&& ~~~ Reg.writable .wbR) == 0 && (g.wbG &&& ~~~ Reg.writable .wbG) == 0
    && (g.wbB &&& ~~~ Reg.writable .wbB) == 0 && (g.wbShift &&& ~~~ Reg.writable .wbShift) == 0

/-- The latch and its two registers agree (R27, R331): no fault, no code and no information; a fault, one of the codes 1 to
15. -/
def State.latchWf (s : State) : Bool :=
  if s.fault then decide (1 ≤ s.regs.faultCode.toNat ∧ s.regs.faultCode.toNat ≤ 15)
  else s.regs.faultCode == 0 && s.regs.faultInfo == 0

/-- A bound cursor's region lies in `IN` (R30, R125), and an MSB or LSB cursor stands inside its region (R129). -/
def BitReader.wf (p : Config.Params) (br : BitReader) : Bool :=
  !br.bound
    || (decide (br.base.toNat + br.len.toNat ≤ p.inSize) && (br.mode == .jpeg || decide (br.pos.toNat ≤ streamBits br)))

/-- A code of a table whose longest code has `maxlen` bits. -/
def LutCode.wf (maxlen : Nat) (e : LutCode) : Bool := decide (1 ≤ e.len ∧ e.len ≤ maxlen ∧ e.code < 2 ^ e.len)

/-- `e` is no prefix of `f`, and `f` is none of `e`, where `e` is no longer than `f` (R152). -/
def LutCode.apart (e f : LutCode) : Bool := decide (e.len ≤ f.len ∧ f.code >>> (f.len - e.len) ≠ e.code)

/-- A built slot holds a prefix-free code of lengths 1 to `maxlen`, `maxlen` in 1 to 16 (R42, R152, R153). -/
def HuffSlot.wf (h : HuffSlot) : Bool :=
  !h.built
    || (decide (1 ≤ h.maxlen ∧ h.maxlen ≤ 16) && !h.lut.isEmpty && h.lut.all (LutCode.wf h.maxlen)
      && decide (h.lut.Pairwise (fun e f => e.apart f = true)))

/-- Every memory's unspecified elements come from a draw already made (log 3). -/
def Memories.drawnBefore (m : Memories) (draws : Nat) : Bool :=
  decide (m.inp.epoch < draws ∧ m.mos.epoch < draws ∧ m.rgb.epoch < draws ∧ m.hts.epoch < draws ∧ m.curve.epoch < draws
    ∧ m.glut.epoch < draws ∧ m.xtr.epoch < draws ∧ m.xtc.epoch < draws)

/-- The invariant of the machine. -/
structure State.Inv (s : State) : Prop where
  /-- The model arguments meet their constraints. -/
  params : s.params.wf = true
  /-- Every memory is in canonical form and inside its space (R60). -/
  memory : s.mem.wf s.params = true
  /-- Reserved register bits read 0 (R23). -/
  reserved : s.regs.reservedClear = true
  /-- The fault registers agree with the latch (R27). -/
  latch : s.latchWf = true
  /-- The cursor stands in a region of `IN` (R41). -/
  cursor : s.br.wf s.params = true
  /-- Every built slot holds a table (R42). -/
  slots : ∀ slot : Slot, s.hu[slot].wf = true
  /-- Free values are drawn before they are used (log 3). -/
  drawn : s.mem.drawnBefore s.draws = true

/-! ### What commands write -/

end Sys2Proof.Machine

namespace Sys2Proof

/-- The memory spaces a command writes (R77). -/
def Instr.writes : Instr → List Machine.Space
  | .sysReset => []
  | .brInit _ => []
  | .brRead _ => []
  | .brPeek _ => []
  | .brSkip _ => []
  | .huBuild _ => []
  | .huSym _ => []
  | .huDec _ => []
  | .dcRun => [.mos]
  | .ppNorm _ => [.mos]
  | .dmRun _ => [.rgb]
  | .cpWb => [.rgb]
  | .cpCc => [.rgb]
  | .cpGamma => [.rgb]

end Sys2Proof

namespace Sys2Proof.Machine

/-! ### Notions of the statements -/

/-- Command `i` run in state `s` faults with this code and information, the cursor then standing at `br`. What else a fault
does is said of `takeFault` once. -/
def FaultsWith (i : Instr) (s : State) (code : FaultCode) (info : Word) (br : BitReader) : Prop :=
  ∃ t, exec i s = .next t ∧ t.fault = true ∧ t.regs.faultCode = code.number ∧ t.regs.faultInfo = info ∧ t.br = br

/-- May `n` bits at position `p` be read (R129)? -/
def CanRead (br : BitReader) (p n : Nat) : Prop :=
  (br.mode = .jpeg ∧ p + n < 2 ^ 64) ∨ (br.mode ≠ .jpeg ∧ p + n ≤ 8 * br.len.toNat)

/-- The cursor moved on by `n` bits. -/
def BitReader.advance (n : Nat) (br : BitReader) : BitReader := { br with pos := br.pos + BitVec.ofNat 64 n }

/-- The state with its cursor moved on by `n` bits. -/
def State.advance (n : Nat) (s : State) : State := s.setBr (s.br.advance n)

/-- The operand byte `A` is legal for opcode `OP` (R92, R93). -/
def legalOperand (op a : Nat) : Prop :=
  (op = 0x01 ∧ a = 0) ∨ (op = 0x10 ∧ a < 3) ∨ ((op = 0x11 ∨ op = 0x12 ∨ op = 0x13) ∧ 1 ≤ a ∧ a ≤ 32)
    ∨ ((op = 0x20 ∨ op = 0x21 ∨ op = 0x22) ∧ a < 4) ∨ (op = 0x30 ∧ a = 0) ∨ (op = 0x38 ∧ a < 2) ∨ (op = 0x40 ∧ a < 4)
    ∨ ((op = 0x50 ∨ op = 0x51 ∨ op = 0x52) ∧ a = 0)

/-- The state whose effects stand when command `i` faults: a faulting `HU.BUILD` leaves its slot not built (R334). -/
def faultBase : Instr → State → State
  | .huBuild slot, s => s.unbuildSlot slot
  | _, s => s

/-- Bits in an element of a space (R60). -/
def elementBits : Space → Nat
  | .reg => 32
  | .inp => 8
  | .mos => 16
  | .rgb => 16
  | .hts => 8
  | .curve => 16
  | .glut => 16
  | .xtr => 32
  | .xtc => 8

/-- The bytes of the region the registers `IN_OFF` and `IN_LEN` name (R15, R61). -/
def State.regionBytes (s : State) (k : Nat) : Byte := s.mem.inp.read (s.regs.inOff.toNat + k)

/-- The first `m` bytes read as one big-endian integer (R131). -/
def bigEndian (b : Nat → Byte) : Nat → Nat
  | 0 => 0
  | m + 1 => 256 * bigEndian b m + (b m).toNat

/-- The first `m` bytes read as one little-endian integer (R131). -/
def littleEndian (b : Nat → Byte) : Nat → Nat
  | 0 => 0
  | m + 1 => littleEndian b m + (b m).toNat * 256 ^ m

/-- A list of bytes read as one big-endian integer. -/
def bigEndianList (l : List Byte) : Nat := bigEndian (fun k => l.getD k 0) l.length

/-- Byte stuffing (R98): every data byte `FF` is followed by `00`. -/
def stuff : List Byte → List Byte
  | [] => []
  | d :: rest => if d = 0xFF#8 then 0xFF#8 :: 0x00#8 :: stuff rest else d :: stuff rest

/-- The first code of length `l` in the canonical assignment (R152): 0 for the shortest length, and twice the first
unused candidate of the length before. -/
def firstCode (count : Nat → Nat) : Nat → Nat
  | 0 => 0
  | l + 1 => 2 * (firstCode count l + if l = 0 then 0 else count (l - 1))

/-- Length `l` is not over-subscribed: its codes fit `l` bits (R152). -/
def lengthFits (count : Nat → Nat) (l : Nat) : Bool := decide (firstCode count l + count (l - 1) ≤ 2 ^ l)

/-- The scale of a Sony half-group whose `max - min` is `d` (R192). -/
def sonyScale (d : Nat) : Nat := if d ≤ 127 then 0 else if d ≤ 255 then 1 else if d ≤ 511 then 2 else if d ≤ 1023 then 3 else 4

/-- Sony half-group `k` has a good header (R192): its two indices differ and its maximum is not below its minimum. `val` is the
value function of the region's LSB-first stream. -/
def sonyGood (val : Nat → Nat → Nat) (k : Nat) : Prop :=
  val (128 * k + 22) 4 ≠ val (128 * k + 26) 4 ∧ val (128 * k + 11) 11 ≤ val (128 * k) 11

/-- The value of sample `i` of Sony half-group `k` (R193): the literal maximum or minimum at their indices, else the minimum
plus the scaled delta, at most `0x7FF`. The deltas stand in order, none for the maximum and the minimum. -/
def sonyValue (val : Nat → Nat → Nat) (k i : Nat) : Nat :=
  let p := 128 * k
  let max := val p 11
  let min := val (p + 11) 11
  let imax := val (p + 22) 4
  let imin := val (p + 26) 4
  let j := i - (if imax < i then 1 else 0) - (if imin < i then 1 else 0)
  if i = imax then max else if i = imin then min
  else Nat.min (min + val (p + 30 + 7 * j) 7 * 2 ^ sonyScale (max - min)) 0x7FF

/-- A row of the register map (R24). -/
structure RegisterRow where
  /-- The register number. -/
  number : Nat
  reg : Reg
  /-- The bits a host write keeps: the defined bits of an `RW` register, none of an `RO` or `WO` one. -/
  defined : Word
  /-- What a host read returns. -/
  value : Word
deriving DecidableEq, Repr

/-- The register map of R24, with the defined bits of R30 to R40. `STATUS` is the view of R26, the two halves of the cursor
that of R29; `CMD` reads 0 (R25). -/
def registerMap (s : State) : List RegisterRow :=
  let g := s.regs
  [⟨0x00, .cmd, 0, 0⟩, ⟨0x01, .status, 0, s.status⟩, ⟨0x02, .faultCode, 0, g.faultCode⟩, ⟨0x03, .faultInfo, 0, g.faultInfo⟩,
    ⟨0x04, .res, 0, g.res⟩, ⟨0x05, .brPosLo, 0, s.br.pos.extractLsb' 0 32⟩,
    ⟨0x06, .brPosHi, 0, s.br.pos.extractLsb' 32 32⟩] ++
  [⟨0x08, .inOff, 0xFFFFFFFF, g.inOff⟩, ⟨0x09, .inLen, 0xFFFFFFFF, g.inLen⟩, ⟨0x0A, .width, 0xFFFFFFFF, g.width⟩,
    ⟨0x0B, .height, 0xFFFFFFFF, g.height⟩, ⟨0x0C, .cfa, 0x00000007, g.cfa⟩, ⟨0x0D, .compression, 0xFFFFFFFF, g.compression⟩,
    ⟨0x0E, .unpackCfg, 0x0000031F, g.unpackCfg⟩, ⟨0x0F, .black, 0x0000FFFF, g.black⟩, ⟨0x10, .scale, 0x0000FFFF, g.scale⟩,
    ⟨0x11, .curveLen, 0x0001FFFF, g.curveLen⟩, ⟨0x12, .nikonCfg, 0x0000001F, g.nikonCfg⟩,
    ⟨0x13, .nikonSplit, 0xFFFFFFFF, g.nikonSplit⟩, ⟨0x14, .vpred00, 0xFFFFFFFF, g.vpred00⟩,
    ⟨0x15, .vpred01, 0xFFFFFFFF, g.vpred01⟩, ⟨0x16, .vpred10, 0xFFFFFFFF, g.vpred10⟩, ⟨0x17, .vpred11, 0xFFFFFFFF, g.vpred11⟩] ++
  [⟨0x18, .wbR, 0x7FFFFFFF, g.wbR⟩, ⟨0x19, .wbG, 0x7FFFFFFF, g.wbG⟩, ⟨0x1A, .wbB, 0x7FFFFFFF, g.wbB⟩,
    ⟨0x1B, .wbShift, 0x0000001F, g.wbShift⟩, ⟨0x1C, .rgbWidth, 0xFFFFFFFF, g.rgbWidth⟩,
    ⟨0x1D, .rgbHeight, 0xFFFFFFFF, g.rgbHeight⟩] ++
  (List.finRange 9).map (fun i => ⟨0x20 + i.val, .cm i, 0xFFFFFFFF, g.cm[i]⟩)

/-- Channel numbers (R12). -/
def Colour.number : Colour → Nat
  | .red => 0
  | .green => 1
  | .blue => 2

/-- The mosaic of a state. -/
def State.mosaic (s : State) : Mosaic := { mos := s.mem.mos, w := s.regs.w, h := s.regs.h }

/-- The samples of colour `c` in the 3x3 neighbourhood of `(y, x)` that lie inside the image (D34). -/
def Mosaic.sameColour (m : Mosaic) (cfa y x : Nat) (c : Colour) : List Nat :=
  (((List.range 9).filterMap (m.neighbour y x)).filter (fun p => bayerColour cfa p.1 p.2 == c)).map m.at

/-- The truncating mean (R241). -/
def mean (l : List Nat) : Nat := l.sum / l.length

end Sys2Proof.Machine
end

