-- ==== Sys2Proof/Certificates/Slice0/Obligations.lean ====
section
/-! DEFINITION. The statements about QRB-1 for the provers, from the numbered rules of spec/. Each docstring names the rules
it formalises, and says so where it rests on a choice of the model. -/

open Sys2Proof Sys2Proof.Machine

/-! ### Encoding -/

/-- R91 to R93: no bit of an encoding is dropped. -/
def Obligations.DecodeInvertsEncode : Prop := ∀ i : Instr, i.wf = true → decode (encode i) = .ok i

/-- R90, R92: a word has one meaning, and it is well formed. -/
def Obligations.EncodeInvertsDecode : Prop :=
  ∀ (c : Word) (i : Instr), decode c = .ok i → i.wf = true ∧ encode i = c

/-- R90: "the rows are disjoint, so at most one matches". -/
def Obligations.AtMostOneRowSelectsAWord : Prop :=
  ∀ (c : Word) (r r' : Row), r.selects c = true → r'.selects c = true → r = r'

/-- R94: the legal words, exactly, by `OP` and `A`; every other word written to `CMD` faults `ILLEGAL_CMD` with the word as
its information; `DM.RUN` with `dmode = 3` is legal and its execution is refused with `UNSUPPORTED`, 3. -/
def Obligations.LegalWordsAreExactlyThoseListed : Prop :=
  (∀ c : Word, (∃ i, decode c = .ok i) ↔ c.toNat < 2 ^ 16 ∧ legalOperand (c.toNat % 256) (c.toNat / 256)) ∧
  (∀ (c : Word) (s : State) (rest : List HostAction), s.fault = false → s.port = .write 0 0 c :: rest →
    ¬ (c.toNat < 2 ^ 16 ∧ legalOperand (c.toNat % 256) (c.toNat / 256)) →
    ∃ t, step s = .next t ∧ t.fault = true ∧ t.regs.faultCode = 1 ∧ t.regs.faultInfo = c) ∧
  decode 0x00000340#32 = .ok (.dmRun .enhancedLinear) ∧
  (∀ s : State, s.fault = false → FaultsWith (.dmRun .enhancedLinear) s .unsupported 3 s.br)

/-- R92: words written out from the table's encodings decode to their commands. -/
def Obligations.SampleWordsDecode : Prop :=
  decode 0b00000000000000000000000000000001#32 = .ok .sysReset ∧
  decode 0b00000000000000000000001000010000#32 = .ok (.brInit .jpeg) ∧
  decode 0b00000000000000000010000000010001#32 = .ok (.brRead 32) ∧
  decode 0b00000000000000000000101100010010#32 = .ok (.brPeek 11) ∧
  decode 0b00000000000000000000011100010011#32 = .ok (.brSkip 7) ∧
  decode 0b00000000000000000000001100100000#32 = .ok (.huBuild 3) ∧
  decode 0b00000000000000000000001000100010#32 = .ok (.huDec 2) ∧
  decode 0b00000000000000000000000100111000#32 = .ok (.ppNorm .multiply) ∧
  decode 0b00000000000000000000000101000000#32 = .ok (.dmRun .superPixel) ∧
  decode 0b00000000000000000000000001010010#32 = .ok .cpGamma

/-! ### The step, the fault state, reset -/

/-- R25, R90: when the next thing the host does is to write a word to `CMD` that decodes to command `i`, a step is the
execution of `i`, the write taken off the port. The port is the model's own (log 9). -/
def Obligations.StepRunsTheDecodedCommand : Prop :=
  ∀ (s : State) (c : Word) (i : Instr) (rest : List HostAction),
    s.port = .write 0 0 c :: rest → decode c = .ok i → step s = exec i { s with port := rest }

/-- No command, no host action and no idle step stops the machine (R330, log 16); an idle step changes nothing (R345, log 9). -/
def Obligations.EveryStepAnswersANextState : Prop :=
  ∀ s : State, (∃ t, step s = .next t) ∧ (∀ i : Instr, ∃ t, exec i s = .next t) ∧ (s.port = [] → step s = .next s)

/-- R334: what taking a fault does, field by field. That spoiled elements and `RES` are free values is the model's reading
of "unspecified" (log 2, log 4), and nothing here rests on what they are. -/
def Obligations.TakingAFaultRecordsItAndSpoilsWhatIsWritten : Prop :=
  ∀ (i : Instr) (c : Cause) (s : State),
    let t := takeFault i.writes c s
    t.fault = true ∧
    t.regs = { s.regs with faultCode := c.code.number, faultInfo := c.info, res := t.regs.res } ∧
    t.br = s.br ∧ t.hu = s.hu ∧ t.params = s.params ∧ t.port = s.port ∧ t.readback = s.readback ∧
    (∀ sp, sp ∉ i.writes → ∀ k, t.mem.hostRead k sp = s.mem.hostRead k sp) ∧
    (.mos ∈ i.writes → ∃ d, s.draws ≤ d ∧ d < t.draws ∧ t.mem.mos = .blank 16 d) ∧
    (.rgb ∈ i.writes → ∃ d, s.draws ≤ d ∧ d < t.draws ∧ t.mem.rgb = .blank 16 d)

/-- R334: a command that ends in the fault state has taken a fault and has no other effect but on the cursor: it has taken
it from the state it began in, for `HU.BUILD` with its slot not built. Where the cursor then stands is said by the statements
about the single faults. -/
def Obligations.FaultingCommandsTakeTheFault : Prop :=
  ∀ (i : Instr) (s t : State), s.fault = false → exec i s = .next t → t.fault = true →
    ∃ (c : Cause) (br : BitReader), t = takeFault i.writes c ((faultBase i s).setBr br)

/-- R331: the fifteen codes and their numbers. -/
def Obligations.FaultCodesAreNumberedAsListed : Prop :=
  [FaultCode.illegalCmd, .illegalCfg, .bitsExhausted, .huffEmptyTable, .huffBadTable, .huffNotBuilt, .huffInvalidCode,
    .unknownCompression, .invalidDecodedSize, .bounds, .arithOverflow, .unsupported, .geometry, .decodeFormat,
    .readerUnbound].map FaultCode.number = (List.range 15).map (fun k => BitVec.ofNat 32 (k + 1))

/-- R336: in the fault state a write to `CMD` of any word but `0x00000001` does nothing, and that word executes `SYS.RESET`;
every other write of the host does what it does otherwise, and every read returns what is there. -/
def Obligations.FaultStateIgnoresCommands : Prop :=
  (∀ (s : State) (c : Word) (rest : List HostAction), s.fault = true → s.port = .write 0 0 c :: rest →
    (c ≠ 0x00000001#32 → step s = .next { s with port := rest }) ∧
    (c = 0x00000001#32 → step s = exec .sysReset { s with port := rest })) ∧
  (∀ (i : Instr) (s : State), s.fault = true → i ≠ .sysReset → exec i s = .next s) ∧
  (∀ (s t : State) (id i : Nat) (v : Word) (rest : List HostAction), id ≠ 0 ∨ i ≠ 0 → s.port = .write id i v :: rest →
    step s = .next t → ∀ f, step { s with fault := f } = .next { t with fault := f }) ∧
  (∀ (s : State) (id i : Nat) (rest : List HostAction), s.port = .read id i :: rest →
    step s = .next { s with port := rest, readback := hostReadValue s id i :: s.readback })

/-- R335: the fault, its code and its information are written by the first fault after a reset, and by nothing else until the
next reset, of either kind. -/
def Obligations.FaultsAreTerminalAndSticky : Prop :=
  ∀ s t : State, step s = .next t →
    (∀ rest, s.port ≠ .hardwareReset :: rest ∧ s.port ≠ .write 0 0 0x00000001#32 :: rest) →
    (s.fault = true →
      t.fault = true ∧ t.regs.faultCode = s.regs.faultCode ∧ t.regs.faultInfo = s.regs.faultInfo) ∧
    (s.fault = false → t.fault = false →
      t.regs.faultCode = s.regs.faultCode ∧ t.regs.faultInfo = s.regs.faultInfo)

/-- R320: `SYS.RESET` from any state, the fault state among them: every register 0, cursor unbound, no slot built, no fault,
memories kept. What the slots' hidden contents become is a free value (log 5) and is not stated. -/
def Obligations.SysResetClearsAllButTheMemories : Prop :=
  ∀ s : State, ∃ t, exec .sysReset s = .next t ∧
    (∀ r : Reg, t.hostReadReg r = 0) ∧ t.fault = false ∧
    t.br = { bound := false, mode := .msb, base := 0, len := 0, pos := 0 } ∧
    (∀ slot : Slot, t.hu[slot].built = false) ∧
    t.mem = s.mem ∧ t.params = s.params ∧ t.port = s.port ∧ t.readback = s.readback

/-- R360, R361: after a hardware reset every register reads 0, the cursor is unbound, no slot is built, there is no fault, and
no element of any memory is specified. The port, the parameters and the counters are the model's own. -/
def Obligations.HardwareResetLeavesOnlyZeroRegisters : Prop :=
  let reset (t : State) : Prop :=
    (∀ r : Reg, t.hostReadReg r = 0) ∧ t.fault = false ∧ t.br = BitReader.unbound ∧
    (∀ slot : Slot, t.hu[slot].built = false) ∧ ∃ d, t.mem = Memories.blank d
  reset State.reset ∧
  ∀ (s : State) (rest : List HostAction), s.port = .hardwareReset :: rest → ∃ t, step s = .next t ∧ reset t

/-! ### The registers and the host port -/

/-- R26: every bit of `STATUS` shows the unit state it is a view of; `BUSY` and the reserved bits read 0 (log 12). -/
def Obligations.StatusShowsTheUnitState : Prop :=
  ∀ s : State,
    s.status.getLsbD 0 = false ∧ s.status.getLsbD 1 = s.fault ∧ s.status.getLsbD 2 = s.br.bound ∧
    s.status.toNat / 8 % 4 = (match s.br.mode with | .msb => 0 | .lsb => 1 | .jpeg => 2) ∧
    (∀ k, 5 ≤ k → k < 8 → s.status.getLsbD k = false) ∧
    (∀ slot : Slot, s.status.getLsbD (8 + slot.val) = s.hu[slot].built) ∧
    (∀ k, 12 ≤ k → s.status.getLsbD k = false)

/-- R23, R24, R29 to R40: the register map, row by row: number, register, defined bits, value; no other number names a
register. A host read returns the value of the row, 0 where there is none. A host write keeps the defined bits of the value
and no others, leaves every other register but `STATUS` as it was, and does nothing at all to a read-only or reserved one. -/
def Obligations.RegisterWritesKeepTheDefinedBits : Prop :=
  (∀ (s : State) (row : RegisterRow), row ∈ registerMap s →
    Reg.ofNumber row.number = some row.reg ∧ Reg.writable row.reg = row.defined ∧ s.hostReadReg row.reg = row.value) ∧
  (∀ (s : State) (n : Nat), (∀ row ∈ registerMap s, row.number ≠ n) → Reg.ofNumber n = none) ∧
  (∀ (s : State) (n : Nat) (rest : List HostAction), s.port = .read 0 n :: rest →
    ∃ v, step s = .next { s with port := rest, readback := v :: s.readback } ∧
      (∀ row ∈ registerMap s, row.number = n → v = row.value) ∧ ((∀ row ∈ registerMap s, row.number ≠ n) → v = 0)) ∧
  (∀ (s : State) (n : Nat) (r : Reg) (v : Word) (rest : List HostAction),
    s.port = .write 0 n v :: rest → n ≠ 0 → Reg.ofNumber n = some r → Reg.writable r ≠ 0 →
    ∃ t, step s = .next t ∧ t.hostReadReg r = v &&& Reg.writable r ∧
      (∀ r', r' ≠ r → r' ≠ .status → t.hostReadReg r' = s.hostReadReg r') ∧
      t.mem = s.mem ∧ t.hu = s.hu ∧ t.fault = s.fault ∧
      t.br = (if r = .inOff ∨ r = .inLen then { s.br with bound := false } else s.br)) ∧
  (∀ (s : State) (n : Nat) (v : Word) (rest : List HostAction),
    s.port = .write 0 n v :: rest → n ≠ 0 → (∀ r, Reg.ofNumber n = some r → Reg.writable r = 0) →
    step s = .next { s with port := rest })

/-- R60, R66: the ids, sizes and element widths of the nine spaces, and what a host reads of an element. A host write to a
memory element stores it (of a wider value the low bits, log 13), leaves every other element of every space alone, and has the
side effects of R66 and no others; a host read then returns it and changes nothing. -/
def Obligations.HostWritesReachOneElement : Prop :=
  (∀ p : Config.Params, (List.range 9).map (fun id => (Space.ofId id).map (fun sp => (sp, spaceSize p sp, elementBits sp))) =
    [some (.reg, 256, 32), some (.inp, p.inSize, 8), some (.mos, p.maxPixels, 16), some (.rgb, 3 * p.maxPixels, 16),
      some (.hts, 2112, 8), some (.curve, 65536, 16), some (.glut, 65536, 16), some (.xtr, 2592, 32), some (.xtc, 72, 8)]) ∧
  (∀ id, 8 < id → Space.ofId id = none) ∧
  (∀ (m : Memories) (i : Nat), [Space.inp, .mos, .rgb, .hts, .curve, .glut, .xtr, .xtc].map (fun sp => (m.hostRead i sp).toNat) =
    [(m.inp.read i).toNat, (m.mos.read i).toNat, (m.rgb.read i).toNat, (m.hts.read i).toNat, (m.curve.read i).toNat,
      (m.glut.read i).toNat, (m.xtr.read i).toNat, (m.xtc.read i).toNat]) ∧
  (∀ (s : State) (id i : Nat) (sp : Space) (v : Word) (rest : List HostAction),
    s.port = .write id i v :: rest → Space.ofId id = some sp → sp ≠ .reg → i < spaceSize s.params sp →
    ∃ t, step s = .next t ∧
      (t.mem.hostRead i sp).toNat = v.toNat % 2 ^ elementBits sp ∧
      (∀ sp' j, (sp' ≠ sp ∨ j ≠ i) → t.mem.hostRead j sp' = s.mem.hostRead j sp') ∧
      t.regs = s.regs ∧ t.fault = s.fault ∧ t.port = rest ∧
      t.br = (if sp = .inp then { s.br with bound := false } else s.br) ∧
      (∀ slot : Slot, t.hu[slot] = if sp = .hts ∧ i / 528 = slot.val then { s.hu[slot] with built := false } else s.hu[slot]) ∧
      step { t with port := .read id i :: rest } = .next { t with readback := t.mem.hostRead i sp :: t.readback })

/-- R66: an access at or beyond the space's size, or to a space above 8, is refused: a write changes nothing, a read returns
0 and changes nothing. -/
def Obligations.HostAccessesBeyondASpaceAreRefused : Prop :=
  ∀ (s : State) (id i : Nat) (v : Word) (rest : List HostAction),
    (∀ sp, Space.ofId id = some sp → spaceSize s.params sp ≤ i) →
    (s.port = .write id i v :: rest → step s = .next { s with port := rest }) ∧
    (s.port = .read id i :: rest → step s = .next { s with port := rest, readback := 0 :: s.readback })

/-! ### The bit reader -/

/-- R125: `BR.INIT` binds the cursor to the region when the region lies in `IN`, and faults `BOUNDS` otherwise. -/
def Obligations.BrInitBindsOrFaults : Prop :=
  ∀ (s : State) (mode : ReaderMode), s.fault = false →
    (s.regs.inOff.toNat + s.regs.inLen.toNat ≤ s.params.inSize →
      exec (.brInit mode) s =
        .next { s with br := { bound := true, mode := mode, base := s.regs.inOff, len := s.regs.inLen, pos := 0 } }) ∧
    (s.params.inSize < s.regs.inOff.toNat + s.regs.inLen.toNat → FaultsWith (.brInit mode) s .bounds s.regs.inOff s.br)

/-- R126 to R128, R131: over an MSB cursor `BR.READ n` returns the slice of the region read as one big-endian integer and
advances; `BR.PEEK n` returns the same and does not; `BR.SKIP n` only advances. Nothing else changes. -/
def Obligations.MsbReadsSliceTheBigEndianRegion : Prop :=
  ∀ (s : State) (n : Nat), s.fault = false → s.br.bound = true → s.br.mode = .msb → 1 ≤ n → n ≤ 32 →
    s.br.pos.toNat + n ≤ 8 * s.br.len.toNat →
    let region := bigEndian (fun k => s.mem.inp.read (s.br.base.toNat + k)) s.br.len.toNat
    let v := region / 2 ^ (8 * s.br.len.toNat - (s.br.pos.toNat + n)) % 2 ^ n
    exec (.brRead n) s = .next ((s.advance n).setRes (BitVec.ofNat 32 v)) ∧
    exec (.brPeek n) s = .next (s.setRes (BitVec.ofNat 32 v)) ∧
    exec (.brSkip n) s = .next (s.advance n) ∧
    (s.advance n).br.pos.toNat = s.br.pos.toNat + n

/-- R126 to R128, R131: over an LSB cursor the slice is of the region read as one little-endian integer. -/
def Obligations.LsbReadsSliceTheLittleEndianRegion : Prop :=
  ∀ (s : State) (n : Nat), s.fault = false → s.br.bound = true → s.br.mode = .lsb → 1 ≤ n → n ≤ 32 →
    s.br.pos.toNat + n ≤ 8 * s.br.len.toNat →
    let region := littleEndian (fun k => s.mem.inp.read (s.br.base.toNat + k)) s.br.len.toNat
    let v := region / 2 ^ s.br.pos.toNat % 2 ^ n
    exec (.brRead n) s = .next ((s.advance n).setRes (BitVec.ofNat 32 v)) ∧
    exec (.brPeek n) s = .next (s.setRes (BitVec.ofNat 32 v)) ∧
    exec (.brSkip n) s = .next (s.advance n) ∧
    (s.advance n).br.pos.toNat = s.br.pos.toNat + n

/-- R124, R126 to R128: over a JPEG cursor the slice is of the de-stuffed bytes followed by zero bits without end. -/
def Obligations.JpegReadsSliceTheDataBytesThenZeros : Prop :=
  ∀ (s : State) (n : Nat), s.fault = false → s.br.bound = true → s.br.mode = .jpeg → 1 ≤ n → n ≤ 32 →
    s.br.pos.toNat + n < 2 ^ 64 →
    let data := destuff (fun k => s.mem.inp.read (s.br.base.toNat + k)) s.br.len.toNat
    let v := bigEndianList data * 2 ^ (s.br.pos.toNat + n) / 2 ^ (8 * data.length) % 2 ^ n
    exec (.brRead n) s = .next ((s.advance n).setRes (BitVec.ofNat 32 v)) ∧
    exec (.brPeek n) s = .next (s.setRes (BitVec.ofNat 32 v)) ∧
    exec (.brSkip n) s = .next (s.advance n) ∧
    (s.advance n).br.pos.toNat = s.br.pos.toNat + n

/-- R98, R124: de-stuffing undoes byte stuffing, and an `FF` that is not followed by `00`, the last byte of the region among
them, ends the data whatever follows. -/
def Obligations.DestuffUndoesStuffingAndStopsAtAMarker : Prop :=
  ∀ (data tail : List Byte), tail.head? ≠ some 0x00#8 →
    destuff (fun k => (stuff data).getD k 0) (stuff data).length = data ∧
    destuff (fun k => (stuff data ++ 0xFF#8 :: tail).getD k 0) (stuff data ++ 0xFF#8 :: tail).length = data

/-- R126 to R129: an unbound cursor faults `READER_UNBOUND`; bits that may not be read fault `BITS_EXHAUSTED` with the
position, the cursor not advanced. -/
def Obligations.CursorCommandsFaultWithoutAdvancing : Prop :=
  ∀ (s : State) (n : Nat) (i : Instr), s.fault = false → 1 ≤ n → n ≤ 32 →
    (i = .brRead n ∨ i = .brPeek n ∨ i = .brSkip n) →
    (s.br.bound = false → FaultsWith i s .readerUnbound 0 s.br) ∧
    (s.br.bound = true → ¬ CanRead s.br s.br.pos.toNat n →
      FaultsWith i s .bitsExhausted (BitVec.ofNat 32 s.br.pos.toNat) s.br)

/-- R127: "`BR.PEEK n` followed by `BR.SKIP n` leaves the same state as `BR.READ n`". -/
def Obligations.PeekThenSkipIsRead : Prop :=
  ∀ (s : State) (n : Nat), s.fault = false → s.br.bound = true → CanRead s.br s.br.pos.toNat n →
    ∃ t u, exec (.brPeek n) s = .next t ∧ exec (.brSkip n) t = .next u ∧ exec (.brRead n) s = .next u ∧ u.fault = false

/-! ### The Huffman unit -/

/-- R151 to R153, R155: a table that is not empty, has at most 256 codes, no extra shift and no over-subscribed length is
built. The `k`-th code of length `l` is the first code of that length plus `k`; it claims every index it leads, with the
symbol next in order; an index no code claims is `INVALID`; index 0 never is. Only the slot changes. The table is seen
through `HuffSlot.entry`, since the model keeps it in a sparse form (log 6). -/
def Obligations.HuBuildMakesTheCanonicalTable : Prop :=
  ∀ (s : State) (slot : Slot), s.fault = false →
    let count := fun i => (s.mem.hts.read (528 * slot.val + i)).toNat
    let n := countSum count 16
    n ≠ 0 → n ≤ 256 → (∀ k, k < n → s.mem.hts.read (528 * slot.val + 272 + k) = 0) →
    (∀ l, 1 ≤ l → l ≤ 16 → lengthFits count l = true) →
    ∃ t, exec (.huBuild slot) s = .next t ∧ t = { s with hu := s.hu.set slot.val t.hu[slot] } ∧
      t.hu[slot].built = true ∧ 1 ≤ t.hu[slot].maxlen ∧ t.hu[slot].maxlen ≤ 16 ∧
      count (t.hu[slot].maxlen - 1) ≠ 0 ∧ (∀ i, i < 16 → count i ≠ 0 → i + 1 ≤ t.hu[slot].maxlen) ∧
      (∀ w l k, w < 2 ^ t.hu[slot].maxlen → 1 ≤ l → l ≤ 16 → k < count (l - 1) →
        w >>> (t.hu[slot].maxlen - l) = firstCode count l + k →
        ∃ e, t.hu[slot].entry w = some e ∧ e.len = l ∧
          e.sym = s.mem.hts.read (528 * slot.val + 16 + (countSum count (l - 1) + k))) ∧
      (∀ w, w < 2 ^ t.hu[slot].maxlen →
        (∀ l k, 1 ≤ l → l ≤ 16 → k < count (l - 1) → w >>> (t.hu[slot].maxlen - l) ≠ firstCode count l + k) →
        t.hu[slot].entry w = none) ∧
      t.hu[slot].entry 0 ≠ none

/-- R155: the faults of `HU.BUILD`, in order; after each the slot is not built. -/
def Obligations.HuBuildFaultsInOrder : Prop :=
  ∀ (s : State) (slot : Slot), s.fault = false →
    let count := fun i => (s.mem.hts.read (528 * slot.val + i)).toNat
    let n := countSum count 16
    let faults (code : FaultCode) (info : Word) : Prop :=
      FaultsWith (.huBuild slot) s code info s.br ∧ ∀ t, exec (.huBuild slot) s = .next t → t.hu[slot].built = false
    (n = 0 → faults .huffEmptyTable (BitVec.ofNat 32 slot.val)) ∧
    (256 < n → faults .huffBadTable 0) ∧
    (n ≠ 0 → n ≤ 256 → (∃ k, k < n ∧ s.mem.hts.read (528 * slot.val + 272 + k) ≠ 0) → faults .unsupported 2) ∧
    (∀ l, n ≠ 0 → n ≤ 256 → (∀ k, k < n → s.mem.hts.read (528 * slot.val + 272 + k) = 0) → 1 ≤ l → l ≤ 16 →
      lengthFits count l = false → (∀ l', 1 ≤ l' → l' < l → lengthFits count l' = true) →
      faults .huffBadTable (BitVec.ofNat 32 l))

/-- R154, R156: when the bits at the cursor begin with a code of a built slot, and `maxlen` bits may be read there, `HU.SYM`
returns the code's symbol and advances by the code's length. That the slot holds a prefix-free code is the invariant. -/
def Obligations.HuSymReturnsTheSymbolOfTheCode : Prop :=
  ∀ (s : State) (slot : Slot) (e : LutCode), s.fault = false → s.br.bound = true → s.br.mode ≠ .lsb →
    s.hu[slot].built = true → s.hu[slot].wf = true → e ∈ s.hu[slot].lut →
    CanRead s.br s.br.pos.toNat s.hu[slot].maxlen →
    streamValue s.mem.inp s.br s.br.pos.toNat e.len = e.code →
    exec (.huSym slot) s = .next ((s.advance e.len).setRes (BitVec.ofNat 32 e.sym.toNat))

/-- R97, R157, R158: `HU.DEC` reads as many raw bits as the symbol says and returns the signed difference: `v` when the top
bit is 1, `v - (2^t - 1)` when it is 0, 0 for the symbol 0. With 32 raw bits only `0x7FFFFFFF` has a result. -/
def Obligations.HuDecReturnsTheSignedDifference : Prop :=
  ∀ (s : State) (slot : Slot) (e : LutCode), s.fault = false → s.br.bound = true → s.br.mode ≠ .lsb →
    s.hu[slot].built = true → s.hu[slot].wf = true → e ∈ s.hu[slot].lut →
    CanRead s.br s.br.pos.toNat s.hu[slot].maxlen →
    streamValue s.mem.inp s.br s.br.pos.toNat e.len = e.code →
    let t := e.sym.toNat
    let v := streamValue s.mem.inp s.br (s.br.pos.toNat + e.len) t
    let d : Int := if 2 ^ (t - 1) ≤ v then (v : Int) else (v : Int) - (2 ^ t - 1)
    (t = 0 → exec (.huDec slot) s = .next ((s.advance e.len).setRes 0)) ∧
    (1 ≤ t → t ≤ 31 → CanRead s.br (s.br.pos.toNat + e.len) t →
      exec (.huDec slot) s = .next ((s.advance (e.len + t)).setRes (BitVec.ofInt 32 d))) ∧
    (t = 32 → CanRead s.br (s.br.pos.toNat + e.len) t → v = 0x7FFFFFFF →
      exec (.huDec slot) s = .next ((s.advance (e.len + t)).setRes 0x80000000#32)) ∧
    (t = 32 → CanRead s.br (s.br.pos.toNat + e.len) t → v ≠ 0x7FFFFFFF →
      FaultsWith (.huDec slot) s .arithOverflow 32 (s.br.advance (e.len + t))) ∧
    (32 < t → FaultsWith (.huDec slot) s .decodeFormat (BitVec.ofNat 32 t) (s.br.advance e.len)) ∧
    (1 ≤ t → t ≤ 32 → ¬ CanRead s.br (s.br.pos.toNat + e.len) t →
      FaultsWith (.huDec slot) s .bitsExhausted (BitVec.ofNat 32 (s.br.pos.toNat + e.len)) (s.br.advance e.len))

/-- R154: the faults of a symbol decode, in order, none of them moving the cursor. A built slot has `maxlen >= 1` (R151, the
invariant); only the running out of bits needs it, and before a slot is built nothing is asked of what it holds (log 5). -/
def Obligations.HuffmanDecodesFaultInOrder : Prop :=
  ∀ (s : State) (slot : Slot) (i : Instr), s.fault = false → (i = .huSym slot ∨ i = .huDec slot) →
    let w := streamValue s.mem.inp s.br s.br.pos.toNat s.hu[slot].maxlen
    (s.hu[slot].built = false → FaultsWith i s .huffNotBuilt (BitVec.ofNat 32 slot.val) s.br) ∧
    (s.hu[slot].built = true → s.br.bound = false → FaultsWith i s .readerUnbound 0 s.br) ∧
    (s.hu[slot].built = true → s.br.bound = true → s.br.mode = .lsb → FaultsWith i s .unsupported 1 s.br) ∧
    (s.hu[slot].built = true → s.br.bound = true → s.br.mode ≠ .lsb → 1 ≤ s.hu[slot].maxlen →
      ¬ CanRead s.br s.br.pos.toNat s.hu[slot].maxlen →
      FaultsWith i s .bitsExhausted (BitVec.ofNat 32 s.br.pos.toNat) s.br) ∧
    (s.hu[slot].built = true → s.br.bound = true → s.br.mode ≠ .lsb → CanRead s.br s.br.pos.toNat s.hu[slot].maxlen →
      s.hu[slot].entry w = none → FaultsWith i s .huffInvalidCode (BitVec.ofNat 32 w) s.br)

/-- R158: the range of the differences of `t` raw bits, which all fit `i32` up to 31, and that no two fields share one. -/
def Obligations.SignedDifferencesCoverTheirRange : Prop :=
  ∀ (t v v' : Nat), 1 ≤ t → v < 2 ^ t → v' < 2 ^ t →
    (2 ^ (t - 1) ≤ v → signedDifference t v = v) ∧
    (v < 2 ^ (t - 1) → -(2 ^ t - 1) ≤ signedDifference t v ∧ signedDifference t v ≤ -(2 ^ (t - 1))) ∧
    (signedDifference t v = signedDifference t v' → v = v') ∧
    (t ≤ 31 → fitsI32 (signedDifference t v) = true) ∧
    (t = 32 → (fitsI32 (signedDifference t v) = true ↔ v = 0x7FFFFFFF))

/-! ### The decompressor -/

/-- R180, R181: the checks of `DC.RUN` before a codec runs, in order; and what the model's two tests say, which other
statements take as premises. -/
def Obligations.DcRunChecksCodeGeometryRegion : Prop :=
  ∀ s : State, s.fault = false →
    let code := s.regs.compression.toNat
    let known := code = 1 ∨ code = 32767 ∨ code = 34713
    let fits := s.regs.width.toNat ≠ 0 ∧ s.regs.height.toNat ≠ 0 ∧
      s.regs.width.toNat * s.regs.height.toNat ≤ s.params.maxPixels
    (s.mosaicFits = true ↔ fits) ∧
    (s.regionInside = true ↔ s.regs.inOff.toNat + s.regs.inLen.toNat ≤ s.params.inSize) ∧
    (¬ known → FaultsWith .dcRun s .unknownCompression s.regs.compression s.br) ∧
    (known → ¬ fits → FaultsWith .dcRun s .geometry 0 s.br) ∧
    (known → fits → s.params.inSize < s.regs.inOff.toNat + s.regs.inLen.toNat →
      FaultsWith .dcRun s .bounds s.regs.inOff s.br)

/-- R184 to R186, R190, R202: the checks each codec makes before it binds the cursor, in order; the cursor is left unbound.
R34, R36, R37: the register fields the codecs read, by their bits. -/
def Obligations.CodecsCheckTheirConfiguration : Prop :=
  (∀ g : Regs,
    g.unpackBits = g.unpackCfg.toNat % 2 ^ 5 ∧ (g.unpackWordAligned = true ↔ g.unpackCfg.getLsbD 8 = true) ∧
    (g.unpackLittle = true ↔ g.unpackCfg.getLsbD 9 = true) ∧ g.curveEntries = g.curveLen.toNat % 2 ^ 17 ∧
    g.nikonSlotA.val = g.nikonCfg.toNat % 4 ∧ g.nikonSlotB.val = g.nikonCfg.toNat / 4 % 4 ∧
    (g.nikonSplitEnabled = true ↔ g.nikonCfg.getLsbD 4 = true)) ∧
  ∀ s : State, s.fault = false → s.mosaicFits = true → s.regionInside = true →
    let g := s.regs
    let n := g.width.toNat * g.height.toNat
    let b := g.unpackBits
    let br := { s.br with bound := false }
    (g.compression.toNat = 1 → b ≠ 12 → b ≠ 14 → b ≠ 16 → FaultsWith .dcRun s .illegalCfg (BitVec.ofNat 32 b) br) ∧
    (g.compression.toNat = 1 → (b = 12 ∨ b = 14 ∨ b = 16) →
      (if g.unpackWordAligned then g.inLen.toNat ≠ 2 * n else 8 * g.inLen.toNat ≠ n * b) →
      FaultsWith .dcRun s .invalidDecodedSize g.inLen br) ∧
    (g.compression.toNat = 32767 → g.width.toNat % 32 ≠ 0 → FaultsWith .dcRun s .geometry 1 br) ∧
    (g.compression.toNat = 32767 → g.width.toNat % 32 = 0 → g.inLen.toNat ≠ n →
      FaultsWith .dcRun s .invalidDecodedSize g.inLen br) ∧
    (g.compression.toNat = 32767 → g.width.toNat % 32 = 0 → g.inLen.toNat = n → 65536 < g.curveEntries →
      FaultsWith .dcRun s .illegalCfg (BitVec.ofNat 32 g.curveEntries) br) ∧
    (g.compression.toNat = 34713 → s.hu[g.nikonSlotA].built = false →
      FaultsWith .dcRun s .huffNotBuilt (BitVec.ofNat 32 g.nikonSlotA.val) br) ∧
    (g.compression.toNat = 34713 → s.hu[g.nikonSlotA].built = true → g.nikonSplitEnabled = true →
      s.hu[g.nikonSlotB].built = false → FaultsWith .dcRun s .huffNotBuilt (BitVec.ofNat 32 g.nikonSlotB.val) br) ∧
    (g.compression.toNat = 34713 → s.hu[g.nikonSlotA].built = true →
      (g.nikonSplitEnabled = true → s.hu[g.nikonSlotB].built = true) → 65536 < g.curveEntries →
      FaultsWith .dcRun s .illegalCfg (BitVec.ofNat 32 g.curveEntries) br)

/-- R185: a packed region of the right size unpacks to its `bits`-bit slices, big-endian or little-endian; nothing but the
mosaic and the cursor changes, and the mosaic only below `W * H`. -/
def Obligations.PackedSamplesAreSlicesOfTheRegion : Prop :=
  ∀ s : State, s.fault = false → s.regs.compression.toNat = 1 → s.mosaicFits = true → s.regionInside = true →
    let g := s.regs
    let n := g.width.toNat * g.height.toNat
    let b := g.unpackBits
    (b = 12 ∨ b = 14 ∨ b = 16) → g.unpackWordAligned = false → 8 * g.inLen.toNat = n * b →
    ∃ t, exec .dcRun s = .next t ∧
      t = (s.setMos t.mem.mos).setBr
        { bound := false, mode := if g.unpackLittle then .lsb else .msb, base := g.inOff, len := g.inLen
          pos := BitVec.ofNat 64 (n * b) } ∧
      (∀ k, k < n → (t.mem.mos.read k).toNat =
        if g.unpackLittle then littleEndian s.regionBytes g.inLen.toNat / 2 ^ (k * b) % 2 ^ b
        else bigEndian s.regionBytes g.inLen.toNat / 2 ^ (n * b - (k + 1) * b) % 2 ^ b) ∧
      (∀ k, n ≤ k → t.mem.mos.read k = s.mem.mos.read k)

/-- R186: word-aligned samples are the region's 16-bit words in the chosen order, not masked to the bit depth; the cursor is
left as it was, unbound. -/
def Obligations.WordAlignedSamplesAreTheRegionsWords : Prop :=
  ∀ s : State, s.fault = false → s.regs.compression.toNat = 1 → s.mosaicFits = true → s.regionInside = true →
    let g := s.regs
    let n := g.width.toNat * g.height.toNat
    (g.unpackBits = 12 ∨ g.unpackBits = 14 ∨ g.unpackBits = 16) → g.unpackWordAligned = true → g.inLen.toNat = 2 * n →
    ∃ t, exec .dcRun s = .next t ∧ t = (s.setMos t.mem.mos).setBr { s.br with bound := false } ∧
      (∀ k, k < n → (t.mem.mos.read k).toNat =
        if g.unpackLittle then (s.regionBytes (2 * k)).toNat + 256 * (s.regionBytes (2 * k + 1)).toNat
        else 256 * (s.regionBytes (2 * k)).toNat + (s.regionBytes (2 * k + 1)).toNat) ∧
      (∀ k, n ≤ k → t.mem.mos.read k = s.mem.mos.read k)

/-- R190 to R194: the Sony mosaic by position. Column `x` of row `r` is sample `(x mod 32) div 2` of half-group `x mod 2` of
group `x div 32`; twice its value (`sonyValue`) indexes the curve. `CURVE_LEN` from 4095 on makes every lookup legal (R194); a
shorter curve serves when it holds the indices the samples ask for. -/
def Obligations.SonySamplesByPosition : Prop :=
  ∀ s : State, s.fault = false → s.regs.compression.toNat = 32767 → s.mosaicFits = true → s.regionInside = true →
    let g := s.regs
    let w := g.width.toNat
    let h := g.height.toNat
    let br : BitReader := { bound := true, mode := .lsb, base := g.inOff, len := g.inLen, pos := 0 }
    let val := streamValue s.mem.inp br
    w % 32 = 0 → g.inLen.toNat = w * h → g.curveEntries ≤ 65536 → (∀ k, k < w / 16 * h → sonyGood val k) →
    (4095 ≤ g.curveEntries ∨ ∀ k i, k < w / 16 * h → i < 16 → 2 * sonyValue val k i < g.curveEntries) →
    ∃ t, exec .dcRun s = .next t ∧ t = (s.setMos t.mem.mos).setBr { br with bound := false } ∧
      (∀ r x, r < h → x < w → t.mem.mos.read (r * w + x) =
        s.mem.curve.read (2 * sonyValue val ((r * (w / 32) + x / 32) * 2 + x % 2) (x % 32 / 2))) ∧
      (∀ k, w * h ≤ k → t.mem.mos.read k = s.mem.mos.read k)

/-- R192, R194, R195: what ends a Sony run, in stream order. When every half-group before number `k` is good and looks up
indices inside the curve: if `k`'s indices coincide or its maximum is below its minimum, `DECODE_FORMAT` with `k`; else, at
its first sample whose index is at or beyond `CURVE_LEN`, `BOUNDS` with that index. The cursor stays bound, at position 0. -/
def Obligations.BadSonyHalfGroupsFault : Prop :=
  ∀ (s : State) (k : Nat), s.fault = false → s.regs.compression.toNat = 32767 → s.mosaicFits = true →
    s.regionInside = true →
    let g := s.regs
    let w := g.width.toNat
    let h := g.height.toNat
    let br : BitReader := { bound := true, mode := .lsb, base := g.inOff, len := g.inLen, pos := 0 }
    let val := streamValue s.mem.inp br
    w % 32 = 0 → g.inLen.toNat = w * h → g.curveEntries ≤ 65536 → k < w / 16 * h →
    (∀ k', k' < k → sonyGood val k' ∧ ∀ i, i < 16 → 2 * sonyValue val k' i < g.curveEntries) →
    (¬ sonyGood val k → FaultsWith .dcRun s .decodeFormat (BitVec.ofNat 32 k) br) ∧
    (sonyGood val k → ∀ i, i < 16 → g.curveEntries ≤ 2 * sonyValue val k i →
      (∀ i', i' < i → 2 * sonyValue val k i' < g.curveEntries) →
      FaultsWith .dcRun s .bounds (BitVec.ofNat 32 (2 * sonyValue val k i)) br)

/-- R200 to R205: the Nikon mosaic by position. `d` are the differences decoded along the stream by the slot in use, `p` the
predicted values: from the sample two columns before, in the first two columns from the sample two rows above, in the first
two rows from the `VPRED` registers. When all of them lie inside the curve the mosaic is their dithered lookups; with the
spec's default, which dithers nothing, the lookups themselves. The dithering function is a free parameter (log 8), and what
is said holds for every one. -/
def Obligations.NikonSamplesFollowTheRecurrence : Prop :=
  ∀ (s : State) (d p : Nat → Nat → Int) (br : Nat → BitReader) (out : Nat → Sample) (rng : Nat → Word),
    s.fault = false → s.regs.compression.toNat = 34713 → s.mosaicFits = true → s.regionInside = true →
    let g := s.regs
    let w := g.width.toNat
    let h := g.height.toNat
    let slot (row : Nat) : Slot :=
      if g.nikonSplitEnabled ∧ g.nikonSplit.toNat ≤ row then g.nikonSlotB else g.nikonSlotA
    let seed (row col : Nat) : Int :=
      if row = 0 then (if col = 0 then g.vpred00.toInt else g.vpred01.toInt)
      else (if col = 0 then g.vpred10.toInt else g.vpred11.toInt)
    s.hu[g.nikonSlotA].built = true → (g.nikonSplitEnabled = true → s.hu[g.nikonSlotB].built = true) →
    g.curveEntries ≤ 65536 →
    br 0 = { bound := true, mode := .msb, base := g.inOff, len := g.inLen, pos := 0 } →
    rng 0 = ditherSeed s.params.dither →
    (∀ row col, row < h → col < w →
      huffDec s.mem.inp (slot row).val s.hu[slot row] (br (row * w + col)) = .ok (d row col, br (row * w + col + 1)) ∧
      p row col = d row col +
        (if 2 ≤ col then p row (col - 2) else if 2 ≤ row then p (row - 2) col else seed row col) ∧
      0 ≤ p row col ∧ p row col < g.curveEntries ∧
      ditherStep s.params.dither s.mem.curve g.curveEntries (p row col).toNat (rng (row * w + col)) =
        (out (row * w + col), rng (row * w + col + 1))) →
    ∃ t, exec .dcRun s = .next t ∧ t = (s.setMos t.mem.mos).setBr { br (w * h) with bound := false } ∧
      (∀ row col, row < h → col < w → t.mem.mos.read (row * w + col) = out (row * w + col) ∧
        (s.params.dither = .off → t.mem.mos.read (row * w + col) = s.mem.curve.read (p row col).toNat)) ∧
      (∀ k, w * h ≤ k → t.mem.mos.read k = s.mem.mos.read k)

/-! ### Normalisation -/

/-- R231: `Normalize` of every sample below `W * H`, exact and then saturated, in both modes; nothing else changes. -/
def Obligations.PpNormNormalizesEverySample : Prop :=
  ∀ (s : State) (mul : NormMode), s.fault = false → s.mosaicFits = true →
    (mul = .shift → (s.regs.scale.toNat % 2 ^ 16) ≤ 31) →
    let black := s.regs.black.toNat % 2 ^ 16
    let scale := s.regs.scale.toNat % 2 ^ 16
    ∃ t, exec (.ppNorm mul) s = .next t ∧ t = s.setMos t.mem.mos ∧
      (∀ k, k < s.regs.width.toNat * s.regs.height.toNat → (t.mem.mos.read k).toNat =
        Nat.min (((s.mem.mos.read k).toNat - black) * (if mul = .shift then 2 ^ scale else scale)) 65535) ∧
      (∀ k, s.regs.width.toNat * s.regs.height.toNat ≤ k → t.mem.mos.read k = s.mem.mos.read k)

/-- R230: the faults of `PP.NORM`, in order. -/
def Obligations.PpNormFaultsInOrder : Prop :=
  ∀ (s : State) (mul : NormMode), s.fault = false →
    let scale := s.regs.scale.toNat % 2 ^ 16
    (s.mosaicFits = false → FaultsWith (.ppNorm mul) s .geometry 0 s.br) ∧
    (s.mosaicFits = true → mul = .shift → 31 < scale →
      FaultsWith (.ppNorm mul) s .illegalCfg (BitVec.ofNat 32 scale) s.br)

/-! ### The demosaicker -/

/-- R244 and its frame: mode None on a Bayer pattern puts each sample in its own channel and 0 in the others. -/
def Obligations.BayerNoneReplicatesEachSample : Prop :=
  ∀ s : State, s.fault = false → s.regs.cfaCode < 4 → s.demosaicFits = true →
    let w := s.regs.width.toNat
    let h := s.regs.height.toNat
    ∃ t, exec (.dmRun .none) s = .next t ∧
      t = { s.setRgb t.mem.rgb with regs := { s.regs with rgbWidth := s.regs.width, rgbHeight := s.regs.height } } ∧
      (∀ y x (c : Colour), y < h → x < w → t.mem.rgb.readNat (3 * (y * w + x) + c.number) =
        if bayerColour s.regs.cfaCode y x = c then s.mem.mos.readNat (y * w + x) else 0) ∧
      (∀ k, 3 * (w * h) ≤ k → t.mem.rgb.read k = s.mem.rgb.read k)

/-- R243: the 2x2 tile of each Bayer pattern, in row-major order of its name. -/
def Obligations.BayerTilesReadRowMajor : Prop :=
  ∀ y x : Nat,
    let tile (cfa : Nat) : Colour := bayerColour cfa y x
    (y % 2 = 0 → x % 2 = 0 → [tile 0, tile 1, tile 2, tile 3] = [.red, .green, .green, .blue]) ∧
    (y % 2 = 0 → x % 2 = 1 → [tile 0, tile 1, tile 2, tile 3] = [.green, .red, .blue, .green]) ∧
    (y % 2 = 1 → x % 2 = 0 → [tile 0, tile 1, tile 2, tile 3] = [.green, .blue, .red, .green]) ∧
    (y % 2 = 1 → x % 2 = 1 → [tile 0, tile 1, tile 2, tile 3] = [.blue, .green, .green, .red])

/-- R245: SuperPixel makes one pixel of every aligned 2x2 block, red and blue from the block, green the truncated mean of its
two greens; an odd last row or column is dropped. -/
def Obligations.SuperPixelBinsEveryBlock : Prop :=
  ∀ s : State, s.fault = false → s.regs.cfaCode < 4 → s.demosaicFits = true →
    let w := s.regs.width.toNat
    let h := s.regs.height.toNat
    let m (p : Nat × Nat) : Nat := s.mem.mos.readNat (p.1 * w + p.2)
    let colour (p : Nat × Nat) : Colour := bayerColour s.regs.cfaCode p.1 p.2
    ∃ t, exec (.dmRun .superPixel) s = .next t ∧
      t = { s.setRgb t.mem.rgb with
        regs := { s.regs with rgbWidth := BitVec.ofNat 32 (w / 2), rgbHeight := BitVec.ofNat 32 (h / 2) } } ∧
      (∀ y x (p q : Nat × Nat), y < h / 2 → x < w / 2 →
        p.1 / 2 = y → p.2 / 2 = x → q.1 / 2 = y → q.2 / 2 = x → p ≠ q →
        (colour p = .red → t.mem.rgb.readNat (3 * (y * (w / 2) + x)) = m p) ∧
        (colour p = .blue → t.mem.rgb.readNat (3 * (y * (w / 2) + x) + 2) = m p) ∧
        (colour p = .green → colour q = .green →
          t.mem.rgb.readNat (3 * (y * (w / 2) + x) + 1) = (m p + m q) / 2)) ∧
      (∀ k, 3 * (w / 2 * (h / 2)) ≤ k → t.mem.rgb.read k = s.mem.rgb.read k)

/-- R246 to R249: Linear on a Bayer pattern keeps each sample in its own channel and gives each other channel the truncated
mean of the samples of that colour in the 3x3 neighbourhood that lie inside the image. -/
def Obligations.BayerLinearAveragesSameColourNeighbours : Prop :=
  ∀ s : State, s.fault = false → s.regs.cfaCode < 4 → s.demosaicFits = true →
    let w := s.regs.width.toNat
    let h := s.regs.height.toNat
    ∃ t, exec (.dmRun .linear) s = .next t ∧
      t = { s.setRgb t.mem.rgb with regs := { s.regs with rgbWidth := s.regs.width, rgbHeight := s.regs.height } } ∧
      (∀ y x (c : Colour), y < h → x < w → t.mem.rgb.readNat (3 * (y * w + x) + c.number) =
        if bayerColour s.regs.cfaCode y x = c then s.mem.mos.readNat (y * w + x)
        else mean (s.mosaic.sameColour s.regs.cfaCode y x c)) ∧
      (∀ k, 3 * (w * h) ≤ k → t.mem.rgb.read k = s.mem.rgb.read k)

/-- R251: "a mosaic constant per channel demosaics under `Linear` to a constant image", for any pattern and any size. -/
def Obligations.ConstantMosaicsStayConstant : Prop :=
  ∀ (s : State) (level : Colour → Nat), s.fault = false → s.regs.cfaCode < 4 → s.demosaicFits = true →
    let w := s.regs.width.toNat
    let h := s.regs.height.toNat
    (∀ y x, y < h → x < w → s.mem.mos.readNat (y * w + x) = level (bayerColour s.regs.cfaCode y x)) →
    ∃ t, exec (.dmRun .linear) s = .next t ∧ t.fault = false ∧
      ∀ y x (c : Colour), y < h → x < w → t.mem.rgb.readNat (3 * (y * w + x) + c.number) = level c

/-- R261: mode None on an X-Trans pattern puts each sample in the channel the host's colour map names. -/
def Obligations.XTransNoneFollowsTheColourMap : Prop :=
  ∀ s : State, s.fault = false → (s.regs.cfaCode = 4 ∨ s.regs.cfaCode = 5) → s.demosaicFits = true →
    let w := s.regs.width.toNat
    let h := s.regs.height.toNat
    let colour (y x : Nat) : Nat := s.mem.xtc.readNat (((s.regs.cfaCode - 4) * 6 + y % 6) * 6 + x % 6)
    (∀ y x, y < h → x < w → colour y x ≤ 2) →
    ∃ t, exec (.dmRun .none) s = .next t ∧
      t = { s.setRgb t.mem.rgb with regs := { s.regs with rgbWidth := s.regs.width, rgbHeight := s.regs.height } } ∧
      (∀ y x c, y < h → x < w → c < 3 → t.mem.rgb.readNat (3 * (y * w + x) + c) =
        if colour y x = c then s.mem.mos.readNat (y * w + x) else 0) ∧
      (∀ k, 3 * (w * h) ≤ k → t.mem.rgb.read k = s.mem.rgb.read k)

/-- R101, R102, R262 to R264: Linear on an X-Trans pattern. A position whose entry is not valid becomes (0, 0, 0); else each
channel is the truncated mean of the neighbours its rule lists, counted as often as listed, and 0 when it lists none. -/
def Obligations.XTransLinearFollowsTheRuleTable : Prop :=
  ∀ s : State, s.fault = false → (s.regs.cfaCode = 4 ∨ s.regs.cfaCode = 5) → s.demosaicFits = true →
    let w := s.regs.width.toNat
    let h := s.regs.height.toNat
    let border (y x : Nat) : Nat :=
      3 * (if y = 0 then 1 else if y + 1 = h then 2 else 0) + (if x = 0 then 1 else if x + 1 = w then 2 else 0)
    let e (y x : Nat) : Nat := 4 * ((((s.regs.cfaCode - 4) * 6 + y % 6) * 6 + x % 6) * 9 + border y x)
    let valid (y x : Nat) : Bool := s.mem.xtr.readNat (e y x) % 2 == 1
    let k (y x c : Nat) : Nat := s.mem.xtr.readNat (e y x + 1 + c) % 8
    let d (y x c j : Nat) : Nat := s.mem.xtr.readNat (e y x + 1 + c) / 2 ^ (3 + 4 * j) % 16
    (∀ y x c, y < h → x < w → c < 3 → valid y x = true → k y x c ≤ 4 ∧ ∀ j, j < k y x c →
      d y x c j ≤ 8 ∧ 1 ≤ y + d y x c j / 3 ∧ y + d y x c j / 3 ≤ h ∧ 1 ≤ x + d y x c j % 3 ∧ x + d y x c j % 3 ≤ w) →
    ∃ t, exec (.dmRun .linear) s = .next t ∧
      t = { s.setRgb t.mem.rgb with regs := { s.regs with rgbWidth := s.regs.width, rgbHeight := s.regs.height } } ∧
      (∀ y x c, y < h → x < w → c < 3 → t.mem.rgb.readNat (3 * (y * w + x) + c) =
        if valid y x = true ∧ k y x c ≠ 0 then
          ((List.range (k y x c)).map (fun j =>
            s.mem.mos.readNat ((y + d y x c j / 3 - 1) * w + (x + d y x c j % 3 - 1)))).sum / k y x c
        else 0) ∧
      (∀ k, 3 * (w * h) ≤ k → t.mem.rgb.read k = s.mem.rgb.read k)

/-- R32, R240, R258, R265: the checks of `DM.RUN` before its first pixel, in order; the geometry registers keep their values.
The first two lines say what the model's pattern code and geometry test are, which other statements take as premises. -/
def Obligations.DmRunFaultsInOrder : Prop :=
  ∀ (s : State) (dmode : DemosaicMode), s.fault = false →
    let w := s.regs.width.toNat
    let h := s.regs.height.toNat
    let cfa := s.regs.cfa.toNat % 8
    let misfit := w < 2 ∨ h < 2 ∨ s.params.maxPixels < w * h
    let faults (code : FaultCode) (info : Word) : Prop :=
      FaultsWith (.dmRun dmode) s code info s.br ∧
      ∀ t, exec (.dmRun dmode) s = .next t → t.regs.rgbWidth = s.regs.rgbWidth ∧ t.regs.rgbHeight = s.regs.rgbHeight
    s.regs.cfaCode = cfa ∧
    (s.demosaicFits = true ↔ ¬ misfit) ∧
    (dmode = .enhancedLinear → faults .unsupported 3) ∧
    (dmode ≠ .enhancedLinear → 5 < cfa → faults .illegalCfg (BitVec.ofNat 32 cfa)) ∧
    (dmode ≠ .enhancedLinear → cfa ≤ 5 → misfit → faults .geometry 2) ∧
    (dmode = .superPixel → 4 ≤ cfa → cfa ≤ 5 → ¬ misfit → faults .unsupported 4)

/-! ### The colour pipeline -/

/-- R290, R291, R297: white balance, per channel, when every product fits `i32`; nothing else changes. -/
def Obligations.CpWbScalesEveryChannel : Prop :=
  ∀ s : State, s.fault = false → s.imageFits = true →
    let n := s.regs.rgbWidth.toNat * s.regs.rgbHeight.toNat
    let gain (c : Colour) : Nat := (match c with | .red => s.regs.wbR | .green => s.regs.wbG | .blue => s.regs.wbB).toNat % 2 ^ 31
    let shift := s.regs.wbShift.toNat % 2 ^ 5
    (∀ k (c : Colour), k < n → s.mem.rgb.readNat (3 * k + c.number) * gain c < 2 ^ 31) →
    ∃ t, exec .cpWb s = .next t ∧ t = s.setRgb t.mem.rgb ∧
      (∀ k (c : Colour), k < n → t.mem.rgb.readNat (3 * k + c.number) =
        Nat.min (s.mem.rgb.readNat (3 * k + c.number) * gain c / 2 ^ shift) 65535) ∧
      (∀ k, 3 * n ≤ k → t.mem.rgb.read k = s.mem.rgb.read k)

/-- R293, R294, R297: the colour matrix, all three outputs from the pixel's old channels, when every product and partial sum
fits `i32`: the exact sum divided by 2^13 rounding down, clamped; nothing else changes. -/
def Obligations.CpCcAppliesTheMatrix : Prop :=
  ∀ s : State, s.fault = false → s.imageFits = true →
    let n := s.regs.rgbWidth.toNat * s.regs.rgbHeight.toNat
    let m (i j : Fin 3) : Int := (s.regs.cm[3 * i.val + j.val]'(by omega)).toInt
    let v (k : Nat) (j : Fin 3) : Int := s.mem.rgb.readNat (3 * k + j.val)
    let fits (a : Int) : Prop := -(2 ^ 31) ≤ a ∧ a < 2 ^ 31
    (∀ k i, k < n → fits (m i 0 * v k 0) ∧ fits (m i 1 * v k 1) ∧ fits (m i 2 * v k 2) ∧
      fits (m i 0 * v k 0 + m i 1 * v k 1) ∧ fits (m i 0 * v k 0 + m i 1 * v k 1 + m i 2 * v k 2)) →
    ∃ t, exec .cpCc s = .next t ∧ t = s.setRgb t.mem.rgb ∧
      (∀ k (i : Fin 3), k < n → (t.mem.rgb.readNat (3 * k + i.val) : Int) =
        max 0 (min ((m i 0 * v k 0 + m i 1 * v k 1 + m i 2 * v k 2) / 2 ^ 13) 65535)) ∧
      (∀ k, 3 * n ≤ k → t.mem.rgb.read k = s.mem.rgb.read k)

/-- R296, R297: gamma, a lookup per channel that cannot fail; nothing else changes. -/
def Obligations.CpGammaLooksEveryChannelUp : Prop :=
  ∀ s : State, s.fault = false → s.imageFits = true →
    let n := s.regs.rgbWidth.toNat * s.regs.rgbHeight.toNat
    ∃ t, exec .cpGamma s = .next t ∧ t = s.setRgb t.mem.rgb ∧
      (∀ k, k < 3 * n → t.mem.rgb.read k = s.mem.glut.read (s.mem.rgb.readNat k)) ∧
      (∀ k, 3 * n ≤ k → t.mem.rgb.read k = s.mem.rgb.read k)

/-- R291, R294, R297, R298: an image of no pixel or too many faults `GEOMETRY`, 3, for all three commands. Else the first
pixel of which a product `v * gain` reaches 2^31 (`CP.WB`), or a product or partial sum lies outside `i32` (`CP.CC`), faults
`ARITH_OVERFLOW` with its index. The first line says what the model's test of the image is, a premise of other statements. -/
def Obligations.PipelineFaultsAtTheFirstOverflow : Prop :=
  ∀ s : State, s.fault = false →
    let n := s.regs.rgbWidth.toNat * s.regs.rgbHeight.toNat
    let v (k c : Nat) : Nat := s.mem.rgb.readNat (3 * k + c)
    let gain (c : Colour) : Nat := (match c with | .red => s.regs.wbR | .green => s.regs.wbG | .blue => s.regs.wbB).toNat % 2 ^ 31
    let m (i j : Fin 3) : Int := (s.regs.cm[3 * i.val + j.val]'(by omega)).toInt
    let leaves (a : Int) : Prop := a < -(2 ^ 31) ∨ 2 ^ 31 ≤ a
    let wbLeaves (k : Nat) : Prop := ∃ c : Colour, 2 ^ 31 ≤ v k c.number * gain c
    let ccLeaves (k : Nat) : Prop := ∃ i : Fin 3,
      leaves (m i 0 * v k 0) ∨ leaves (m i 1 * v k 1) ∨ leaves (m i 2 * v k 2) ∨
      leaves (m i 0 * v k 0 + m i 1 * v k 1) ∨ leaves (m i 0 * v k 0 + m i 1 * v k 1 + m i 2 * v k 2)
    (s.imageFits = true ↔ n ≠ 0 ∧ n ≤ s.params.maxPixels) ∧
    (n = 0 ∨ s.params.maxPixels < n → ∀ i : Instr, i = .cpWb ∨ i = .cpCc ∨ i = .cpGamma → FaultsWith i s .geometry 3 s.br) ∧
    (n ≠ 0 → n ≤ s.params.maxPixels → ∀ k, k < n →
      (wbLeaves k → (∀ j, j < k → ¬ wbLeaves j) → FaultsWith .cpWb s .arithOverflow (BitVec.ofNat 32 k) s.br) ∧
      (ccLeaves k → (∀ j, j < k → ¬ ccLeaves j) → FaultsWith .cpCc s .arithOverflow (BitVec.ofNat 32 k) s.br))

/-- R295: with every gain equal to `2^WB_SHIFT`, the shift at most 15, and the identity matrix, `CP.WB` then `CP.CC` leave
the whole image as it was. -/
def Obligations.UnitGainsAndIdentityMatrixChangeNothing : Prop :=
  ∀ s : State, s.fault = false → s.imageFits = true →
    s.regs.wbShift.toNat ≤ 15 → s.regs.wbR.toNat = 2 ^ s.regs.wbShift.toNat →
    s.regs.wbG.toNat = 2 ^ s.regs.wbShift.toNat → s.regs.wbB.toNat = 2 ^ s.regs.wbShift.toNat →
    s.regs.cm = #v[8192, 0, 0, 0, 8192, 0, 0, 0, 8192] →
    ∃ t u, exec .cpWb s = .next t ∧ exec .cpCc t = .next u ∧ u.fault = false ∧
      ∀ k, u.mem.rgb.read k = s.mem.rgb.read k

/-! ### The whole machine -/

/-- The invariant holds after a hardware reset. The parameters are the spec's defaults there (log 7). -/
def Obligations.ResetMeetsTheInvariant : Prop := State.reset.Inv

/-- Every step keeps the invariant: memories in canonical form and inside their spaces (R60), reserved register bits 0 (R23),
fault registers that agree with the latch (R27), a bound cursor inside a region of `IN` (R41, R125), built slots that hold a
prefix-free table (R42, R152), parameters that do not change (R46), and free values drawn before they are used (log 3). -/
def Obligations.EveryStepKeepsTheInvariant : Prop :=
  ∀ s t : State, s.Inv → step s = .next t → t.Inv ∧ t.params = s.params

/-- R77: no command changes an element of a space it is not listed as writing. -/
def Obligations.CommandsWriteOnlyTheirSpaces : Prop :=
  ∀ (i : Instr) (s t : State), exec i s = .next t →
    ∀ sp, sp ∉ i.writes → ∀ k, t.mem.hostRead k sp = s.mem.hostRead k sp

/-- R23, R28, R39: what commands do to registers and unit state. No command but `SYS.RESET` changes a register the host
configures, but for `DM.RUN`'s two; only `BR.READ`, `BR.PEEK`, `HU.SYM` and `HU.DEC` write `RES` without a fault; only
`HU.BUILD` changes a slot, and only its own; the stages after decompression leave the cursor alone. -/
def Obligations.CommandsLeaveTheConfigurationAlone : Prop :=
  ∀ (i : Instr) (s t : State), exec i s = .next t → i ≠ .sysReset →
    t.regs = { s.regs with
      faultCode := t.regs.faultCode, faultInfo := t.regs.faultInfo, res := t.regs.res
      rgbWidth := t.regs.rgbWidth, rgbHeight := t.regs.rgbHeight } ∧
    ((∀ dmode, i ≠ .dmRun dmode) → t.regs.rgbWidth = s.regs.rgbWidth ∧ t.regs.rgbHeight = s.regs.rgbHeight) ∧
    (t.fault = false → (∀ n, i ≠ .brRead n ∧ i ≠ .brPeek n) → (∀ slot, i ≠ .huSym slot ∧ i ≠ .huDec slot) →
      t.regs.res = s.regs.res) ∧
    (∀ slot : Slot, i ≠ .huBuild slot → t.hu[slot] = s.hu[slot]) ∧
    ((∃ slot, i = .huBuild slot) ∨ (∃ m, i = .ppNorm m) ∨ (∃ m, i = .dmRun m) ∨ i = .cpWb ∨ i = .cpCc ∨ i = .cpGamma →
      t.br = s.br) ∧
    t.params = s.params ∧ t.port = s.port ∧ t.readback = s.readback

/-- R61: "bytes outside the region are never read by any command". With `IN` replaced by one that agrees with it on the
cursor's region and on the region of `IN_OFF` and `IN_LEN`, every command does the same. -/
def Obligations.BytesOutsideTheRegionAreNeverRead : Prop :=
  ∀ (i : Instr) (s t : State) (inp : Memory 8),
    (∀ k, k < s.br.len.toNat → inp.read (s.br.base.toNat + k) = s.mem.inp.read (s.br.base.toNat + k)) →
    (∀ k, k < s.regs.inLen.toNat → inp.read (s.regs.inOff.toNat + k) = s.mem.inp.read (s.regs.inOff.toNat + k)) →
    exec i s = .next t →
    exec i { s with mem := { s.mem with inp := inp } } = .next { t with mem := { t.mem with inp := inp } }

/-! ### What ends a long run at one sample or one pixel -/

/-- R202 to R206: what ends a Nikon run. When every sample before `(row0, col0)`, row by row, follows the recurrence of
`NikonSamplesFollowTheRecurrence`: a fault that `HU.DEC` of the slot in use would take at that cursor is the fault of the run;
else, with the decoded difference `d0`, a predicted value outside `i32` faults `ARITH_OVERFLOW`, 0, and one outside the curve
`BOUNDS` with the value mod 2^32, the cursor after the difference. Whatever the dithering function (log 8). -/
def Obligations.NikonFaultsAtTheFirstBadSample : Prop :=
  ∀ (s : State) (d p : Nat → Nat → Int) (br : Nat → BitReader) (out : Nat → Sample) (rng : Nat → Word) (row0 col0 : Nat),
    s.fault = false → s.regs.compression.toNat = 34713 → s.mosaicFits = true → s.regionInside = true →
    let g := s.regs
    let w := g.width.toNat
    let h := g.height.toNat
    let slot (row : Nat) : Slot :=
      if g.nikonSplitEnabled ∧ g.nikonSplit.toNat ≤ row then g.nikonSlotB else g.nikonSlotA
    let seed (row col : Nat) : Int :=
      if row = 0 then (if col = 0 then g.vpred00.toInt else g.vpred01.toInt)
      else (if col = 0 then g.vpred10.toInt else g.vpred11.toInt)
    let base (row col : Nat) : Int := if 2 ≤ col then p row (col - 2) else if 2 ≤ row then p (row - 2) col else seed row col
    let here := br (row0 * w + col0)
    s.hu[g.nikonSlotA].built = true → (g.nikonSplitEnabled = true → s.hu[g.nikonSlotB].built = true) →
    g.curveEntries ≤ 65536 →
    br 0 = { bound := true, mode := .msb, base := g.inOff, len := g.inLen, pos := 0 } →
    rng 0 = ditherSeed s.params.dither →
    row0 < h → col0 < w →
    (∀ row col, col < w → row * w + col < row0 * w + col0 →
      huffDec s.mem.inp (slot row).val s.hu[slot row] (br (row * w + col)) = .ok (d row col, br (row * w + col + 1)) ∧
      p row col = d row col + base row col ∧
      0 ≤ p row col ∧ p row col < g.curveEntries ∧
      ditherStep s.params.dither s.mem.curve g.curveEntries (p row col).toNat (rng (row * w + col)) =
        (out (row * w + col), rng (row * w + col + 1))) →
    (∀ (code : FaultCode) (info : Word) (br' : BitReader),
      FaultsWith (.huDec (slot row0)) (s.setBr here) code info br' → FaultsWith .dcRun s code info br') ∧
    (∀ (d0 : Int) (br' : BitReader), huffDec s.mem.inp (slot row0).val s.hu[slot row0] here = .ok (d0, br') →
      let q := d0 + base row0 col0
      (q < -(2 ^ 31) ∨ 2 ^ 31 ≤ q → FaultsWith .dcRun s .arithOverflow 0 br') ∧
      (-(2 ^ 31) ≤ q → q < 2 ^ 31 → q < 0 ∨ (g.curveEntries : Int) ≤ q →
        FaultsWith .dcRun s .bounds (BitVec.ofInt 32 q) br'))

/-- R102, R261, R263: what ends a `DM.RUN` on an X-Trans pattern. Mode None faults `ILLEGAL_CFG` with the colour at the first
position, row by row, whose colour in `XTC` is above 2. Mode Linear faults at the first position whose entry is valid and has
a bad rule, there at the first bad channel: `ILLEGAL_CFG` with the word when it lists more than four neighbours; else at its
first bad neighbour, `ILLEGAL_CFG` with the word when the code is above 8, `BOUNDS` with the entry's index when it lies
outside the image. -/
def Obligations.XTransFaultsAtTheFirstBadPixel : Prop :=
  ∀ (s : State) (y0 x0 : Nat), s.fault = false → (s.regs.cfaCode = 4 ∨ s.regs.cfaCode = 5) → s.demosaicFits = true →
    let w := s.regs.width.toNat
    let h := s.regs.height.toNat
    let colour (y x : Nat) : Nat := s.mem.xtc.readNat (((s.regs.cfaCode - 4) * 6 + y % 6) * 6 + x % 6)
    let border (y x : Nat) : Nat :=
      3 * (if y = 0 then 1 else if y + 1 = h then 2 else 0) + (if x = 0 then 1 else if x + 1 = w then 2 else 0)
    let e (y x : Nat) : Nat := 4 * ((((s.regs.cfaCode - 4) * 6 + y % 6) * 6 + x % 6) * 9 + border y x)
    let valid (y x : Nat) : Bool := s.mem.xtr.readNat (e y x) % 2 == 1
    let word (y x c : Nat) : Word := s.mem.xtr.read (e y x + 1 + c)
    let k (y x c : Nat) : Nat := (word y x c).toNat % 8
    let d (y x c j : Nat) : Nat := (word y x c).toNat / 2 ^ (3 + 4 * j) % 16
    let inside (y x c j : Nat) : Prop :=
      1 ≤ y + d y x c j / 3 ∧ y + d y x c j / 3 ≤ h ∧ 1 ≤ x + d y x c j % 3 ∧ x + d y x c j % 3 ≤ w
    let legal (y x c : Nat) : Prop := k y x c ≤ 4 ∧ ∀ j, j < k y x c → d y x c j ≤ 8 ∧ inside y x c j
    y0 < h → x0 < w →
    ((∀ y x, x < w → y * w + x < y0 * w + x0 → colour y x ≤ 2) → 2 < colour y0 x0 →
      FaultsWith (.dmRun .none) s .illegalCfg (BitVec.ofNat 32 (colour y0 x0)) s.br) ∧
    (∀ c, c < 3 →
      (∀ y x c', x < w → y * w + x < y0 * w + x0 → c' < 3 → valid y x = true → legal y x c') →
      valid y0 x0 = true → (∀ c', c' < c → legal y0 x0 c') →
      (4 < k y0 x0 c → FaultsWith (.dmRun .linear) s .illegalCfg (word y0 x0 c) s.br) ∧
      (∀ j, k y0 x0 c ≤ 4 → j < k y0 x0 c → (∀ j', j' < j → d y0 x0 c j' ≤ 8 ∧ inside y0 x0 c j') →
        (8 < d y0 x0 c j → FaultsWith (.dmRun .linear) s .illegalCfg (word y0 x0 c) s.br) ∧
        (d y0 x0 c j ≤ 8 → ¬ inside y0 x0 c j →
          FaultsWith (.dmRun .linear) s .bounds (BitVec.ofNat 32 (e y0 x0)) s.br)))
end

