-- ==== Sys2Proof/Laws/State.lean ====
section
/-! SUPPORT. What each shared update of the state leaves in each field: one lemma per field per update, true by rfl. -/

namespace Sys2Proof.Machine

variable (s : State)

@[simp] theorem State.setRes_faultCode (v : Word) : (s.setRes v).regs.faultCode = s.regs.faultCode := rfl
@[simp] theorem State.setRes_faultInfo (v : Word) : (s.setRes v).regs.faultInfo = s.regs.faultInfo := rfl
@[simp] theorem State.setRes_res (v : Word) : (s.setRes v).regs.res = v := rfl
@[simp] theorem State.setRes_inOff (v : Word) : (s.setRes v).regs.inOff = s.regs.inOff := rfl
@[simp] theorem State.setRes_inLen (v : Word) : (s.setRes v).regs.inLen = s.regs.inLen := rfl
@[simp] theorem State.setRes_width (v : Word) : (s.setRes v).regs.width = s.regs.width := rfl
@[simp] theorem State.setRes_height (v : Word) : (s.setRes v).regs.height = s.regs.height := rfl
@[simp] theorem State.setRes_cfa (v : Word) : (s.setRes v).regs.cfa = s.regs.cfa := rfl
@[simp] theorem State.setRes_compression (v : Word) : (s.setRes v).regs.compression = s.regs.compression := rfl
@[simp] theorem State.setRes_unpackCfg (v : Word) : (s.setRes v).regs.unpackCfg = s.regs.unpackCfg := rfl
@[simp] theorem State.setRes_black (v : Word) : (s.setRes v).regs.black = s.regs.black := rfl
@[simp] theorem State.setRes_scale (v : Word) : (s.setRes v).regs.scale = s.regs.scale := rfl
@[simp] theorem State.setRes_curveLen (v : Word) : (s.setRes v).regs.curveLen = s.regs.curveLen := rfl
@[simp] theorem State.setRes_nikonCfg (v : Word) : (s.setRes v).regs.nikonCfg = s.regs.nikonCfg := rfl
@[simp] theorem State.setRes_nikonSplit (v : Word) : (s.setRes v).regs.nikonSplit = s.regs.nikonSplit := rfl
@[simp] theorem State.setRes_vpred00 (v : Word) : (s.setRes v).regs.vpred00 = s.regs.vpred00 := rfl
@[simp] theorem State.setRes_vpred01 (v : Word) : (s.setRes v).regs.vpred01 = s.regs.vpred01 := rfl
@[simp] theorem State.setRes_vpred10 (v : Word) : (s.setRes v).regs.vpred10 = s.regs.vpred10 := rfl
@[simp] theorem State.setRes_vpred11 (v : Word) : (s.setRes v).regs.vpred11 = s.regs.vpred11 := rfl
@[simp] theorem State.setRes_wbR (v : Word) : (s.setRes v).regs.wbR = s.regs.wbR := rfl
@[simp] theorem State.setRes_wbG (v : Word) : (s.setRes v).regs.wbG = s.regs.wbG := rfl
@[simp] theorem State.setRes_wbB (v : Word) : (s.setRes v).regs.wbB = s.regs.wbB := rfl
@[simp] theorem State.setRes_wbShift (v : Word) : (s.setRes v).regs.wbShift = s.regs.wbShift := rfl
@[simp] theorem State.setRes_rgbWidth (v : Word) : (s.setRes v).regs.rgbWidth = s.regs.rgbWidth := rfl
@[simp] theorem State.setRes_rgbHeight (v : Word) : (s.setRes v).regs.rgbHeight = s.regs.rgbHeight := rfl
@[simp] theorem State.setRes_cm (v : Word) : (s.setRes v).regs.cm = s.regs.cm := rfl
@[simp] theorem State.setRes_fault (v : Word) : (s.setRes v).fault = s.fault := rfl
@[simp] theorem State.setRes_br (v : Word) : (s.setRes v).br = s.br := rfl
@[simp] theorem State.setRes_hu (v : Word) : (s.setRes v).hu = s.hu := rfl
@[simp] theorem State.setRes_mem (v : Word) : (s.setRes v).mem = s.mem := rfl
@[simp] theorem State.setRes_params (v : Word) : (s.setRes v).params = s.params := rfl
@[simp] theorem State.setRes_draws (v : Word) : (s.setRes v).draws = s.draws := rfl
@[simp] theorem State.setRes_port (v : Word) : (s.setRes v).port = s.port := rfl
@[simp] theorem State.setRes_readback (v : Word) : (s.setRes v).readback = s.readback := rfl

@[simp] theorem State.setBr_regs (br : BitReader) : (s.setBr br).regs = s.regs := rfl
@[simp] theorem State.setBr_fault (br : BitReader) : (s.setBr br).fault = s.fault := rfl
@[simp] theorem State.setBr_br (br : BitReader) : (s.setBr br).br = br := rfl
@[simp] theorem State.setBr_hu (br : BitReader) : (s.setBr br).hu = s.hu := rfl
@[simp] theorem State.setBr_mem (br : BitReader) : (s.setBr br).mem = s.mem := rfl
@[simp] theorem State.setBr_params (br : BitReader) : (s.setBr br).params = s.params := rfl
@[simp] theorem State.setBr_draws (br : BitReader) : (s.setBr br).draws = s.draws := rfl
@[simp] theorem State.setBr_port (br : BitReader) : (s.setBr br).port = s.port := rfl
@[simp] theorem State.setBr_readback (br : BitReader) : (s.setBr br).readback = s.readback := rfl

@[simp] theorem State.setMos_regs (m : Memory 16) : (s.setMos m).regs = s.regs := rfl
@[simp] theorem State.setMos_fault (m : Memory 16) : (s.setMos m).fault = s.fault := rfl
@[simp] theorem State.setMos_br (m : Memory 16) : (s.setMos m).br = s.br := rfl
@[simp] theorem State.setMos_hu (m : Memory 16) : (s.setMos m).hu = s.hu := rfl
@[simp] theorem State.setMos_inp (m : Memory 16) : (s.setMos m).mem.inp = s.mem.inp := rfl
@[simp] theorem State.setMos_mos (m : Memory 16) : (s.setMos m).mem.mos = m := rfl
@[simp] theorem State.setMos_rgb (m : Memory 16) : (s.setMos m).mem.rgb = s.mem.rgb := rfl
@[simp] theorem State.setMos_hts (m : Memory 16) : (s.setMos m).mem.hts = s.mem.hts := rfl
@[simp] theorem State.setMos_curve (m : Memory 16) : (s.setMos m).mem.curve = s.mem.curve := rfl
@[simp] theorem State.setMos_glut (m : Memory 16) : (s.setMos m).mem.glut = s.mem.glut := rfl
@[simp] theorem State.setMos_xtr (m : Memory 16) : (s.setMos m).mem.xtr = s.mem.xtr := rfl
@[simp] theorem State.setMos_xtc (m : Memory 16) : (s.setMos m).mem.xtc = s.mem.xtc := rfl
@[simp] theorem State.setMos_params (m : Memory 16) : (s.setMos m).params = s.params := rfl
@[simp] theorem State.setMos_draws (m : Memory 16) : (s.setMos m).draws = s.draws := rfl
@[simp] theorem State.setMos_port (m : Memory 16) : (s.setMos m).port = s.port := rfl
@[simp] theorem State.setMos_readback (m : Memory 16) : (s.setMos m).readback = s.readback := rfl

@[simp] theorem State.setRgb_regs (m : Memory 16) : (s.setRgb m).regs = s.regs := rfl
@[simp] theorem State.setRgb_fault (m : Memory 16) : (s.setRgb m).fault = s.fault := rfl
@[simp] theorem State.setRgb_br (m : Memory 16) : (s.setRgb m).br = s.br := rfl
@[simp] theorem State.setRgb_hu (m : Memory 16) : (s.setRgb m).hu = s.hu := rfl
@[simp] theorem State.setRgb_inp (m : Memory 16) : (s.setRgb m).mem.inp = s.mem.inp := rfl
@[simp] theorem State.setRgb_mos (m : Memory 16) : (s.setRgb m).mem.mos = s.mem.mos := rfl
@[simp] theorem State.setRgb_rgb (m : Memory 16) : (s.setRgb m).mem.rgb = m := rfl
@[simp] theorem State.setRgb_hts (m : Memory 16) : (s.setRgb m).mem.hts = s.mem.hts := rfl
@[simp] theorem State.setRgb_curve (m : Memory 16) : (s.setRgb m).mem.curve = s.mem.curve := rfl
@[simp] theorem State.setRgb_glut (m : Memory 16) : (s.setRgb m).mem.glut = s.mem.glut := rfl
@[simp] theorem State.setRgb_xtr (m : Memory 16) : (s.setRgb m).mem.xtr = s.mem.xtr := rfl
@[simp] theorem State.setRgb_xtc (m : Memory 16) : (s.setRgb m).mem.xtc = s.mem.xtc := rfl
@[simp] theorem State.setRgb_params (m : Memory 16) : (s.setRgb m).params = s.params := rfl
@[simp] theorem State.setRgb_draws (m : Memory 16) : (s.setRgb m).draws = s.draws := rfl
@[simp] theorem State.setRgb_port (m : Memory 16) : (s.setRgb m).port = s.port := rfl
@[simp] theorem State.setRgb_readback (m : Memory 16) : (s.setRgb m).readback = s.readback := rfl

@[simp] theorem State.unbuildSlot_regs (slot : Slot) : (s.unbuildSlot slot).regs = s.regs := rfl
@[simp] theorem State.unbuildSlot_fault (slot : Slot) : (s.unbuildSlot slot).fault = s.fault := rfl
@[simp] theorem State.unbuildSlot_br (slot : Slot) : (s.unbuildSlot slot).br = s.br := rfl
@[simp] theorem State.unbuildSlot_hu (slot : Slot) : (s.unbuildSlot slot).hu = s.hu.set slot.val s.hu[slot].unbuild := rfl
@[simp] theorem State.unbuildSlot_mem (slot : Slot) : (s.unbuildSlot slot).mem = s.mem := rfl
@[simp] theorem State.unbuildSlot_params (slot : Slot) : (s.unbuildSlot slot).params = s.params := rfl
@[simp] theorem State.unbuildSlot_draws (slot : Slot) : (s.unbuildSlot slot).draws = s.draws := rfl
@[simp] theorem State.unbuildSlot_port (slot : Slot) : (s.unbuildSlot slot).port = s.port := rfl
@[simp] theorem State.unbuildSlot_readback (slot : Slot) : (s.unbuildSlot slot).readback = s.readback := rfl

@[simp] theorem State.withCommand_regs (c : Word) : (s.withCommand c).regs = s.regs := rfl
@[simp] theorem State.withCommand_fault (c : Word) : (s.withCommand c).fault = s.fault := rfl
@[simp] theorem State.withCommand_br (c : Word) : (s.withCommand c).br = s.br := rfl
@[simp] theorem State.withCommand_hu (c : Word) : (s.withCommand c).hu = s.hu := rfl
@[simp] theorem State.withCommand_mem (c : Word) : (s.withCommand c).mem = s.mem := rfl
@[simp] theorem State.withCommand_params (c : Word) : (s.withCommand c).params = s.params := rfl
@[simp] theorem State.withCommand_draws (c : Word) : (s.withCommand c).draws = s.draws := rfl
@[simp] theorem State.withCommand_port (c : Word) : (s.withCommand c).port = HostAction.write 0 0 c :: s.port := rfl
@[simp] theorem State.withCommand_readback (c : Word) : (s.withCommand c).readback = s.readback := rfl

@[simp] theorem takeFault_faultCode (ws : List Space) (c : Cause) : (takeFault ws c s).regs.faultCode = c.code.number := rfl
@[simp] theorem takeFault_faultInfo (ws : List Space) (c : Cause) : (takeFault ws c s).regs.faultInfo = c.info := rfl
@[simp] theorem takeFault_res (ws : List Space) (c : Cause) : (takeFault ws c s).regs.res = Config.unspecified 32 s.draws 0 := rfl
@[simp] theorem takeFault_inOff (ws : List Space) (c : Cause) : (takeFault ws c s).regs.inOff = s.regs.inOff := rfl
@[simp] theorem takeFault_inLen (ws : List Space) (c : Cause) : (takeFault ws c s).regs.inLen = s.regs.inLen := rfl
@[simp] theorem takeFault_width (ws : List Space) (c : Cause) : (takeFault ws c s).regs.width = s.regs.width := rfl
@[simp] theorem takeFault_height (ws : List Space) (c : Cause) : (takeFault ws c s).regs.height = s.regs.height := rfl
@[simp] theorem takeFault_cfa (ws : List Space) (c : Cause) : (takeFault ws c s).regs.cfa = s.regs.cfa := rfl
@[simp] theorem takeFault_compression (ws : List Space) (c : Cause) : (takeFault ws c s).regs.compression = s.regs.compression := rfl
@[simp] theorem takeFault_unpackCfg (ws : List Space) (c : Cause) : (takeFault ws c s).regs.unpackCfg = s.regs.unpackCfg := rfl
@[simp] theorem takeFault_black (ws : List Space) (c : Cause) : (takeFault ws c s).regs.black = s.regs.black := rfl
@[simp] theorem takeFault_scale (ws : List Space) (c : Cause) : (takeFault ws c s).regs.scale = s.regs.scale := rfl
@[simp] theorem takeFault_curveLen (ws : List Space) (c : Cause) : (takeFault ws c s).regs.curveLen = s.regs.curveLen := rfl
@[simp] theorem takeFault_nikonCfg (ws : List Space) (c : Cause) : (takeFault ws c s).regs.nikonCfg = s.regs.nikonCfg := rfl
@[simp] theorem takeFault_nikonSplit (ws : List Space) (c : Cause) : (takeFault ws c s).regs.nikonSplit = s.regs.nikonSplit := rfl
@[simp] theorem takeFault_vpred00 (ws : List Space) (c : Cause) : (takeFault ws c s).regs.vpred00 = s.regs.vpred00 := rfl
@[simp] theorem takeFault_vpred01 (ws : List Space) (c : Cause) : (takeFault ws c s).regs.vpred01 = s.regs.vpred01 := rfl
@[simp] theorem takeFault_vpred10 (ws : List Space) (c : Cause) : (takeFault ws c s).regs.vpred10 = s.regs.vpred10 := rfl
@[simp] theorem takeFault_vpred11 (ws : List Space) (c : Cause) : (takeFault ws c s).regs.vpred11 = s.regs.vpred11 := rfl
@[simp] theorem takeFault_wbR (ws : List Space) (c : Cause) : (takeFault ws c s).regs.wbR = s.regs.wbR := rfl
@[simp] theorem takeFault_wbG (ws : List Space) (c : Cause) : (takeFault ws c s).regs.wbG = s.regs.wbG := rfl
@[simp] theorem takeFault_wbB (ws : List Space) (c : Cause) : (takeFault ws c s).regs.wbB = s.regs.wbB := rfl
@[simp] theorem takeFault_wbShift (ws : List Space) (c : Cause) : (takeFault ws c s).regs.wbShift = s.regs.wbShift := rfl
@[simp] theorem takeFault_rgbWidth (ws : List Space) (c : Cause) : (takeFault ws c s).regs.rgbWidth = s.regs.rgbWidth := rfl
@[simp] theorem takeFault_rgbHeight (ws : List Space) (c : Cause) : (takeFault ws c s).regs.rgbHeight = s.regs.rgbHeight := rfl
@[simp] theorem takeFault_cm (ws : List Space) (c : Cause) : (takeFault ws c s).regs.cm = s.regs.cm := rfl
@[simp] theorem takeFault_fault (ws : List Space) (c : Cause) : (takeFault ws c s).fault = true := rfl
@[simp] theorem takeFault_br (ws : List Space) (c : Cause) : (takeFault ws c s).br = s.br := rfl
@[simp] theorem takeFault_hu (ws : List Space) (c : Cause) : (takeFault ws c s).hu = s.hu := rfl
@[simp] theorem takeFault_mem (ws : List Space) (c : Cause) : (takeFault ws c s).mem = s.mem.spoilAll ws (s.draws + 1) := rfl
@[simp] theorem takeFault_params (ws : List Space) (c : Cause) : (takeFault ws c s).params = s.params := rfl
@[simp] theorem takeFault_draws (ws : List Space) (c : Cause) : (takeFault ws c s).draws = s.draws + 1 + ws.length := rfl
@[simp] theorem takeFault_port (ws : List Space) (c : Cause) : (takeFault ws c s).port = s.port := rfl
@[simp] theorem takeFault_readback (ws : List Space) (c : Cause) : (takeFault ws c s).readback = s.readback := rfl

@[simp] theorem systemReset_regs : (systemReset s).regs = Regs.zero := rfl
@[simp] theorem systemReset_fault : (systemReset s).fault = false := rfl
@[simp] theorem systemReset_br : (systemReset s).br = BitReader.unbound := rfl
@[simp] theorem systemReset_hu : (systemReset s).hu = HuffSlot.allUnspecified s.draws := rfl
@[simp] theorem systemReset_mem : (systemReset s).mem = s.mem := rfl
@[simp] theorem systemReset_params : (systemReset s).params = s.params := rfl
@[simp] theorem systemReset_draws : (systemReset s).draws = s.draws + 1 := rfl
@[simp] theorem systemReset_port : (systemReset s).port = s.port := rfl
@[simp] theorem systemReset_readback : (systemReset s).readback = s.readback := rfl

@[simp] theorem hardwareReset_regs : (hardwareReset s).regs = Regs.zero := rfl
@[simp] theorem hardwareReset_fault : (hardwareReset s).fault = false := rfl
@[simp] theorem hardwareReset_br : (hardwareReset s).br = BitReader.unbound := rfl
@[simp] theorem hardwareReset_hu : (hardwareReset s).hu = HuffSlot.allUnspecified s.draws := rfl
@[simp] theorem hardwareReset_mem : (hardwareReset s).mem = Memories.blank (s.draws + 1) := rfl
@[simp] theorem hardwareReset_params : (hardwareReset s).params = s.params := rfl
@[simp] theorem hardwareReset_draws : (hardwareReset s).draws = s.draws + 9 := rfl
@[simp] theorem hardwareReset_port : (hardwareReset s).port = s.port := rfl
@[simp] theorem hardwareReset_readback : (hardwareReset s).readback = s.readback := rfl

@[simp] theorem BitReader.unbind_bound (br : BitReader) : br.unbind.bound = false := rfl
@[simp] theorem BitReader.unbind_mode (br : BitReader) : br.unbind.mode = br.mode := rfl
@[simp] theorem BitReader.unbind_base (br : BitReader) : br.unbind.base = br.base := rfl
@[simp] theorem BitReader.unbind_len (br : BitReader) : br.unbind.len = br.len := rfl
@[simp] theorem BitReader.unbind_pos (br : BitReader) : br.unbind.pos = br.pos := rfl
@[simp] theorem bindCursor_bound (m : ReaderMode) (g : Regs) : (bindCursor m g).bound = true := rfl
@[simp] theorem bindCursor_mode (m : ReaderMode) (g : Regs) : (bindCursor m g).mode = m := rfl
@[simp] theorem bindCursor_base (m : ReaderMode) (g : Regs) : (bindCursor m g).base = g.inOff := rfl
@[simp] theorem bindCursor_len (m : ReaderMode) (g : Regs) : (bindCursor m g).len = g.inLen := rfl
@[simp] theorem bindCursor_pos (m : ReaderMode) (g : Regs) : (bindCursor m g).pos = 0 := rfl
@[simp] theorem HuffSlot.unbuild_built (h : HuffSlot) : h.unbuild.built = false := rfl
@[simp] theorem HuffSlot.unbuild_maxlen (h : HuffSlot) : h.unbuild.maxlen = h.maxlen := rfl
@[simp] theorem HuffSlot.unbuild_lut (h : HuffSlot) : h.unbuild.lut = h.lut := rfl

end Sys2Proof.Machine
end

