-- ==== Sys2Proof/Laws/Memory.lean ====
section
/-! SUPPORT. The laws of a memory: a read after a write, and that every operation keeps the canonical form. -/

namespace Sys2Proof.Machine

variable {w : Nat}

theorem lookupCell_insertCell (i j : Nat) (v : BitVec w) (l : List (Nat × BitVec w)) :
    lookupCell j (insertCell i v l) = if j = i then some v else lookupCell j l := by
  induction l with
  | nil => simp [insertCell, lookupCell]
  | cons c rest ih =>
    obtain ⟨k, u⟩ := c
    simp only [insertCell]
    split
    · simp [lookupCell]
    · split
      · subst_vars; simp only [lookupCell]; split <;> simp_all
      · simp only [lookupCell, ih]
        by_cases h1 : j = k
        · have h2 : k ≠ i := fun h => ‹¬i = k› h.symm
          simp [h1, h2]
        · simp [h1]

/-- A write leaves its value. -/
@[simp] theorem Memory.read_write_same (m : Memory w) (i : Nat) (v : BitVec w) : (m.write i v).read i = v := by
  simp [Memory.read, Memory.write, lookupCell_insertCell]

/-- A write leaves every other element alone. -/
theorem Memory.read_write_ne (m : Memory w) {i j : Nat} (v : BitVec w) (h : j ≠ i) : (m.write i v).read j = m.read j := by
  simp [Memory.read, Memory.write, lookupCell_insertCell, h, Memory.unlisted]

/-- Both at once. -/
theorem Memory.read_write (m : Memory w) (i j : Nat) (v : BitVec w) :
    (m.write i v).read j = if j = i then v else m.read j := by
  split
  · subst_vars; simp
  · exact m.read_write_ne v ‹_›

theorem Memory.readNat_write (m : Memory w) (i j : Nat) (v : BitVec w) :
    (m.write i v).readNat j = if j = i then v.toNat else m.readNat j := by
  simp only [Memory.readNat, Memory.read_write]; split <;> rfl

@[simp] theorem Memory.write_epoch (m : Memory w) (i : Nat) (v : BitVec w) : (m.write i v).epoch = m.epoch := rfl

@[simp] theorem Memory.blank_epoch (d : Nat) : (Memory.blank w d).epoch = d := rfl

/-- What a memory of which nothing is specified reads as: free values. -/
@[simp] theorem Memory.read_blank (d i : Nat) : (Memory.blank w d).read i = Config.unspecified w d i := rfl

theorem Memory.wf_iff (size : Nat) (m : Memory w) :
    m.wf size = true ↔ m.cells.Pairwise (fun a b => a.1 < b.1) ∧ ∀ c ∈ m.cells, c.1 < size := by
  simp [Memory.wf]

@[simp] theorem Memory.blank_wf (size d : Nat) : (Memory.blank w d).wf size = true := by simp [Memory.wf, Memory.blank]

theorem mem_insertCell {i : Nat} {v : BitVec w} {l : List (Nat × BitVec w)} {c : Nat × BitVec w}
    (h : c ∈ insertCell i v l) : c = (i, v) ∨ c ∈ l := by
  induction l with
  | nil => simpa [insertCell] using h
  | cons d rest ih =>
    obtain ⟨k, u⟩ := d
    simp only [insertCell] at h
    split at h
    · simpa using h
    · split at h
      · rcases List.mem_cons.mp h with h | h <;> simp [h]
      · rcases List.mem_cons.mp h with h | h
        · simp [h]
        · rcases ih h with h | h <;> simp [h]

theorem insertCell_pairwise (i : Nat) (v : BitVec w) {l : List (Nat × BitVec w)} (h : l.Pairwise (fun a b => a.1 < b.1)) :
    (insertCell i v l).Pairwise (fun a b => a.1 < b.1) := by
  induction l with
  | nil => simp [insertCell]
  | cons d rest ih =>
    obtain ⟨k, u⟩ := d
    simp only [List.pairwise_cons] at h
    simp only [insertCell]
    split
    · simp only [List.pairwise_cons]
      refine ⟨fun c hc => ?_, h.1, h.2⟩
      rcases List.mem_cons.mp hc with hc | hc
      · simpa [hc] using ‹i < k›
      · exact Nat.lt_trans ‹i < k› (h.1 c hc)
    · split
      · subst_vars; simpa only [List.pairwise_cons] using h
      · simp only [List.pairwise_cons]
        refine ⟨fun c hc => ?_, ih h.2⟩
        rcases mem_insertCell hc with hc | hc
        · subst hc; exact Nat.lt_of_le_of_ne (Nat.le_of_not_lt ‹_›) (Ne.symm ‹_›)
        · exact h.1 c hc

/-- A write inside the space keeps the canonical form. -/
theorem Memory.write_wf {size : Nat} {m : Memory w} (h : m.wf size = true) {i : Nat} (hi : i < size) (v : BitVec w) :
    (m.write i v).wf size = true := by
  rw [Memory.wf_iff] at h ⊢
  refine ⟨insertCell_pairwise i v h.1, fun c hc => ?_⟩
  rcases mem_insertCell hc with hc | hc
  · subst hc; exact hi
  · exact h.2 c hc

/-- The canonical form of the eight memories, memory by memory. -/
theorem Memories.wf_iff (p : Config.Params) (m : Memories) :
    m.wf p = true ↔ m.inp.wf p.inSize = true ∧ m.mos.wf p.maxPixels = true ∧ m.rgb.wf (3 * p.maxPixels) = true
      ∧ m.hts.wf Config.htsSize = true ∧ m.curve.wf Config.curveSize = true ∧ m.glut.wf Config.glutSize = true
      ∧ m.xtr.wf Config.xtrSize = true ∧ m.xtc.wf Config.xtcSize = true := by
  simp only [Memories.wf, spaceSize, Bool.and_eq_true, and_assoc]

@[simp] theorem Memories.blank_wf (p : Config.Params) (d : Nat) : (Memories.blank d).wf p = true := by
  simp [Memories.wf_iff, Memories.blank]

/-- Making a space unspecified keeps the canonical form. -/
theorem Memories.spoil_wf {p : Config.Params} {m : Memories} (h : m.wf p = true) (d : Nat) (sp : Space) :
    (m.spoil d sp).wf p = true := by
  rw [Memories.wf_iff] at h ⊢
  cases sp <;> simp_all [Memories.spoil]

theorem Memories.spoilAll_wf {p : Config.Params} (ws : List Space) :
    ∀ {m : Memories} (d : Nat), m.wf p = true → (m.spoilAll ws d).wf p = true := by
  induction ws with
  | nil => intro m d h; exact h
  | cons sp rest ih => intro m d h; exact ih (d + 1) (Memories.spoil_wf h d sp)

@[simp] theorem Memories.spoilAll_nil (m : Memories) (d : Nat) : m.spoilAll [] d = m := rfl
@[simp] theorem Memories.spoilAll_mos (m : Memories) (d : Nat) : m.spoilAll [.mos] d = { m with mos := .blank 16 d } := rfl
@[simp] theorem Memories.spoilAll_rgb (m : Memories) (d : Nat) : m.spoilAll [.rgb] d = { m with rgb := .blank 16 d } := rfl

/-- A host write inside a space keeps the canonical form. -/
theorem Memories.hostWrite_wf {p : Config.Params} {m : Memories} (h : m.wf p = true) {sp : Space} {i : Nat}
    (hi : i < spaceSize p sp) (v : Word) : (m.hostWrite i v sp).wf p = true := by
  rw [Memories.wf_iff] at h ⊢
  obtain ⟨h1, h2, h3, h4, h5, h6, h7, h8⟩ := h
  cases sp <;> simp only [spaceSize] at hi <;> simp only [Memories.hostWrite]
  · exact ⟨h1, h2, h3, h4, h5, h6, h7, h8⟩
  · exact ⟨Memory.write_wf h1 hi _, h2, h3, h4, h5, h6, h7, h8⟩
  · exact ⟨h1, Memory.write_wf h2 hi _, h3, h4, h5, h6, h7, h8⟩
  · exact ⟨h1, h2, Memory.write_wf h3 hi _, h4, h5, h6, h7, h8⟩
  · exact ⟨h1, h2, h3, Memory.write_wf h4 hi _, h5, h6, h7, h8⟩
  · exact ⟨h1, h2, h3, h4, Memory.write_wf h5 hi _, h6, h7, h8⟩
  · exact ⟨h1, h2, h3, h4, h5, Memory.write_wf h6 hi _, h7, h8⟩
  · exact ⟨h1, h2, h3, h4, h5, h6, Memory.write_wf h7 hi _, h8⟩
  · exact ⟨h1, h2, h3, h4, h5, h6, h7, Memory.write_wf h8 hi _⟩

end Sys2Proof.Machine
end

