-- ==== Sys2Proof/Laws/Ops.lean ====
section
/-! SUPPORT. What the shared operations can do, said once each: the loops, the end of a command, and the guard every command
but `SYS.RESET` goes through. -/

namespace Sys2Proof.Machine

variable {σ ε : Type}

/-! ### Loops that may raise -/

theorem loopFrom_succ (f : Nat → σ → Except ε σ) (k : Nat) :
    ∀ (i : Nat) (s : σ), loopFrom f (k + 1) i s = (loopFrom f k i s).bind (f (i + k)) := by
  induction k with
  | zero => intro i s; simp only [loopFrom, Except.bind, Nat.add_zero]; cases f i s <;> rfl
  | succ k ih =>
    intro i s
    rw [loopFrom]
    conv => rhs; rw [loopFrom]
    cases f i s with
    | error e => rfl
    | ok s' => simp only [ih]; rw [show i + 1 + k = i + (k + 1) by omega]

@[simp] theorem loop_zero (f : Nat → σ → Except ε σ) (s : σ) : loop 0 f s = .ok s := rfl

/-- The last turn of a loop. -/
theorem loop_succ (n : Nat) (f : Nat → σ → Except ε σ) (s : σ) : loop (n + 1) f s = (loop n f s).bind (f n) := by
  rw [loop, loopFrom_succ, Nat.zero_add]; rfl

/-- The induction of a loop that ends well: what holds at the start and is kept by every turn holds at the end. -/
theorem loop_induct {P : Nat → σ → Prop} {f : Nat → σ → Except ε σ} {s : σ} (h0 : P 0 s) :
    ∀ {n : Nat} {t : σ}, (∀ i, i < n → ∀ a b, P i a → f i a = .ok b → P (i + 1) b) → loop n f s = .ok t → P n t := by
  intro n
  induction n with
  | zero => intro t _ h; cases h; exact h0
  | succ n ih =>
    intro t step h
    rw [loop_succ] at h
    cases hl : loop n f s with
    | error e => simp [hl, Except.bind] at h
    | ok a =>
      rw [hl] at h
      exact step n (Nat.lt_succ_self n) a t (ih (fun i hi => step i (Nat.lt_succ_of_lt hi)) hl) h

/-- A loop whose every turn ends well ends well. -/
theorem loop_total {P : Nat → σ → Prop} {f : Nat → σ → Except ε σ} {s : σ} (h0 : P 0 s) :
    ∀ {n : Nat}, (∀ i, i < n → ∀ a, P i a → ∃ b, f i a = .ok b ∧ P (i + 1) b) → ∃ t, loop n f s = .ok t ∧ P n t := by
  intro n
  induction n with
  | zero => intro _; exact ⟨s, rfl, h0⟩
  | succ n ih =>
    intro step
    obtain ⟨a, ha, hp⟩ := ih (fun i hi => step i (Nat.lt_succ_of_lt hi))
    obtain ⟨b, hb, hq⟩ := step n (Nat.lt_succ_self n) a hp
    exact ⟨b, by simp [loop_succ, ha, Except.bind, hb], hq⟩

/-- A loop that raises: some turn does, after turns that ended well. -/
theorem loop_raises {f : Nat → σ → Except ε σ} {s : σ} {e : ε} :
    ∀ {n : Nat}, loop n f s = .error e → ∃ i a, i < n ∧ loop i f s = .ok a ∧ f i a = .error e := by
  intro n
  induction n with
  | zero => intro h; cases h
  | succ n ih =>
    intro h
    rw [loop_succ] at h
    cases hl : loop n f s with
    | error e' =>
      rw [hl] at h; cases h
      obtain ⟨i, a, hi, h1, h2⟩ := ih hl
      exact ⟨i, a, Nat.lt_succ_of_lt hi, h1, h2⟩
    | ok a => rw [hl] at h; exact ⟨n, a, Nat.lt_succ_self n, hl, h⟩

theorem loopFrom_error {f : Nat → σ → Except ε σ} {e : ε} :
    ∀ {k i : Nat} {s a : σ} {j : Nat}, loopFrom f j i s = .ok a → j < k → f (i + j) a = .error e →
      loopFrom f k i s = .error e := by
  intro k
  induction k with
  | zero => intro i s a j _ h; omega
  | succ k ih =>
    intro i s a j h1 hj h2
    cases j with
    | zero => cases h1; rw [Nat.add_zero] at h2; rw [loopFrom, h2]
    | succ j =>
      rw [loopFrom] at h1 ⊢
      cases hf : f i s with
      | error e' => simp [hf] at h1
      | ok s' =>
        rw [hf] at h1
        exact ih h1 (by omega) (by rw [← h2]; congr 1; omega)

/-- A turn that raises ends the loop. -/
theorem loop_error {f : Nat → σ → Except ε σ} {n i : Nat} {s a : σ} {e : ε} (h1 : loop i f s = .ok a) (hi : i < n)
    (h2 : f i a = .error e) : loop n f s = .error e :=
  loopFrom_error h1 hi (by rwa [Nat.zero_add])

/-! ### Loops over rows and columns -/

/-- A loop over rows of `w` turns each, every row begun by `start`, whose every turn ends well ends well. -/
theorem rows_total {P : Nat → Nat → σ → Prop} {f : Nat → Nat → σ → Except ε σ} {start : Nat → σ → σ} {s : σ} {w : Nat}
    (h0 : P 0 0 (start 0 s)) :
    ∀ {h : Nat}, (∀ y a, y < h → P y w a → P (y + 1) 0 (start (y + 1) a)) →
      (∀ y x a, y < h → x < w → P y x a → ∃ b, f y x a = .ok b ∧ P y (x + 1) b) →
      ∃ t, loop h (fun y a => loop w (f y) (start y a)) s = .ok t ∧ P h 0 (start h t) := by
  intro h turn step
  refine loop_total (P := fun y a => P y 0 (start y a)) h0 (fun y hy a ha => ?_)
  obtain ⟨b, hb, hp⟩ := loop_total (P := P y) (n := w) ha (fun x hx a ha => step y x a hy hx ha)
  exact ⟨b, hb, turn y b hy hp⟩

/-- Such a loop raises at row `y0`, column `x0` when every turn before that one ends well and that one raises. -/
theorem rows_error {P : Nat → Nat → σ → Prop} {f : Nat → Nat → σ → Except ε σ} {start : Nat → σ → σ} {s : σ} {e : ε}
    {h w y0 x0 : Nat} (h0 : P 0 0 (start 0 s)) (hy : y0 < h) (hx : x0 < w)
    (turn : ∀ y a, y < y0 → P y w a → P (y + 1) 0 (start (y + 1) a))
    (step : ∀ y x a, x < w → y < y0 ∨ y = y0 ∧ x < x0 → P y x a → ∃ b, f y x a = .ok b ∧ P y (x + 1) b)
    (raises : ∀ a, P y0 x0 a → f y0 x0 a = .error e) :
    loop h (fun y a => loop w (f y) (start y a)) s = .error e := by
  obtain ⟨a, ha, hp⟩ := rows_total h0 turn (fun y x a hy hx => step y x a hx (.inl hy))
  obtain ⟨b, hb, hq⟩ := loop_total (P := P y0) (n := x0) hp (fun x hx' a ha => step y0 x a (by omega) (.inr ⟨rfl, hx'⟩) ha)
  exact loop_error ha hy (loop_error hb hx (raises b hq))

/-! ### Loops that cannot raise -/

theorem repeatFrom_succ (f : Nat → σ → σ) (k : Nat) :
    ∀ (i : Nat) (s : σ), repeatFrom f (k + 1) i s = f (i + k) (repeatFrom f k i s) := by
  induction k with
  | zero => intro i s; rfl
  | succ k ih => intro i s; rw [repeatFrom, ih, repeatFrom, show i + 1 + k = i + (k + 1) by omega]

@[simp] theorem repeatTimes_zero (f : Nat → σ → σ) (s : σ) : repeatTimes 0 f s = s := rfl

theorem repeatTimes_succ (n : Nat) (f : Nat → σ → σ) (s : σ) : repeatTimes (n + 1) f s = f n (repeatTimes n f s) := by
  rw [repeatTimes, repeatFrom_succ, Nat.zero_add]; rfl

theorem repeatTimes_induct {P : Nat → σ → Prop} {f : Nat → σ → σ} {s : σ} (h0 : P 0 s) :
    ∀ {n : Nat}, (∀ i, i < n → ∀ a, P i a → P (i + 1) (f i a)) → P n (repeatTimes n f s) := by
  intro n
  induction n with
  | zero => intro _; exact h0
  | succ n ih =>
    intro step
    rw [repeatTimes_succ]
    exact step n (Nat.lt_succ_self n) _ (ih (fun i hi => step i (Nat.lt_succ_of_lt hi)))

/-- Filling `n` elements from the first on, each with a value of its own. -/
theorem read_repeatTimes_write {w : Nat} (g : Nat → BitVec w) (m : Memory w) (j : Nat) :
    ∀ n, (repeatTimes n (fun k a => a.write k (g k)) m).read j = if j < n then g j else m.read j := by
  intro n
  induction n with
  | zero => simp
  | succ n ih =>
    rw [repeatTimes_succ, Memory.read_write, ih]
    by_cases h : j = n
    · simp [h]
    · simp only [h, if_false]; split <;> split <;> first | rfl | omega

/-! ### The end of a command, and its guard -/

@[simp] theorem settle_ok (ws : List Space) (b s' : State) : settle ws b (.ok s') = s' := rfl

@[simp] theorem settle_error (ws : List Space) (b : State) (e : Raised) :
    settle ws b (.error e) = takeFault ws e.cause (b.setBr e.br) := rfl

/-- In the fault state a command does nothing (R336). -/
theorem whenAccepting_of_fault {s : State} (h : s.fault = true) (f : State → State) : whenAccepting s f = .next s := by
  simp [whenAccepting, h]

/-- Otherwise it runs. -/
theorem whenAccepting_of_ok {s : State} (h : s.fault = false) (f : State → State) : whenAccepting s f = .next (f s) := by
  simp [whenAccepting, h]

/-- All a guarded command can answer. -/
theorem whenAccepting_cases {s t : State} {f : State → State} (h : whenAccepting s f = .next t) :
    (s.fault = true ∧ t = s) ∨ (s.fault = false ∧ t = f s) := by
  cases hf : s.fault <;> simp [whenAccepting, hf] at h <;> simp [h]

/-- All a command can end in: the state its pseudocode reached, or a fault taken at the cursor where it was raised. -/
theorem settle_cases (ws : List Space) (b : State) (r : Except Raised State) :
    (∃ s', r = .ok s' ∧ settle ws b r = s') ∨
    (∃ e, r = .error e ∧ settle ws b r = takeFault ws e.cause (b.setBr e.br)) := by
  cases r with
  | ok s' => exact .inl ⟨s', rfl, rfl⟩
  | error e => exact .inr ⟨e, rfl, rfl⟩

@[simp] theorem raiseAt_eq (s : State) (code : FaultCode) (info : Word) :
    raiseAt s code info = .error ⟨⟨code, info⟩, s.br⟩ := rfl

@[simp] theorem State.setBr_self (s : State) : s.setBr s.br = s := rfl

/-- Every fault code is one of 1 to 15 (R331). -/
theorem FaultCode.number_bounds (c : FaultCode) : 1 ≤ c.number.toNat ∧ c.number.toNat ≤ 15 := by cases c <;> decide

end Sys2Proof.Machine
end

