-- ==== Sys2Proof/Laws/BitReader.lean ====
section
/-! SUPPORT. The laws of the bit reader: when its primitives end well and all they can answer, what the cursor becomes, the bits of a
stream as slices of one integer, and that a value depends on the bytes of the region alone. -/

namespace Sys2Proof.Machine

variable {inp : Memory 8} {br : BitReader} {n p : Nat}

@[simp] theorem inRange_iff : inRange br p n = true ↔ CanRead br p n := by
  cases h : br.mode <;> simp [inRange, CanRead, h] <;> rfl

theorem inRange_false_iff : inRange br p n = false ↔ ¬ CanRead br p n := by
  rw [← inRange_iff, Bool.not_eq_true]

/-- Fewer bits may be read where more may. -/
theorem CanRead.mono {m : Nat} (h : CanRead br p n) (hm : m ≤ n) : CanRead br p m := by
  rcases h with ⟨h, hn⟩ | ⟨h, hn⟩
  · exact .inl ⟨h, by omega⟩
  · exact .inr ⟨h, by omega⟩

@[simp] theorem BitReader.advance_zero : br.advance 0 = br := by simp [BitReader.advance]

@[simp] theorem BitReader.advance_bound : (br.advance n).bound = br.bound := rfl
@[simp] theorem BitReader.advance_mode : (br.advance n).mode = br.mode := rfl
@[simp] theorem BitReader.advance_base : (br.advance n).base = br.base := rfl
@[simp] theorem BitReader.advance_len : (br.advance n).len = br.len := rfl

theorem BitReader.advance_advance (m : Nat) : (br.advance n).advance m = br.advance (n + m) := by
  simp only [BitReader.advance, BitVec.ofNat_add, BitVec.add_assoc]

/-- The cursor does not wrap where the bits may be read. -/
theorem BitReader.advance_pos (h : CanRead br br.pos.toNat n) : (br.advance n).pos.toNat = br.pos.toNat + n := by
  have hl := br.len.isLt
  have hp : br.pos.toNat + n < 2 ^ 64 := by unfold CanRead at h; omega
  simp only [BitReader.advance, BitVec.toNat_add, BitVec.toNat_ofNat]
  omega

theorem streamValue_zero : streamValue inp br p 0 = 0 := by cases h : br.mode <;> simp [streamValue, h, bitsMsbFirst, bitsLsbFirst]

theorem bitsMsbFirst_lt (bit : Nat → Bool) (p n : Nat) : bitsMsbFirst bit p n < 2 ^ n := by
  induction n with
  | zero => simp [bitsMsbFirst]
  | succ n ih => have := Bool.toNat_lt (bit (p + n)); rw [bitsMsbFirst, Nat.pow_succ]; omega

theorem bitsLsbFirst_lt (bit : Nat → Bool) (p n : Nat) : bitsLsbFirst bit p n < 2 ^ n := by
  induction n with
  | zero => simp [bitsLsbFirst]
  | succ n ih =>
    rw [bitsLsbFirst, Nat.pow_succ]
    cases bit (p + n) <;> simp <;> omega

/-- `n` bits make a value below `2^n` (R122). -/
theorem streamValue_lt (inp : Memory 8) (br : BitReader) (p n : Nat) : streamValue inp br p n < 2 ^ n := by
  cases h : br.mode <;> simp [streamValue, h, bitsMsbFirst_lt, bitsLsbFirst_lt]

/-! ### The primitives: when they end well, and all they can answer -/

theorem peek_of_canRead (h : CanRead br br.pos.toNat n) : peek inp br n = .ok (streamValue inp br br.pos.toNat n) := by
  unfold peek
  split
  · subst_vars; rw [streamValue_zero]
  · rw [inRange_iff.mpr h]; rfl

theorem consume_of_canRead (h : CanRead br br.pos.toNat n) : consume br n = .ok (br.advance n) := by
  unfold consume
  split
  · subst_vars; simp
  · rw [inRange_iff.mpr h]; rfl

theorem readBits_of_canRead (h : CanRead br br.pos.toNat n) :
    readBits inp br n = .ok (streamValue inp br br.pos.toNat n, br.advance n) := by
  simp only [readBits, peek_of_canRead h, consume_of_canRead h]

theorem peek_of_not_canRead (hn : n ≠ 0) (h : ¬ CanRead br br.pos.toNat n) : peek inp br n = .error (bitsExhausted br) := by
  simp [peek, hn, inRange_false_iff.mpr h]

theorem consume_of_not_canRead (hn : n ≠ 0) (h : ¬ CanRead br br.pos.toNat n) : consume br n = .error (bitsExhausted br) := by
  simp [consume, hn, inRange_false_iff.mpr h]

theorem readBits_of_not_canRead (hn : n ≠ 0) (h : ¬ CanRead br br.pos.toNat n) :
    readBits inp br n = .error (bitsExhausted br) := by
  simp only [readBits, peek_of_not_canRead hn h]

theorem peek_cases (inp : Memory 8) (br : BitReader) (n : Nat) :
    (n = 0 ∨ CanRead br br.pos.toNat n) ∧ peek inp br n = .ok (streamValue inp br br.pos.toNat n) ∨
    n ≠ 0 ∧ ¬ CanRead br br.pos.toNat n ∧ peek inp br n = .error (bitsExhausted br) := by
  by_cases hn : n = 0
  · subst hn; exact .inl ⟨.inl rfl, by simp [peek, streamValue_zero]⟩
  · by_cases h : CanRead br br.pos.toNat n
    · exact .inl ⟨.inr h, peek_of_canRead h⟩
    · exact .inr ⟨hn, h, peek_of_not_canRead hn h⟩

theorem consume_cases (br : BitReader) (n : Nat) :
    (n = 0 ∨ CanRead br br.pos.toNat n) ∧ consume br n = .ok (br.advance n) ∨
    n ≠ 0 ∧ ¬ CanRead br br.pos.toNat n ∧ consume br n = .error (bitsExhausted br) := by
  by_cases hn : n = 0
  · subst hn; exact .inl ⟨.inl rfl, by simp [consume]⟩
  · by_cases h : CanRead br br.pos.toNat n
    · exact .inl ⟨.inr h, consume_of_canRead h⟩
    · exact .inr ⟨hn, h, consume_of_not_canRead hn h⟩

theorem readBits_cases (inp : Memory 8) (br : BitReader) (n : Nat) :
    (n = 0 ∨ CanRead br br.pos.toNat n) ∧ readBits inp br n = .ok (streamValue inp br br.pos.toNat n, br.advance n) ∨
    n ≠ 0 ∧ ¬ CanRead br br.pos.toNat n ∧ readBits inp br n = .error (bitsExhausted br) := by
  by_cases hn : n = 0
  · subst hn; exact .inl ⟨.inl rfl, by simp [readBits, peek, consume, streamValue_zero]⟩
  · by_cases h : CanRead br br.pos.toNat n
    · exact .inl ⟨.inr h, readBits_of_canRead h⟩
    · exact .inr ⟨hn, h, readBits_of_not_canRead hn h⟩

/-! ### The cursor stays well formed -/

theorem BitReader.wf_iff (q : Config.Params) :
    br.wf q = true ↔ (br.bound = true → br.base.toNat + br.len.toNat ≤ q.inSize ∧
      (br.mode = .jpeg ∨ br.pos.toNat ≤ 8 * br.len.toNat)) := by
  cases h : br.bound <;> (simp [BitReader.wf, h]; try exact fun _ => Iff.rfl)

@[simp] theorem BitReader.unbind_wf (q : Config.Params) : br.unbind.wf q = true := by
  simp [BitReader.wf, BitReader.unbind]

@[simp] theorem BitReader.unbound_wf (q : Config.Params) : BitReader.unbound.wf q = true := rfl

theorem bindCursor_wf {q : Config.Params} {g : Regs} (mode : ReaderMode) (h : g.inOff.toNat + g.inLen.toNat ≤ q.inSize) :
    (bindCursor mode g).wf q = true := by
  simp [BitReader.wf, bindCursor, h]

theorem BitReader.advance_wf {q : Config.Params} (h : br.wf q = true) (hr : n = 0 ∨ CanRead br br.pos.toNat n) :
    (br.advance n).wf q = true := by
  rcases hr with rfl | hr
  · simpa using h
  · rw [BitReader.wf_iff] at h ⊢
    intro hb
    refine ⟨(h hb).1, ?_⟩
    rw [BitReader.advance_pos hr]
    unfold CanRead at hr
    rcases hr with hr | hr
    · exact .inl hr.1
    · exact .inr hr.2

theorem consume_wf {q : Config.Params} {br' : BitReader} (h : br.wf q = true) (hc : consume br n = .ok br') :
    br'.wf q = true := by
  rcases consume_cases br n with ⟨hr, he⟩ | ⟨-, -, he⟩ <;> rw [he] at hc <;> cases hc
  exact BitReader.advance_wf h hr

theorem readBits_wf {q : Config.Params} {v : Nat} {br' : BitReader} (h : br.wf q = true)
    (hc : readBits inp br n = .ok (v, br')) : br'.wf q = true := by
  rcases readBits_cases inp br n with ⟨hr, he⟩ | ⟨-, -, he⟩ <;> rw [he] at hc <;> cases hc
  exact BitReader.advance_wf h hr

/-! ### The bits of a stream as slices of one integer (R122, R123) -/

/-- The leading bits of a longer value. -/
theorem bitsMsbFirst_shiftRight (bit : Nat → Bool) (p a b : Nat) :
    bitsMsbFirst bit p (a + b) >>> b = bitsMsbFirst bit p a := by
  induction b with
  | zero => rfl
  | succ b ih =>
    rw [← Nat.add_assoc, bitsMsbFirst, Nat.add_comm b 1, Nat.shiftRight_add, Nat.shiftRight_one,
      show (2 * bitsMsbFirst bit p (a + b) + (bit (p + (a + b))).toNat) / 2 = bitsMsbFirst bit p (a + b) by
        have := Bool.toNat_lt (bit (p + (a + b))); omega, ih]

theorem bitsMsbFirst_congr {bit bit' : Nat → Bool} {p n : Nat} (h : ∀ j, p ≤ j → j < p + n → bit j = bit' j) :
    bitsMsbFirst bit p n = bitsMsbFirst bit' p n := by
  induction n with
  | zero => rfl
  | succ n ih =>
    rw [bitsMsbFirst, bitsMsbFirst, ih (fun j h1 h2 => h j h1 (by omega)), h (p + n) (by omega) (by omega)]

theorem bitsLsbFirst_congr {bit bit' : Nat → Bool} {p n : Nat} (h : ∀ j, p ≤ j → j < p + n → bit j = bit' j) :
    bitsLsbFirst bit p n = bitsLsbFirst bit' p n := by
  induction n with
  | zero => rfl
  | succ n ih =>
    rw [bitsLsbFirst, bitsLsbFirst, ih (fun j h1 h2 => h j h1 (by omega)), h (p + n) (by omega) (by omega)]

theorem bitsMsbFirst_eq_slice (r len : Nat) {p n : Nat} (h : p + n ≤ len) :
    bitsMsbFirst (fun j => r.testBit (len - 1 - j)) p n = r / 2 ^ (len - (p + n)) % 2 ^ n := by
  induction n with
  | zero => simp [bitsMsbFirst, Nat.mod_one]
  | succ n ih =>
    rw [bitsMsbFirst, ih (by omega)]
    obtain ⟨m, hm⟩ : ∃ m, len - (p + (n + 1)) = m := ⟨_, rfl⟩
    rw [hm, show len - (p + n) = m + 1 by omega, show len - 1 - (p + n) = m by omega,
      Nat.testBit_eq_decide_div_mod_eq, Nat.pow_succ, ← Nat.div_div_eq_div_mul, Nat.pow_succ' (n := n), Nat.mod_mul]
    rcases Nat.mod_two_eq_zero_or_one (r / 2 ^ m) with h | h <;> simp [h, Nat.add_comm]

theorem bitsLsbFirst_eq_slice (r : Nat) (p n : Nat) :
    bitsLsbFirst (fun j => r.testBit j) p n = r / 2 ^ p % 2 ^ n := by
  induction n with
  | zero => simp [bitsLsbFirst, Nat.mod_one]
  | succ n ih =>
    rw [bitsLsbFirst, ih, Nat.pow_succ, Nat.mod_mul, Nat.testBit_eq_decide_div_mod_eq, Nat.div_div_eq_div_mul, ← Nat.pow_add]
    rcases Nat.mod_two_eq_zero_or_one (r / 2 ^ (p + n)) with h | h <;> simp [h]

/-- A value depends on the bytes of the region alone (R61). -/
theorem destuffFrom_congr {b b' : Nat → Byte} {len : Nat} (h : ∀ k, k < len → b k = b' k) :
    ∀ fuel k, destuffFrom b len fuel k = destuffFrom b' len fuel k := by
  intro fuel
  induction fuel using Nat.strong_induction_on with
  | _ fuel ih =>
    intro k
    cases fuel with
    | zero => rfl
    | succ fuel =>
      simp only [destuffFrom]
      split
      · rename_i hk
        rw [h k hk]
        split
        · rw [ih fuel (by omega)]
        · by_cases h1 : k + 1 < len
          · rw [h (k + 1) h1]; split
            · rw [ih fuel (by omega)]
            · rfl
          · simp [h1]
      · rfl

theorem streamBit_congr {inp' : Memory 8} (h : ∀ k, k < br.len.toNat → inp'.read (br.base.toNat + k) = inp.read (br.base.toNat + k))
    {j : Nat} (hj : br.mode = .jpeg ∨ j < 8 * br.len.toNat) : streamBit inp' br j = streamBit inp br j := by
  cases hm : br.mode <;> simp only [streamBit, hm]
  · rw [regionByte, h _ (by simp [hm] at hj; omega)]; rfl
  · rw [regionByte, h _ (by simp [hm] at hj; omega)]; rfl
  · rw [destuff, destuff, destuffFrom_congr (b := regionByte inp' br) (b' := regionByte inp br) (fun k hk => h k hk)]

theorem streamValue_congr {inp' : Memory 8} (h : ∀ k, k < br.len.toNat → inp'.read (br.base.toNat + k) = inp.read (br.base.toNat + k))
    (hr : br.mode = .jpeg ∨ p + n ≤ 8 * br.len.toNat) : streamValue inp' br p n = streamValue inp br p n := by
  have hb : ∀ j, p ≤ j → j < p + n → streamBit inp' br j = streamBit inp br j := fun j _ h2 =>
    streamBit_congr h (hr.imp id (fun h => by omega))
  cases hm : br.mode <;> simp only [streamValue, hm]
  · exact bitsMsbFirst_congr hb
  · exact bitsLsbFirst_congr hb
  · exact bitsMsbFirst_congr hb

theorem peek_congr {inp' : Memory 8} (h : ∀ k, k < br.len.toNat → inp'.read (br.base.toNat + k) = inp.read (br.base.toNat + k)) :
    peek inp' br n = peek inp br n := by
  rcases peek_cases inp' br n with ⟨hr, he⟩ | ⟨hn, hr, he⟩
  · rcases hr with rfl | hr
    · simp [peek]
    · exact he.trans (by rw [peek_of_canRead hr, streamValue_congr h (hr.imp And.left And.right)])
  · rw [he, peek_of_not_canRead hn hr]

theorem readBits_congr {inp' : Memory 8} (h : ∀ k, k < br.len.toNat → inp'.read (br.base.toNat + k) = inp.read (br.base.toNat + k)) :
    readBits inp' br n = readBits inp br n := by
  simp only [readBits, peek_congr h]

end Sys2Proof.Machine
end

