-- ==== Sys2Proof/Laws/Huffman.lean ====
section
/-! SUPPORT. The laws of the Huffman unit: looking a code up in a prefix-free table, all a symbol or a difference decode can answer,
and the canonical assignment of codes in closed form. -/

namespace Sys2Proof.Machine

variable {inp : Memory 8} {br : BitReader} {slot : Nat} {h : HuffSlot}

/-! ### The table -/

theorem HuffSlot.wf_iff (hb : h.built = true) :
    h.wf = true ↔ 1 ≤ h.maxlen ∧ h.maxlen ≤ 16 ∧ h.lut ≠ [] ∧ (∀ e ∈ h.lut, 1 ≤ e.len ∧ e.len ≤ h.maxlen ∧ e.code < 2 ^ e.len)
      ∧ h.lut.Pairwise (fun e f => e.len ≤ f.len ∧ f.code >>> (f.len - e.len) ≠ e.code) := by
  simp [HuffSlot.wf, hb, LutCode.wf, LutCode.apart, and_assoc]

@[simp] theorem HuffSlot.unbuild_wf (h : HuffSlot) : h.unbuild.wf = true := by simp [HuffSlot.wf, HuffSlot.unbuild]

/-- An index whose leading bits are a code of a prefix-free table is that code's (R153). -/
theorem HuffSlot.entry_of_mem (hb : h.built = true) (hw : h.wf = true) {e : LutCode} (he : e ∈ h.lut) {w : Nat}
    (hc : w >>> (h.maxlen - e.len) = e.code) : h.entry w = some e := by
  obtain ⟨-, -, -, hlen, hp⟩ := (HuffSlot.wf_iff hb).mp hw
  unfold HuffSlot.entry
  revert he hlen hp
  generalize h.lut = l
  intro he hlen hp
  induction l with
  | nil => simp at he
  | cons f rest ih =>
    rw [List.pairwise_cons] at hp
    rw [List.find?_cons]
    split
    · rename_i hf
      rcases List.mem_cons.mp he with rfl | he
      · rfl
      · exfalso
        obtain ⟨h1, h2⟩ := hp.1 e he
        refine h2 ?_
        rw [← hc, ← Nat.shiftRight_add, show h.maxlen - e.len + (e.len - f.len) = h.maxlen - f.len by
          have := (hlen e (by simp [he])).2.1; omega]
        simpa using hf
    · rename_i hf
      rcases List.mem_cons.mp he with rfl | he
      · simp [hc] at hf
      · exact ih he (fun e he => hlen e (List.mem_cons_of_mem _ he)) hp.2

theorem HuffSlot.entry_some {w : Nat} {e : LutCode} (he : h.entry w = some e) :
    e ∈ h.lut ∧ w >>> (h.maxlen - e.len) = e.code := by
  unfold HuffSlot.entry at he
  exact ⟨List.mem_of_find?_eq_some he, by simpa using List.find?_some he⟩

theorem HuffSlot.entry_none {w : Nat} (he : h.entry w = none) : ∀ e ∈ h.lut, w >>> (h.maxlen - e.len) ≠ e.code := by
  unfold HuffSlot.entry at he
  simpa using he

/-! ### A symbol decode -/

/-- All a symbol decode can answer: a code of the table, its length consumed, or a fault at the unmoved cursor (R154). -/
theorem huffSym_cases (inp : Memory 8) (slot : Nat) (h : HuffSlot) (br : BitReader) :
    (∃ e, h.built = true ∧ br.bound = true ∧ br.mode ≠ .lsb ∧ (h.maxlen = 0 ∨ CanRead br br.pos.toNat h.maxlen)
      ∧ h.entry (streamValue inp br br.pos.toNat h.maxlen) = some e ∧ (e.len = 0 ∨ CanRead br br.pos.toNat e.len)
      ∧ huffSym inp slot h br = .ok (e.sym.toNat, br.advance e.len))
    ∨ ∃ c, huffSym inp slot h br = .error ⟨c, br⟩ := by
  unfold huffSym
  split
  · exact .inr ⟨_, rfl⟩
  rename_i hb; rw [Bool.not_eq_true, Bool.not_eq_false'] at hb
  split
  · exact .inr ⟨_, rfl⟩
  rename_i hbd; rw [Bool.not_eq_true, Bool.not_eq_false'] at hbd
  split
  · exact .inr ⟨_, rfl⟩
  rename_i hm
  rcases peek_cases inp br h.maxlen with ⟨hr, he⟩ | ⟨-, -, he⟩ <;> rw [he]
  · simp only
    cases hen : h.entry (streamValue inp br br.pos.toNat h.maxlen) with
    | none => exact .inr ⟨_, rfl⟩
    | some e =>
      simp only
      rcases consume_cases br e.len with ⟨hr', he'⟩ | ⟨-, -, he'⟩ <;> rw [he']
      · exact .inl ⟨e, hb, hbd, hm, hr, rfl, hr', rfl⟩
      · exact .inr ⟨_, rfl⟩
  · exact .inr ⟨_, rfl⟩

/-- The leading `len` bits of the next `maxlen` bits are the next `len` bits. -/
theorem streamValue_shiftRight (hm : br.mode ≠ .lsb) {p a n : Nat} (ha : a ≤ n) :
    streamValue inp br p n >>> (n - a) = streamValue inp br p a := by
  obtain ⟨b, rfl⟩ := Nat.exists_eq_add_of_le ha
  rw [Nat.add_sub_cancel_left]
  cases hmo : br.mode <;> simp only [streamValue, hmo]
  · exact bitsMsbFirst_shiftRight _ _ _ _
  · exact absurd hmo hm
  · exact bitsMsbFirst_shiftRight _ _ _ _

/-- A symbol decode at a code of the table. -/
theorem huffSym_of_mem (hb : h.built = true) (hw : h.wf = true) (hbd : br.bound = true) (hm : br.mode ≠ .lsb) {e : LutCode}
    (he : e ∈ h.lut) (hr : CanRead br br.pos.toNat h.maxlen) (hc : streamValue inp br br.pos.toNat e.len = e.code) :
    huffSym inp slot h br = .ok (e.sym.toNat, br.advance e.len) := by
  have hlen := (((HuffSlot.wf_iff hb).mp hw).2.2.2.1 e he).2.1
  have hen : h.entry (streamValue inp br br.pos.toNat h.maxlen) = some e :=
    HuffSlot.entry_of_mem hb hw he (by rw [streamValue_shiftRight hm hlen, hc])
  simp [huffSym, hb, hbd, hm, peek_of_canRead hr, hen, consume_of_canRead (hr.mono hlen)]

theorem huffSym_wf {q : Config.Params} {t : Nat} {br' : BitReader} (hw : br.wf q = true)
    (hs : huffSym inp slot h br = .ok (t, br')) : br'.wf q = true := by
  rcases huffSym_cases inp slot h br with ⟨e, -, -, -, -, -, hr, he⟩ | ⟨c, he⟩ <;> rw [he] at hs <;> cases hs
  exact BitReader.advance_wf hw hr

theorem huffSym_error_br {r : Raised} (hs : huffSym inp slot h br = .error r) : r.br = br := by
  rcases huffSym_cases inp slot h br with ⟨e, -, -, -, -, -, -, he⟩ | ⟨c, he⟩ <;> rw [he] at hs <;> cases hs
  rfl

theorem huffSym_region {t : Nat} {br' : BitReader} (hs : huffSym inp slot h br = .ok (t, br')) : ∃ n, br' = br.advance n := by
  rcases huffSym_cases inp slot h br with ⟨e, -, -, -, -, -, -, he⟩ | ⟨c, he⟩ <;> rw [he] at hs <;> cases hs
  exact ⟨_, rfl⟩

/-! ### A difference decode -/

/-- A field with its top bit set stands for itself, one with its top bit clear for `v - (2^t - 1)` (R97). -/
theorem signedDifference_eq {t v : Nat} (ht : 1 ≤ t) (hv : v < 2 ^ t) :
    signedDifference t v = if 2 ^ (t - 1) ≤ v then (v : Int) else (v : Int) - (2 ^ t - 1) := by
  obtain ⟨t, rfl⟩ := Nat.exists_eq_add_of_le' ht
  unfold signedDifference
  rw [Nat.add_sub_cancel, Nat.and_one_is_mod, Nat.shiftRight_eq_div_pow]
  rw [Nat.pow_succ] at hv
  by_cases hle : 2 ^ t ≤ v
  · rw [show v / 2 ^ t = 1 from Nat.div_eq_of_lt_le (by omega) (by omega)]; simp [hle]
  · rw [Nat.div_eq_of_lt (by omega)]; simp [hle]

/-- The differences of up to 31 raw bits fit `i32` (R158). -/
theorem fitsI32_signedDifference {t v : Nat} (ht : 1 ≤ t) (ht' : t ≤ 31) (hv : v < 2 ^ t) :
    fitsI32 (signedDifference t v) = true := by
  have h1 : (2 : Nat) ^ t ≤ 2 ^ 31 := Nat.pow_le_pow_right (by omega) ht'
  have h2 : ((2 : Int) ^ t) = ((2 ^ t : Nat) : Int) := by push_cast; rfl
  rw [signedDifference_eq ht hv]
  simp only [fitsI32, decide_eq_true_eq]
  split <;> omega

/-- All a difference decode can answer: a cursor moved on, or a fault there (R158). -/
theorem huffDec_cursor (inp : Memory 8) (slot : Nat) (h : HuffSlot) (br : BitReader) :
    (∃ d br', huffDec inp slot h br = .ok (d, br') ∧ fitsI32 d = true ∧ (∃ n, br' = br.advance n) ∧
      (∀ q, br.wf q = true → br'.wf q = true)) ∨
    (∃ r, huffDec inp slot h br = .error r ∧ (∃ n, r.br = br.advance n) ∧ (∀ q, br.wf q = true → r.br.wf q = true)) := by
  unfold huffDec
  cases hs : huffSym inp slot h br with
  | error r =>
    have := huffSym_error_br hs
    exact .inr ⟨r, rfl, ⟨0, by simp [this]⟩, fun q hq => by rwa [this]⟩
  | ok x =>
    obtain ⟨t, br1⟩ := x
    obtain ⟨n, hn⟩ := huffSym_region hs
    simp only
    split
    · exact .inl ⟨_, _, rfl, rfl, ⟨n, hn⟩, fun q hq => huffSym_wf hq hs⟩
    split
    · exact .inr ⟨_, rfl, ⟨n, hn⟩, fun q hq => huffSym_wf hq hs⟩
    rcases readBits_cases inp br1 t with ⟨hr, he⟩ | ⟨-, -, he⟩ <;> rw [he] <;> simp only
    · have hadv : br1.advance t = br.advance (n + t) := by rw [hn, BitReader.advance_advance]
      split
      · exact .inl ⟨_, _, rfl, ‹_›, ⟨_, hadv⟩, fun q hq => BitReader.advance_wf (huffSym_wf hq hs) hr⟩
      · exact .inr ⟨_, rfl, ⟨_, hadv⟩, fun q hq => BitReader.advance_wf (huffSym_wf hq hs) hr⟩
    · exact .inr ⟨_, rfl, ⟨n, hn⟩, fun q hq => huffSym_wf hq hs⟩

theorem huffSym_congr {inp' : Memory 8}
    (hi : ∀ k, k < br.len.toNat → inp'.read (br.base.toNat + k) = inp.read (br.base.toNat + k)) :
    huffSym inp' slot h br = huffSym inp slot h br := by
  simp only [huffSym, peek_congr hi]

/-- A difference decode depends on the bytes of the region alone (R61). -/
theorem huffDec_congr {inp' : Memory 8}
    (hi : ∀ k, k < br.len.toNat → inp'.read (br.base.toNat + k) = inp.read (br.base.toNat + k)) :
    huffDec inp' slot h br = huffDec inp slot h br := by
  unfold huffDec
  rw [huffSym_congr hi]
  cases hs : huffSym inp slot h br with
  | error r => rfl
  | ok x =>
    obtain ⟨t, br1⟩ := x
    obtain ⟨n, rfl⟩ := huffSym_region hs
    have : readBits inp' (br.advance n) t = readBits inp (br.advance n) t := readBits_congr hi
    simp only [this]

/-! ### Building a table -/

/-- One length of the canonical assignment: consecutive codes, or an over-subscription (R152). -/
theorem assignLength_eq (value : Nat → Byte) (l t : Nat) (a : Assignment) (ha : a.code ≤ 2 ^ l) :
    assignLength value l t a = if a.code + t ≤ 2 ^ l then
        .ok { code := a.code + t, k := a.k + t
              codes := a.codes ++ (List.range t).map (fun j => { code := a.code + j, len := l, sym := value (a.k + j) }) }
      else .error l := by
  induction t generalizing a with
  | zero => simp [assignLength, ha]
  | succ t ih =>
    rw [assignLength]
    split
    · rw [if_neg (by omega)]
    · rw [ih _ (by simp only; omega)]
      by_cases hfit : a.code + (t + 1) ≤ 2 ^ l
      · rw [if_pos hfit, if_pos (by simp only; omega)]
        simp only [List.range_succ_eq_map, List.map_cons, List.map_map, List.append_assoc, List.cons_append, List.nil_append]
        congr 2
        · omega
        · omega
        · congr 2
          refine List.map_congr_left fun j _ => ?_
          simp only [Function.comp_apply, LutCode.mk.injEq, true_and]
          exact ⟨by omega, by congr 1; omega⟩
      · rw [if_neg hfit, if_neg (by simp only; omega)]

/-- The codes of lengths 1 to `m` in canonical order (R152). -/
def canonicalCodes (count : Nat → Nat) (value : Nat → Byte) : Nat → List LutCode
  | 0 => []
  | m + 1 => canonicalCodes count value m ++ (List.range (count m)).map
      (fun j => { code := firstCode count (m + 1) + j, len := m + 1, sym := value (countSum count m + j) })

theorem lengthFits_iff (count : Nat → Nat) (l : Nat) :
    lengthFits count (l + 1) = true ↔ firstCode count (l + 1) + count l ≤ 2 ^ (l + 1) := by
  simp [lengthFits]

theorem firstCode_succ (count : Nat → Nat) (l : Nat) : firstCode count (l + 2) = 2 * (firstCode count (l + 1) + count l) := by
  simp [firstCode]

@[simp] theorem firstCode_one (count : Nat → Nat) : firstCode count 1 = 0 := by simp [firstCode]

theorem assignFrom_succ (count : Nat → Nat) (value : Nat → Byte) (m : Nat) :
    ∀ (l : Nat) (a : Assignment), assignFrom count value (m + 1) l a = (assignFrom count value m l a).bind (fun b =>
      (assignLength value (l + m) (count (l + m - 1)) b).map (fun c => { c with code := 2 * c.code })) := by
  induction m with
  | zero =>
    intro l a
    simp only [assignFrom, Except.bind, Nat.add_zero]
    cases assignLength value l (count (l - 1)) a <;> rfl
  | succ m ih =>
    intro l a
    rw [assignFrom]
    conv => rhs; rw [assignFrom]
    cases assignLength value l (count (l - 1)) a with
    | error e => rfl
    | ok b => simp only [ih]; rw [show l + 1 + m = l + (m + 1) by omega]

/-- The canonical assignment of lengths 1 to `m`: the codes, when every length fits, or the first length that does not. -/
theorem assignFrom_eq (count : Nat → Nat) (value : Nat → Byte) (m : Nat) :
    ((∀ l, 1 ≤ l → l ≤ m → lengthFits count l = true) →
      firstCode count (m + 1) ≤ 2 ^ (m + 1) ∧
      assignFrom count value m 1 { code := 0, k := 0, codes := [] } =
        .ok { code := firstCode count (m + 1), k := countSum count m, codes := canonicalCodes count value m }) ∧
    (∀ l, 1 ≤ l → l ≤ m → lengthFits count l = false → (∀ l', 1 ≤ l' → l' < l → lengthFits count l' = true) →
      assignFrom count value m 1 { code := 0, k := 0, codes := [] } = .error l) := by
  induction m with
  | zero => exact ⟨fun _ => by simp [assignFrom, canonicalCodes, countSum], fun l h1 h2 => by omega⟩
  | succ m ih =>
    rw [assignFrom_succ]
    have step : (∀ l, 1 ≤ l → l ≤ m → lengthFits count l = true) →
        ((assignFrom count value m 1 { code := 0, k := 0, codes := [] }).bind fun b =>
          (assignLength value (1 + m) (count (1 + m - 1)) b).map fun c => { c with code := 2 * c.code }) =
        if lengthFits count (m + 1) = true then
          .ok { code := firstCode count (m + 2), k := countSum count (m + 1), codes := canonicalCodes count value (m + 1) }
        else .error (m + 1) := by
      intro hf
      obtain ⟨h1, h2⟩ := ih.1 hf
      rw [h2]
      simp only [Except.bind, show 1 + m = m + 1 by omega, Nat.add_sub_cancel]
      rw [assignLength_eq _ _ _ _ h1]
      by_cases hfit : lengthFits count (m + 1) = true
      · rw [if_pos hfit, if_pos ((lengthFits_iff count m).mp hfit)]
        simp [Except.map, firstCode_succ, countSum, canonicalCodes]
      · rw [if_neg hfit, if_neg (fun h => hfit ((lengthFits_iff count m).mpr h))]; rfl
    refine ⟨fun hf => ?_, fun l h1 h2 hl hl' => ?_⟩
    · have hm := hf (m + 1) (by omega) (by omega)
      rw [step (fun l h1 h2 => hf l h1 (by omega)), if_pos hm]
      refine ⟨?_, rfl⟩
      rw [firstCode_succ, Nat.pow_succ]
      have := (lengthFits_iff count m).mp hm
      omega
    · by_cases hlm : l = m + 1
      · subst hlm
        rw [step (fun l h1 h2 => hl' l h1 (by omega)), hl]; rfl
      · rw [ih.2 l h1 (by omega) hl hl']; rfl

theorem mem_canonicalCodes (count : Nat → Nat) (value : Nat → Byte) (m : Nat) (e : LutCode) :
    e ∈ canonicalCodes count value m ↔ ∃ l k, l < m ∧ k < count l ∧
      e = { code := firstCode count (l + 1) + k, len := l + 1, sym := value (countSum count l + k) } := by
  induction m with
  | zero => simp [canonicalCodes]
  | succ m ih =>
    simp only [canonicalCodes, List.mem_append, ih, List.mem_map, List.mem_range]
    constructor
    · rintro (⟨l, k, h1, h2, h3⟩ | ⟨k, h1, h2⟩)
      · exact ⟨l, k, by omega, h2, h3⟩
      · exact ⟨m, k, by omega, h1, h2.symm⟩
    · rintro ⟨l, k, h1, h2, h3⟩
      by_cases hl : l = m
      · subst hl; exact .inr ⟨k, h2, h3.symm⟩
      · exact .inl ⟨l, k, by omega, h2, h3⟩

/-- A later first code is beyond every earlier code, shifted to its length: canonical codes are prefix-free (R152). -/
theorem firstCode_shift (count : Nat → Nat) (l d : Nat) :
    (firstCode count (l + 1) + count l) * 2 ^ (d + 1) ≤ firstCode count (l + 1 + (d + 1)) := by
  induction d with
  | zero => rw [show l + 1 + (0 + 1) = l + 2 by omega, firstCode_succ]; omega
  | succ d ih =>
    rw [show l + 1 + (d + 1 + 1) = (l + 1 + d) + 2 by omega, firstCode_succ, Nat.pow_succ, ← Nat.mul_assoc]
    rw [show l + 1 + (d + 1) = l + 1 + d + 1 by omega] at ih
    omega

theorem canonicalCodes_pairwise (count : Nat → Nat) (value : Nat → Byte) (m : Nat) :
    (canonicalCodes count value m).Pairwise (fun e f => e.len ≤ f.len ∧ f.code >>> (f.len - e.len) ≠ e.code) := by
  induction m with
  | zero => simp [canonicalCodes]
  | succ m ih =>
    rw [canonicalCodes, List.pairwise_append]
    refine ⟨ih, ?_, ?_⟩
    · rw [List.pairwise_map]
      refine List.Pairwise.imp ?_ List.pairwise_lt_range
      intro a b hab
      simp; omega
    · intro e he f hf
      obtain ⟨l, k, hl, hk, rfl⟩ := (mem_canonicalCodes count value m e).mp he
      obtain ⟨j, hj, rfl⟩ := List.mem_map.mp hf
      obtain ⟨d, rfl⟩ := Nat.exists_eq_add_of_lt hl
      refine ⟨by simp only; omega, ?_⟩
      simp only
      rw [show l + d + 1 + 1 - (l + 1) = d + 1 by omega, Nat.shiftRight_eq_div_pow]
      have h1 := firstCode_shift count l d
      rw [show l + 1 + (d + 1) = l + d + 1 + 1 by omega] at h1
      have h2 : firstCode count (l + 1) + count l ≤ (firstCode count (l + d + 1 + 1) + j) / 2 ^ (d + 1) :=
        (Nat.le_div_iff_mul_le (Nat.two_pow_pos _)).mpr (by omega)
      omega

theorem longestCode_spec (count : Nat → Nat) (m : Nat) :
    longestCode count m ≤ m ∧ (∀ l, l < m → count l ≠ 0 → l + 1 ≤ longestCode count m) ∧
      (longestCode count m = 0 → countSum count m = 0) ∧
      (longestCode count m ≠ 0 → count (longestCode count m - 1) ≠ 0) := by
  induction m with
  | zero => simp [longestCode, countSum]
  | succ m ih =>
    obtain ⟨h1, h2, h3, h4⟩ := ih
    by_cases hc : count m = 0
    · simp only [longestCode, hc, ne_eq, not_true_eq_false, if_false, countSum, Nat.add_zero]
      refine ⟨by omega, fun l hl hl' => ?_, h3, h4⟩
      exact h2 l (by rcases Nat.lt_succ_iff_lt_or_eq.mp hl with h | rfl; exact h; exact absurd hc hl') hl'
    · simp only [longestCode, hc, ne_eq, not_false_eq_true, if_true]
      exact ⟨by omega, fun l hl _ => by omega, by omega, fun _ => by simpa using hc⟩

/-- What a build of a good specification puts into the slot is well formed (R42, R152). -/
theorem canonical_wf (count : Nat → Nat) (value : Nat → Byte) (hn : countSum count 16 ≠ 0)
    (hf : ∀ l, 1 ≤ l → l ≤ 16 → lengthFits count l = true) :
    HuffSlot.wf { built := true, maxlen := longestCode count 16, lut := canonicalCodes count value 16 } = true := by
  obtain ⟨h1, h2, h3, h4⟩ := longestCode_spec count 16
  have h5 : longestCode count 16 ≠ 0 := fun h => hn (h3 h)
  rw [HuffSlot.wf_iff rfl]
  refine ⟨by simp only; omega, h1, ?_, ?_, canonicalCodes_pairwise count value 16⟩
  · refine List.ne_nil_of_mem (a := { code := firstCode count (longestCode count 16 - 1 + 1) + 0, len := longestCode count 16 - 1 + 1, sym := value (countSum count (longestCode count 16 - 1) + 0) }) ((mem_canonicalCodes _ _ _ _).mpr ⟨longestCode count 16 - 1, 0, by omega, ?_, rfl⟩)
    have := h4 h5; omega
  · intro e he
    obtain ⟨l, k, hl, hk, rfl⟩ := (mem_canonicalCodes _ _ _ _).mp he
    have := (lengthFits_iff count l).mp (hf (l + 1) (by omega) (by omega))
    have := h2 l hl (by omega)
    refine ⟨by simp, by simpa using this, by simp only; omega⟩

theorem anyShift_iff (shift : Nat → Byte) (n : Nat) : anyShift shift n = true ↔ ∃ k, k < n ∧ shift k ≠ 0#8 := by
  induction n with
  | zero => simp [anyShift]
  | succ n ih =>
    simp only [anyShift, Bool.or_eq_true, ih, bne_iff_ne, ne_eq]
    constructor
    · rintro (⟨k, h1, h2⟩ | h)
      · exact ⟨k, by omega, h2⟩
      · exact ⟨n, by omega, h⟩
    · rintro ⟨k, h1, h2⟩
      by_cases hk : k = n
      · exact .inr (hk ▸ h2)
      · exact .inl ⟨k, by omega, h2⟩

/-- The whole assignment (R152). -/
theorem assignCodes_ok {count : Nat → Nat} (value : Nat → Byte) (hf : ∀ l, 1 ≤ l → l ≤ 16 → lengthFits count l = true) :
    assignCodes count value = .ok (canonicalCodes count value 16) := by
  rw [assignCodes, ((assignFrom_eq count value 16).1 hf).2]; rfl

theorem assignCodes_error {count : Nat → Nat} (value : Nat → Byte) {l : Nat} (h1 : 1 ≤ l) (h2 : l ≤ 16)
    (hl : lengthFits count l = false) (hl' : ∀ l', 1 ≤ l' → l' < l → lengthFits count l' = true) :
    assignCodes count value = .error l := by
  rw [assignCodes, (assignFrom_eq count value 16).2 l h1 h2 hl hl']; rfl

/-- Either every length fits, or there is a first one that does not. -/
theorem lengthFits_first (count : Nat → Nat) (m : Nat) :
    (∀ l, 1 ≤ l → l ≤ m → lengthFits count l = true) ∨
    ∃ l, 1 ≤ l ∧ l ≤ m ∧ lengthFits count l = false ∧ ∀ l', 1 ≤ l' → l' < l → lengthFits count l' = true := by
  induction m with
  | zero => exact .inl (by omega)
  | succ m ih =>
    rcases ih with h | ⟨l, h1, h2, h3, h4⟩
    · cases hm : lengthFits count (m + 1) with
      | false => exact .inr ⟨m + 1, by omega, le_refl _, hm, fun l h1 h2 => h l h1 (by omega)⟩
      | true =>
        refine .inl fun l h1 h2 => ?_
        by_cases hl : l = m + 1
        · rw [hl, hm]
        · exact h l h1 (by omega)
    · exact .inr ⟨l, h1, by omega, h3, h4⟩

end Sys2Proof.Machine
end

