-- ==== Sys2Proof/Laws/Image.lean ====
section
/-! SUPPORT. The laws of the image loops: storing a pixel, row-major positions, loops over rows and columns; and that every codec
keeps the mosaic in canonical form and its cursor well formed. -/

namespace Sys2Proof.Machine

/-! ### Storing pixels -/

theorem storePixel_read (k : Nat) (p : Pixel) (rgb : Memory 16) (j : Nat) :
    (storePixel k p rgb).read j = if j = 3 * k then BitVec.ofNat 16 p.r else if j = 3 * k + 1 then BitVec.ofNat 16 p.g
      else if j = 3 * k + 2 then BitVec.ofNat 16 p.b else rgb.read j := by
  simp only [storePixel, Memory.read_write]
  split
  · rw [if_neg (by omega), if_neg (by omega)]
  · split
    · rw [if_neg (by omega)]
    · rfl

/-- Storing a pixel leaves every element but its own three. -/
theorem storePixel_read_ne {k : Nat} (p : Pixel) (rgb : Memory 16) {j : Nat} (h : j < 3 * k ∨ 3 * k + 3 ≤ j) :
    (storePixel k p rgb).read j = rgb.read j := by
  rw [storePixel_read, if_neg (by omega), if_neg (by omega), if_neg (by omega)]

theorem storePixel_wf {size k : Nat} {rgb : Memory 16} (h : rgb.wf size = true) (hk : 3 * k + 3 ≤ size) (p : Pixel) :
    (storePixel k p rgb).wf size = true :=
  Memory.write_wf (Memory.write_wf (Memory.write_wf h (by omega) _) (by omega) _) (by omega) _

@[simp] theorem storePixel_epoch (k : Nat) (p : Pixel) (rgb : Memory 16) : (storePixel k p rgb).epoch = rgb.epoch := rfl

/-- A position of a row-major image lies inside it. -/
theorem index_lt {w h y x : Nat} (hy : y < h) (hx : x < w) : y * w + x < w * h := by
  have : (y + 1) * w ≤ h * w := Nat.mul_le_mul_right w hy
  rw [Nat.add_mul, Nat.one_mul, Nat.mul_comm h w] at this
  omega

/-- Distinct positions have distinct indices. -/
theorem index_inj {w y x y' x' : Nat} (hx : x < w) (hx' : x' < w) (h : y * w + x = y' * w + x') : y = y' ∧ x = x' := by
  have hw : 0 < w := by omega
  have h1 : (y * w + x) / w = y := by rw [Nat.mul_comm, Nat.mul_add_div hw, Nat.div_eq_of_lt hx, Nat.add_zero]
  have h2 : (y' * w + x') / w = y' := by rw [Nat.mul_comm, Nat.mul_add_div hw, Nat.div_eq_of_lt hx', Nat.add_zero]
  have h3 : y = y' := by rw [← h1, h, h2]
  subst h3; exact ⟨rfl, by omega⟩

/-! ### Loops over the rows and columns of an image -/

variable {σ ε : Type}

/-- What holds at the start and is kept at every position holds at the end. -/
theorem loop2_keeps {P : σ → Prop} {f : Nat → Nat → σ → Except ε σ} {s t : σ} {h w : Nat} (h0 : P s)
    (step : ∀ y x c d, y < h → x < w → P c → f y x c = .ok d → P d) (hl : loop h (fun y => loop w (f y)) s = .ok t) : P t :=
  loop_induct (P := fun _ => P) h0
    (fun y hy _ _ ha hb => loop_induct (P := fun _ => P) ha (fun x hx c d hc hd => step y x c d hy hx hc hd) hb) hl

/-- A loop whose turns raise only what `Q` allows raises only that. -/
theorem loop_error_of {Q : ε → Prop} {P : σ → Prop} {f : Nat → σ → Except ε σ} {n : Nat} {s : σ} {e : ε} (h0 : P s)
    (step : ∀ i a b, i < n → P a → f i a = .ok b → P b) (stop : ∀ i a e, i < n → P a → f i a = .error e → Q e)
    (hl : loop n f s = .error e) : Q e := by
  obtain ⟨i, a, hi, h1, h2⟩ := loop_raises hl
  exact stop i a e hi (loop_induct (P := fun _ => P) h0 (fun j hj c d hc hd => step j c d (by omega) hc hd) h1) h2

/-! ### What the codecs can answer: a mosaic in canonical form, and a cursor that is well formed -/

/-- A result that keeps both. -/
def CodecKeeps (q : Config.Params) (m0 : Memory 16) : Except Raised (Memory 16 × BitReader) → Prop
  | .ok (m, br) => m.wf q.maxPixels = true ∧ m.epoch = m0.epoch ∧ br.wf q = true
  | .error e => e.br.wf q = true

section codecs

variable {s : State}

theorem unpackPacked_keeps (hm : s.mem.mos.wf s.params.maxPixels = true) (hfit : s.mosaicFits = true)
    (hin : s.regionInside = true) {br : BitReader} (hb : br.wf s.params = true) :
    CodecKeeps s.params s.mem.mos (unpackPacked s br) := by
  simp only [State.mosaicFits, State.regionInside, decide_eq_true_eq] at hfit hin
  unfold unpackPacked
  dsimp only
  split
  · exact hb
  have hbind := bindCursor_wf (if s.regs.unpackLittle then .lsb else .msb) hin
  have step : ∀ i (a b : Memory 16 × BitReader), i < s.regs.w * s.regs.h →
      (a.1.wf s.params.maxPixels = true ∧ a.1.epoch = s.mem.mos.epoch ∧ a.2.wf s.params = true) →
      unpackPackedSample s.mem.inp s.regs.unpackBits i a = .ok b →
      (b.1.wf s.params.maxPixels = true ∧ b.1.epoch = s.mem.mos.epoch ∧ b.2.wf s.params = true) := by
    intro i a b hi ha h
    rcases readBits_cases s.mem.inp a.2 s.regs.unpackBits with ⟨hr, he⟩ | ⟨-, -, he⟩ <;>
      simp only [unpackPackedSample, he] at h <;> cases h
    exact ⟨Memory.write_wf ha.1 (by omega) _, ha.2.1, BitReader.advance_wf ha.2.2 hr⟩
  cases hl : loop (s.regs.w * s.regs.h) (unpackPackedSample s.mem.inp s.regs.unpackBits)
      (s.mem.mos, bindCursor (if s.regs.unpackLittle then .lsb else .msb) s.regs) with
  | ok t =>
    exact loop_induct (P := fun _ (a : Memory 16 × BitReader) => a.1.wf s.params.maxPixels = true ∧
      a.1.epoch = s.mem.mos.epoch ∧ a.2.wf s.params = true) ⟨hm, rfl, hbind⟩ (fun i hi a b ha h => step i a b hi ha h) hl
  | error e =>
    refine loop_error_of (P := fun (a : Memory 16 × BitReader) => a.1.wf s.params.maxPixels = true ∧
      a.1.epoch = s.mem.mos.epoch ∧ a.2.wf s.params = true) (Q := fun e : Raised => e.br.wf s.params = true)
      ⟨hm, rfl, hbind⟩ step ?_ hl
    intro i a e hi ha h
    rcases readBits_cases s.mem.inp a.2 s.regs.unpackBits with ⟨-, he⟩ | ⟨-, -, he⟩ <;>
      simp only [unpackPackedSample, he] at h <;> cases h
    exact ha.2.2

theorem unpackWords_keeps (hm : s.mem.mos.wf s.params.maxPixels = true) (hfit : s.mosaicFits = true)
    {br : BitReader} (hb : br.wf s.params = true) : CodecKeeps s.params s.mem.mos (unpackWords s br) := by
  simp only [State.mosaicFits, decide_eq_true_eq] at hfit
  unfold unpackWords
  dsimp only
  split
  · exact hb
  have := repeatTimes_induct (P := fun _ (m : Memory 16) => m.wf s.params.maxPixels = true ∧ m.epoch = s.mem.mos.epoch)
    (f := fun k m => m.write k (unpackWord s k)) ⟨hm, rfl⟩ (n := s.regs.w * s.regs.h)
    (fun i hi a ha => ⟨Memory.write_wf ha.1 (by omega) _, ha.2⟩)
  exact ⟨this.1, this.2, hb⟩

theorem unpack_keeps (hm : s.mem.mos.wf s.params.maxPixels = true) (hfit : s.mosaicFits = true)
    (hin : s.regionInside = true) {br : BitReader} (hb : br.wf s.params = true) :
    CodecKeeps s.params s.mem.mos (unpack s br) := by
  unfold unpack
  dsimp only
  split
  · exact hb
  split
  · exact unpackWords_keeps hm hfit hb
  · exact unpackPacked_keeps hm hfit hin hb

theorem sonyStore_cases (s : State) (br : BitReader) (y x v : Nat) (m : Memory 16) :
    sonyStore s br y x v m = .ok (m.write (y * s.regs.w + x) (s.mem.curve.read (2 * v))) ∨
    sonyStore s br y x v m = .error ⟨⟨.bounds, infoNat (2 * v)⟩, br⟩ := by
  unfold sonyStore
  dsimp only
  split
  · exact .inr rfl
  · exact .inl rfl

theorem sonySample_cases (s : State) (br : BitReader) (r g h max min imax imin scale i : Nat) (st : Memory 16 × Nat) :
    (∃ v q, sonySample s br r g h max min imax imin scale i st = .ok (st.1.write (r * s.regs.w + (32 * g + 2 * i + h)) v, q))
    ∨ ∃ c, sonySample s br r g h max min imax imin scale i st = .error ⟨c, br⟩ := by
  unfold sonySample
  dsimp only
  rcases sonyStore_cases s br r (32 * g + 2 * i + h)
    (if i == imax then max else if i == imin then min else Nat.min (min + streamValue s.mem.inp br st.2 7 <<< scale) 0x7FF) st.1
    with he | he <;> rw [he]
  · exact .inl ⟨_, _, rfl⟩
  · exact .inr ⟨_, rfl⟩

theorem sonyHalfGroup_keeps (hfit : s.mosaicFits = true) {br : BitReader} {r g h : Nat} (hr : r < s.regs.h)
    (hg : 32 * g + 32 ≤ s.regs.w) (hh : h < 2) {m : Memory 16} (hm : m.wf s.params.maxPixels = true) (groups : Nat) :
    (∃ m', sonyHalfGroup s br groups r g h m = .ok m' ∧ m'.wf s.params.maxPixels = true ∧ m'.epoch = m.epoch) ∨
    ∃ c, sonyHalfGroup s br groups r g h m = .error ⟨c, br⟩ := by
  simp only [State.mosaicFits, decide_eq_true_eq] at hfit
  unfold sonyHalfGroup
  dsimp only
  generalize streamValue s.mem.inp br (128 * ((r * groups + g) * 2 + h)) 11 = mx
  generalize streamValue s.mem.inp br (128 * ((r * groups + g) * 2 + h) + 11) 11 = mn
  generalize streamValue s.mem.inp br (128 * ((r * groups + g) * 2 + h) + 22) 4 = imax
  generalize streamValue s.mem.inp br (128 * ((r * groups + g) * 2 + h) + 26) 4 = imin
  split
  · exact .inr ⟨_, rfl⟩
  split
  · exact .inr ⟨_, rfl⟩
  cases he : loop 16 (sonySample s br r g h mx mn imax imin (bitlen ((mx - mn) >>> 7)))
      (m, 128 * ((r * groups + g) * 2 + h) + 30) with
  | error e =>
    obtain ⟨i, a, -, -, hc⟩ := loop_raises he
    rcases sonySample_cases s br r g h _ _ _ _ _ i a with ⟨v, q, hq⟩ | ⟨c, hq⟩ <;> rw [hq] at hc <;> cases hc
    exact .inr ⟨_, rfl⟩
  | ok t =>
    refine .inl ⟨_, rfl, ?_⟩
    refine loop_induct (P := fun _ (a : Memory 16 × Nat) => a.1.wf s.params.maxPixels = true ∧ a.1.epoch = m.epoch)
      ⟨hm, rfl⟩ (fun i hi a b ha hb => ?_) he
    rcases sonySample_cases s br r g h _ _ _ _ _ i a with ⟨v, q, hq⟩ | ⟨c, hq⟩ <;> rw [hq] at hb <;> cases hb
    have := index_lt (w := s.regs.w) (h := s.regs.h) hr (x := 32 * g + 2 * i + h) (by omega)
    exact ⟨Memory.write_wf ha.1 (by omega) _, ha.2⟩

theorem sony_keeps (hm : s.mem.mos.wf s.params.maxPixels = true) (hfit : s.mosaicFits = true)
    (hin : s.regionInside = true) {br : BitReader} (hb : br.wf s.params = true) :
    CodecKeeps s.params s.mem.mos (sony s br) := by
  have hin' : s.regs.inOff.toNat + s.regs.inLen.toNat ≤ s.params.inSize := by simpa [State.regionInside] using hin
  have hbind := bindCursor_wf .lsb hin'
  unfold sony
  simp only
  split
  · exact hb
  split
  · exact hb
  split
  · exact hb
  let P : Memory 16 → Prop := fun m => m.wf s.params.maxPixels = true ∧ m.epoch = s.mem.mos.epoch
  let Q : Raised → Prop := fun e => e.br = bindCursor .lsb s.regs
  have cases : ∀ r g h (a : Memory 16), r < s.regs.h → g < s.regs.w / 32 → h < 2 → P a →
      (∃ b, sonyHalfGroup s (bindCursor .lsb s.regs) (s.regs.w / 32) r g h a = .ok b ∧ P b) ∨
      ∃ e, sonyHalfGroup s (bindCursor .lsb s.regs) (s.regs.w / 32) r g h a = .error e ∧ Q e := by
    intro r g h a hr hg hh ha
    rcases sonyHalfGroup_keeps (s := s) (g := g) (br := bindCursor .lsb s.regs) hfit hr (by omega) hh ha.1 (s.regs.w / 32) with ⟨b, h1, h2, h3⟩ | ⟨c, h1⟩
    · exact .inl ⟨b, h1, h2, h3.trans ha.2⟩
    · exact .inr ⟨_, h1, rfl⟩
  have okH : ∀ r g h a b, r < s.regs.h → g < s.regs.w / 32 → h < 2 → P a →
      sonyHalfGroup s (bindCursor .lsb s.regs) (s.regs.w / 32) r g h a = .ok b → P b := by
    intro r g h a b hr hg hh ha hab
    rcases cases r g h a hr hg hh ha with ⟨b', h1, h2⟩ | ⟨e, h1, -⟩ <;> rw [h1] at hab <;> cases hab
    exact h2
  have erH : ∀ r g h a e, r < s.regs.h → g < s.regs.w / 32 → h < 2 → P a →
      sonyHalfGroup s (bindCursor .lsb s.regs) (s.regs.w / 32) r g h a = .error e → Q e := by
    intro r g h a e hr hg hh ha hab
    rcases cases r g h a hr hg hh ha with ⟨b', h1, h2⟩ | ⟨e, h1, he⟩ <;> rw [h1] at hab <;> cases hab
    exact he
  have okG := fun r g a b (hr : r < s.regs.h) (hg : g < s.regs.w / 32) (ha : P a) hab => loop_induct (P := fun _ => P) (n := 2) (t := b) ha
    (fun h hh c d hc hd => okH r g h c d hr hg hh hc hd) hab
  have okR := fun r a b (hr : r < s.regs.h) (ha : P a) hab => loop_induct (P := fun _ => P) (n := s.regs.w / 32) (t := b) ha
    (fun g hg c d hc hd => okG r g c d hr hg hc hd) hab
  cases hl : loop s.regs.h (fun r => loop (s.regs.w / 32) (fun gr => loop 2
      (fun h => sonyHalfGroup s (bindCursor .lsb s.regs) (s.regs.w / 32) r gr h))) s.mem.mos with
  | ok t =>
    have := loop_induct (P := fun _ => P) ⟨hm, rfl⟩ (fun r hr c d hc hd => okR r c d hr hc hd) hl
    exact ⟨this.1, this.2, hbind⟩
  | error e =>
    have : Q e := loop_error_of (P := P) ⟨hm, rfl⟩ (fun r c d hr hc hd => okR r c d hr hc hd)
      (fun r a e hr ha h => loop_error_of (P := P) ha (fun g c d hg hc hd => okG r g c d hr hg hc hd)
        (fun g a e hg ha h => loop_error_of (P := P) ha (fun hh c d h2 hc hd => okH r g hh c d hr hg h2 hc hd)
          (fun hh a e h2 ha h => erH r g hh a e hr hg h2 ha h) h) h) hl
    show e.br.wf s.params = true
    rw [this]; exact hbind

@[simp] theorem NikonRun.setVertical_mos (st : NikonRun) (row col : Nat) (t : Int) : (st.setVertical row col t).mos = st.mos := by
  unfold NikonRun.setVertical; split <;> rfl
@[simp] theorem NikonRun.setVertical_br (st : NikonRun) (row col : Nat) (t : Int) : (st.setVertical row col t).br = st.br := by
  unfold NikonRun.setVertical; split <;> rfl
@[simp] theorem NikonRun.setVertical_cur (st : NikonRun) (row col : Nat) (t : Int) : (st.setVertical row col t).cur = st.cur := by
  unfold NikonRun.setVertical; split <;> rfl
@[simp] theorem NikonRun.setVertical_rng (st : NikonRun) (row col : Nat) (t : Int) : (st.setVertical row col t).rng = st.rng := by
  unfold NikonRun.setVertical; split <;> rfl
@[simp] theorem NikonRun.setHorizontal_mos (st : NikonRun) (col : Nat) (t : Int) : (st.setHorizontal col t).mos = st.mos := by
  unfold NikonRun.setHorizontal; split <;> rfl
@[simp] theorem NikonRun.setHorizontal_br (st : NikonRun) (col : Nat) (t : Int) : (st.setHorizontal col t).br = st.br := by
  unfold NikonRun.setHorizontal; split <;> rfl
@[simp] theorem NikonRun.setHorizontal_cur (st : NikonRun) (col : Nat) (t : Int) : (st.setHorizontal col t).cur = st.cur := by
  unfold NikonRun.setHorizontal; split <;> rfl
@[simp] theorem NikonRun.setHorizontal_rng (st : NikonRun) (col : Nat) (t : Int) : (st.setHorizontal col t).rng = st.rng := by
  unfold NikonRun.setHorizontal; split <;> rfl

/-- The predictor just written is the one the sample is read from. -/
@[simp] theorem NikonRun.setHorizontal_horizontal (st : NikonRun) (col : Nat) (t : Int) :
    (st.setHorizontal col t).horizontal col = t := by
  unfold NikonRun.setHorizontal NikonRun.horizontal; split <;> rfl

theorem nikonPredict_cases (row col : Nat) (d : Int) (st : NikonRun) :
    (∃ st', nikonPredict row col d st = .ok st' ∧ st'.mos = st.mos ∧ st'.br = st.br ∧ st'.cur = st.cur ∧ st'.rng = st.rng) ∨
    ∃ c, nikonPredict row col d st = .error ⟨c, st.br⟩ := by
  unfold nikonPredict
  split <;> simp only <;> split
  · exact .inl ⟨_, rfl, by simp⟩
  · exact .inr ⟨_, rfl⟩
  · exact .inl ⟨_, rfl, by simp⟩
  · exact .inr ⟨_, rfl⟩

/-- A codec's cursor that stays well formed, over one Nikon sample. -/
theorem nikonSample_keeps {q : Config.Params} {row col : Nat} {st : NikonRun} (hi : row * s.regs.w + col < q.maxPixels)
    (hm : st.mos.wf q.maxPixels = true) (hb : st.br.wf q = true) :
    (∃ st', nikonSample s row col st = .ok st' ∧ st'.mos.wf q.maxPixels = true ∧ st'.mos.epoch = st.mos.epoch ∧ st'.br.wf q = true) ∨
    ∃ e, nikonSample s row col st = .error e ∧ e.br.wf q = true := by
  unfold nikonSample
  rcases huffDec_cursor s.mem.inp st.cur.val s.hu[st.cur] st.br with ⟨d, br', he, -, -, hw⟩ | ⟨r, he, -, hw⟩ <;> rw [he]
  · simp only
    rcases nikonPredict_cases row col d { st with br := br' } with ⟨st', hp, h1, h2, -, -⟩ | ⟨c, hp⟩ <;> rw [hp] <;> simp only
    · have hb' : st'.br.wf q = true := by rw [h2]; exact hw q hb
      unfold nikonLinearize
      split
      · exact .inr ⟨_, rfl, hb'⟩
      · refine .inl ⟨_, rfl, ?_, ?_, hb'⟩
        · simp only [h1]; exact Memory.write_wf hm hi _
        · simp only [h1]; rfl
    · exact .inr ⟨_, rfl, hw q hb⟩
  · exact .inr ⟨_, rfl, hw q hb⟩

theorem nikon_keeps (hm : s.mem.mos.wf s.params.maxPixels = true) (hfit : s.mosaicFits = true)
    (hin : s.regionInside = true) {br : BitReader} (hb : br.wf s.params = true) :
    CodecKeeps s.params s.mem.mos (nikon s br) := by
  have hin' : s.regs.inOff.toNat + s.regs.inLen.toNat ≤ s.params.inSize := by simpa [State.regionInside] using hin
  have hbind := bindCursor_wf .msb hin'
  simp only [State.mosaicFits, decide_eq_true_eq] at hfit
  unfold nikon
  simp only
  split
  · exact hb
  split
  · exact hb
  split
  · exact hb
  let P : NikonRun → Prop := fun st => st.mos.wf s.params.maxPixels = true ∧ st.mos.epoch = s.mem.mos.epoch ∧ st.br.wf s.params = true
  let Q : Raised → Prop := fun e => e.br.wf s.params = true
  have cases : ∀ row col a, row < s.regs.h → col < s.regs.w → P a →
      (∃ b, nikonSample s row col a = .ok b ∧ P b) ∨ ∃ e, nikonSample s row col a = .error e ∧ Q e := by
    intro row col a hr hc ha
    have := index_lt hr hc
    rcases nikonSample_keeps (s := s) (row := row) (col := col) (st := a) (by omega) ha.1 ha.2.2 with ⟨b, h1, h2, h3, h4⟩ | ⟨e, h1, h2⟩
    · exact .inl ⟨b, h1, h2, h3.trans ha.2.1, h4⟩
    · exact .inr ⟨e, h1, h2⟩
  have okS : ∀ row col a b, row < s.regs.h → col < s.regs.w → P a → nikonSample s row col a = .ok b → P b := by
    intro row col a b hr hc ha hab
    rcases cases row col a hr hc ha with ⟨b', h1, h2⟩ | ⟨e, h1, -⟩ <;> rw [h1] at hab <;> cases hab
    exact h2
  have erS : ∀ row col a e, row < s.regs.h → col < s.regs.w → P a → nikonSample s row col a = .error e → Q e := by
    intro row col a e hr hc ha hab
    rcases cases row col a hr hc ha with ⟨b', h1, h2⟩ | ⟨e, h1, he⟩ <;> rw [h1] at hab <;> cases hab
    exact he
  have start : ∀ row a, P a → P (if s.regs.nikonSplitEnabled && row == s.regs.nikonSplit.toNat then
      { a with cur := s.regs.nikonSlotB } else a) := by
    intro row a ha; split <;> exact ha
  have okR : ∀ row a b, row < s.regs.h → P a → nikonRow s row a = .ok b → P b := fun row a b hr ha hab =>
    loop_induct (P := fun _ => P) (start row a ha) (fun col hc c d hcc hd => okS row col c d hr hc hcc hd) hab
  have erR : ∀ row a e, row < s.regs.h → P a → nikonRow s row a = .error e → Q e := fun row a e hr ha hab =>
    loop_error_of (P := P) (start row a ha) (fun col c d hc hcc hd => okS row col c d hr hc hcc hd)
      (fun col a e hc ha h => erS row col a e hr hc ha h) hab
  have h0 : P (nikonStart s) := ⟨hm, rfl, hbind⟩
  cases hl : loop s.regs.h (nikonRow s) (nikonStart s) with
  | ok t => exact loop_induct (P := fun _ => P) h0 (fun row hr c d hc hd => okR row c d hr hc hd) hl
  | error e => exact loop_error_of (P := P) (Q := Q) h0 (fun row c d hr hc hd => okR row c d hr hc hd) (fun row a e hr ha h => erR row a e hr ha h) hl

/-- Whatever codec the compression code names (R181). -/
theorem codec_keeps {codec : State → BitReader → Except Raised (Memory 16 × BitReader)} {code : Nat}
    (hc : codecOf code = some codec) (hm : s.mem.mos.wf s.params.maxPixels = true) (hfit : s.mosaicFits = true)
    (hin : s.regionInside = true) {br : BitReader} (hb : br.wf s.params = true) :
    CodecKeeps s.params s.mem.mos (codec s br) := by
  unfold codecOf at hc
  split at hc
  · cases hc; exact unpack_keeps hm hfit hin hb
  split at hc
  · cases hc; exact sony_keeps hm hfit hin hb
  split at hc
  · cases hc; exact nikon_keeps hm hfit hin hb
  · cases hc

end codecs

end Sys2Proof.Machine
end

