-- ==== Sys2Proof/Laws/Invariant.lean ====
section
/-! SUPPORT. What keeps the invariant: each update of the state, taking a fault, the two resets, and the end of a command. -/

namespace Sys2Proof.Machine

variable {s : State}

/-! ### What keeps the invariant -/

theorem State.Inv.setBr (h : s.Inv) {br : BitReader} (hb : br.wf s.params = true) : (s.setBr br).Inv :=
  ⟨h.params, h.memory, h.reserved, h.latch, hb, h.slots, h.drawn⟩

theorem State.Inv.setRes (h : s.Inv) (v : Word) : (s.setRes v).Inv :=
  ⟨h.params, h.memory, h.reserved, h.latch, h.cursor, h.slots, h.drawn⟩

theorem State.Inv.setMos (h : s.Inv) {m : Memory 16} (hm : m.wf s.params.maxPixels = true) (he : m.epoch = s.mem.mos.epoch) :
    (s.setMos m).Inv := by
  have hw := (Memories.wf_iff _ _).mp h.memory
  have hd := h.drawn
  refine ⟨h.params, (Memories.wf_iff _ _).mpr ⟨hw.1, hm, hw.2.2⟩, h.reserved, h.latch, h.cursor, h.slots, ?_⟩
  simp only [Memories.drawnBefore, decide_eq_true_eq] at hd ⊢
  simp only [State.setMos, he]
  exact hd

theorem State.Inv.setRgb (h : s.Inv) {m : Memory 16} (hm : m.wf (3 * s.params.maxPixels) = true)
    (he : m.epoch = s.mem.rgb.epoch) : (s.setRgb m).Inv := by
  have hw := (Memories.wf_iff _ _).mp h.memory
  have hd := h.drawn
  refine ⟨h.params, (Memories.wf_iff _ _).mpr ⟨hw.1, hw.2.1, hm, hw.2.2.2⟩, h.reserved, h.latch, h.cursor, h.slots, ?_⟩
  simp only [Memories.drawnBefore, decide_eq_true_eq] at hd ⊢
  simp only [State.setRgb, he]
  exact hd

theorem State.Inv.setSlot (h : s.Inv) (slot : Slot) {x : HuffSlot} (hx : x.wf = true) :
    State.Inv { s with hu := s.hu.set slot.val x } := by
  refine ⟨h.params, h.memory, h.reserved, h.latch, h.cursor, fun k => ?_, h.drawn⟩
  have hk := h.slots k
  simp only [Fin.getElem_fin] at hk ⊢
  rw [Vector.getElem_set]
  split
  · exact hx
  · exact hk

theorem State.Inv.unbuildSlot (h : s.Inv) (slot : Slot) : (s.unbuildSlot slot).Inv :=
  h.setSlot slot (HuffSlot.unbuild_wf _)

theorem State.latchWf_iff : s.latchWf = true ↔
    (s.fault = true → 1 ≤ s.regs.faultCode.toNat ∧ s.regs.faultCode.toNat ≤ 15) ∧
    (s.fault = false → s.regs.faultCode = 0 ∧ s.regs.faultInfo = 0) := by
  unfold State.latchWf
  cases s.fault
  · simp only [Bool.false_eq_true, if_false, false_implies, true_and, forall_const, Bool.and_eq_true, beq_iff_eq]
  · simp only [if_true, forall_const, decide_eq_true_iff, Bool.true_eq_false, false_implies, and_true]

/-- Free values drawn now stay drawn when more are. -/
theorem Memories.drawnBefore_mono {m : Memories} {d d' : Nat} (h : m.drawnBefore d = true) (hd : d ≤ d') :
    m.drawnBefore d' = true := by
  simp only [Memories.drawnBefore, decide_eq_true_eq] at h ⊢; omega

theorem Memories.spoilAll_drawn (ws : List Space) : ∀ {m : Memories} {d : Nat}, m.drawnBefore d = true →
    (m.spoilAll ws d).drawnBefore (d + ws.length) = true := by
  induction ws with
  | nil => intro m d h; exact h
  | cons sp rest ih =>
    intro m d h
    have : (m.spoil d sp).drawnBefore (d + 1) = true := by
      simp only [Memories.drawnBefore, decide_eq_true_eq] at h ⊢
      cases sp <;> simp only [Memories.spoil, Memory.blank_epoch] <;> omega
    have := ih this
    rwa [List.length_cons, show d + (rest.length + 1) = d + 1 + rest.length by omega]

/-- Taking a fault keeps the invariant (R334). -/
theorem State.Inv.takeFault (h : s.Inv) (ws : List Space) (c : Cause) : (takeFault ws c s).Inv := by
  refine ⟨h.params, Memories.spoilAll_wf ws _ h.memory, h.reserved, ?_, h.cursor, h.slots, ?_⟩
  · exact decide_eq_true c.code.number_bounds
  · exact Memories.spoilAll_drawn ws (Memories.drawnBefore_mono h.drawn (by simp))

/-- What a body of a command must do for the command to keep the invariant. -/
def BodyKeeps (base : State) : Except Raised State → Prop
  | .ok t => t.Inv ∧ t.params = base.params
  | .error e => e.br.wf base.params = true

theorem settle_keeps {base : State} (ws : List Space) (hb : base.Inv) {r : Except Raised State} (h : BodyKeeps base r) :
    (settle ws base r).Inv ∧ (settle ws base r).params = base.params := by
  cases r with
  | ok t => exact h
  | error e => exact ⟨(hb.setBr h).takeFault ws e.cause, rfl⟩

theorem whenAccepting_keeps (hs : s.Inv) {f : State → State} (h : (f s).Inv ∧ (f s).params = s.params) {t : State}
    (ht : whenAccepting s f = .next t) : t.Inv ∧ t.params = s.params := by
  rcases whenAccepting_cases ht with ⟨-, rfl⟩ | ⟨-, rfl⟩
  · exact ⟨hs, rfl⟩
  · exact h

/-- A reset keeps the invariant (R320). -/
theorem systemReset_inv (h : s.Inv) : (systemReset s).Inv := by
  refine ⟨h.params, h.memory, (by decide : Regs.zero.reservedClear = true), by simp [State.latchWf, systemReset, Regs.zero], rfl, fun slot => ?_,
    Memories.drawnBefore_mono h.drawn (by simp [systemReset])⟩
  match slot with
  | 0 => rfl
  | 1 => rfl
  | 2 => rfl
  | 3 => rfl

theorem Memories.blank_drawn (d : Nat) : (Memories.blank d).drawnBefore (d + 8) = true := by
  rw [Memories.drawnBefore, decide_eq_true_iff]
  simp only [Memories.blank, Memory.blank_epoch]
  omega

theorem hardwareReset_inv (h : s.Inv) : (hardwareReset s).Inv := by
  have := systemReset_inv h
  exact ⟨h.params, Memories.blank_wf _ _, this.reserved, this.latch, this.cursor, this.slots,
    Memories.drawnBefore_mono (Memories.blank_drawn (s.draws + 1)) (by simp [hardwareReset])⟩

end Sys2Proof.Machine
end

