-- ==== Sys2Proof/Laws/PerInstr.lean ====
section
/-! SUPPORT. Laws said of every command: its encoding has the bits of its row (R92) and its operand where the row wants it
(R93). -/

namespace Sys2Proof

/-- Every row compares the whole of `OP` (R92). -/
theorem Row.selects_opcode {r : Row} {c : Word} (h : r.selects c = true) : c &&& 0xFF#32 = r.value := by
  rw [Row.selects, beq_iff_eq] at h
  have hm : r.mask &&& 0xFF#32 = 0xFF#32 := by cases r <;> rfl
  have hv : r.value &&& 0xFF#32 = r.value := by cases r <;> rfl
  rw [← hv, ← h, BitVec.and_assoc, hm]

/-- Rows have opcodes of their own (R92). -/
theorem Row.value_inj {r r' : Row} (h : r.value = r'.value) : r = r' := by
  revert h; cases r <;> cases r' <;> decide

theorem Row.mem_all (r : Row) : r ∈ Row.all := by cases r <;> decide

end Sys2Proof

namespace Sys2Proof.Laws.RowMatch

/-- The word of a legal command is one its row selects, with the operand in bits 13:8. -/
def Statement (i : Instr) : Prop :=
  i.wf = true → i.row.selects (encode i) = true ∧ wordField (encode i) 13 8 = i.operandField

theorem sysReset : Statement .sysReset := by unfold Statement; decide
theorem brInit (mode : ReaderMode) : Statement (.brInit mode) := by unfold Statement; cases mode <;> decide
theorem brRead (n : Nat) : Statement (.brRead n) := by
  intro h
  simp only [Instr.wf, legalCount, decide_eq_true_eq] at h
  obtain ⟨h1, h2⟩ := h
  interval_cases n <;> decide
theorem brPeek (n : Nat) : Statement (.brPeek n) := by
  intro h
  simp only [Instr.wf, legalCount, decide_eq_true_eq] at h
  obtain ⟨h1, h2⟩ := h
  interval_cases n <;> decide
theorem brSkip (n : Nat) : Statement (.brSkip n) := by
  intro h
  simp only [Instr.wf, legalCount, decide_eq_true_eq] at h
  obtain ⟨h1, h2⟩ := h
  interval_cases n <;> decide
theorem huBuild (slot : Slot) : Statement (.huBuild slot) := by unfold Statement; revert slot; decide
theorem huSym (slot : Slot) : Statement (.huSym slot) := by unfold Statement; revert slot; decide
theorem huDec (slot : Slot) : Statement (.huDec slot) := by unfold Statement; revert slot; decide
theorem dcRun : Statement .dcRun := by unfold Statement; decide
theorem ppNorm (mul : NormMode) : Statement (.ppNorm mul) := by unfold Statement; cases mul <;> decide
theorem dmRun (dmode : DemosaicMode) : Statement (.dmRun dmode) := by unfold Statement; cases dmode <;> decide
theorem cpWb : Statement .cpWb := by unfold Statement; decide
theorem cpCc : Statement .cpCc := by unfold Statement; decide
theorem cpGamma : Statement .cpGamma := by unfold Statement; decide

end Sys2Proof.Laws.RowMatch
end

