-- ==== Sys2Proof/Laws/Samples.lean ====
section
/-! SUPPORT. What one turn of the long loops gives: a Sony half-group by the notions of Safety, the predictors of a Nikon run,
one neighbour of an X-Trans rule; and the tests on the geometry in words. -/

namespace Sys2Proof.Machine

/-! ### Geometry -/

theorem State.mosaicFits_iff (s : State) :
    s.mosaicFits = true ↔ s.regs.w ≠ 0 ∧ s.regs.h ≠ 0 ∧ s.regs.w * s.regs.h ≤ s.params.maxPixels := decide_eq_true_iff

theorem State.regionInside_iff (s : State) :
    s.regionInside = true ↔ s.regs.inOff.toNat + s.regs.inLen.toNat ≤ s.params.inSize := decide_eq_true_iff

theorem State.demosaicFits_iff (s : State) :
    s.demosaicFits = true ↔ 2 ≤ s.regs.w ∧ 2 ≤ s.regs.h ∧ s.regs.w * s.regs.h ≤ s.params.maxPixels := decide_eq_true_iff

theorem State.imageFits_iff (s : State) :
    s.imageFits = true ↔ s.regs.imagePixels ≠ 0 ∧ s.regs.imagePixels ≤ s.params.maxPixels := decide_eq_true_iff

/-! ### Sony -/

theorem bitlen_eq_sonyScale {d : Nat} (h : d < 2048) : bitlen (d >>> 7) = sonyScale d := by
  have all : ∀ d, d < 2048 → bitlen (d >>> 7) = sonyScale d := by decide +kernel
  exact all d h

section sony

variable {s : State} {br : BitReader} {k : Nat}

/-- How many deltas stand before the one of sample `i` (R193). -/
def deltaIndex (val : Nat → Nat → Nat) (k i : Nat) : Nat :=
  i - (if val (128 * k + 22) 4 < i then 1 else 0) - (if val (128 * k + 26) 4 < i then 1 else 0)

/-- One sample of a half-group with a good header. -/
theorem sonySample_eq (hg : sonyGood (streamValue s.mem.inp br) k) (r g h : Nat) {i : Nat} (hi : i < 16) {st : Memory 16 × Nat}
    (hq : st.2 = 128 * k + 30 + 7 * deltaIndex (streamValue s.mem.inp br) k i) :
    let val := streamValue s.mem.inp br
    sonySample s br r g h (val (128 * k) 11) (val (128 * k + 11) 11) (val (128 * k + 22) 4) (val (128 * k + 26) 4)
        (bitlen ((val (128 * k) 11 - val (128 * k + 11) 11) >>> 7)) i st =
      if s.regs.curveEntries ≤ 2 * sonyValue val k i then .error ⟨⟨.bounds, infoNat (2 * sonyValue val k i)⟩, br⟩
      else .ok (st.1.write (r * s.regs.w + (32 * g + 2 * i + h)) (s.mem.curve.read (2 * sonyValue val k i)),
        128 * k + 30 + 7 * deltaIndex val k (i + 1)) := by
  intro val
  have hmax := streamValue_lt s.mem.inp br (128 * k) 11
  rw [bitlen_eq_sonyScale (show val (128 * k) 11 - val (128 * k + 11) 11 < 2048 from Nat.lt_of_le_of_lt (Nat.sub_le _ _) hmax)]
  have hv : (if (i == val (128 * k + 22) 4) = true then val (128 * k) 11
      else if (i == val (128 * k + 26) 4) = true then val (128 * k + 11) 11
      else Nat.min (val (128 * k + 11) 11 + val st.2 7 <<< sonyScale (val (128 * k) 11 - val (128 * k + 11) 11)) 0x7FF) =
      sonyValue val k i := by
    simp only [sonyValue, beq_iff_eq, Nat.shiftLeft_eq, hq, deltaIndex, val]
  have hne : val (128 * k + 22) 4 ≠ val (128 * k + 26) 4 := hg.1
  unfold sonySample
  simp only [val, hv]
  unfold sonyStore
  unfold deltaIndex at hq ⊢
  dsimp only
  by_cases hc : s.regs.curveEntries ≤ 2 * sonyValue val k i
  · simp only [val, if_pos hc]
  · simp only [val, if_neg hc, Except.ok.injEq, Prod.mk.injEq, true_and, Bool.or_eq_true, beq_iff_eq]
    rw [hq]
    clear hv hq hmax hc hg
    simp only [val] at hne ⊢
    generalize streamValue s.mem.inp br (128 * k + 22) 4 = a at *
    generalize streamValue s.mem.inp br (128 * k + 26) 4 = b at *
    split_ifs <;> omega

/-- The first `n` samples of a half-group with a good header, when their indices lie inside the curve. -/
theorem sonySamples_ok (hg : sonyGood (streamValue s.mem.inp br) k) (r g h : Nat) (m : Memory 16) {n : Nat} (hn : n ≤ 16)
    (hin : ∀ i, i < n → 2 * sonyValue (streamValue s.mem.inp br) k i < s.regs.curveEntries) :
    let val := streamValue s.mem.inp br
    ∃ t, loop n (sonySample s br r g h (val (128 * k) 11) (val (128 * k + 11) 11) (val (128 * k + 22) 4) (val (128 * k + 26) 4)
        (bitlen ((val (128 * k) 11 - val (128 * k + 11) 11) >>> 7))) (m, 128 * k + 30) = .ok t ∧
      t.2 = 128 * k + 30 + 7 * deltaIndex val k n ∧
      (∀ i, i < n → t.1.read (r * s.regs.w + (32 * g + 2 * i + h)) = s.mem.curve.read (2 * sonyValue val k i)) ∧
      (∀ j, (∀ i, i < n → j ≠ r * s.regs.w + (32 * g + 2 * i + h)) → t.1.read j = m.read j) := by
  intro val
  refine loop_total (P := fun n (t : Memory 16 × Nat) => t.2 = 128 * k + 30 + 7 * deltaIndex val k n ∧
      (∀ i, i < n → t.1.read (r * s.regs.w + (32 * g + 2 * i + h)) = s.mem.curve.read (2 * sonyValue val k i)) ∧
      (∀ j, (∀ i, i < n → j ≠ r * s.regs.w + (32 * g + 2 * i + h)) → t.1.read j = m.read j))
    ⟨by simp [deltaIndex], fun i hi => absurd hi (Nat.not_lt_zero i), fun _ _ => rfl⟩ ?_
  intro i hi a ⟨h1, h2, h3⟩
  refine ⟨_, (sonySample_eq hg r g h (by omega) h1).trans (if_neg (by have := hin i hi; omega)), rfl, ?_, ?_⟩
  · intro i' hi'
    rw [Memory.read_write]
    split
    · rw [show i' = i by omega]
    · exact h2 i' (by omega)
  · intro j hj
    rw [Memory.read_write_ne _ _ (hj i (by omega))]
    exact h3 j (fun i' hi' => hj i' (by omega))

/-- A half-group with a good header whose sixteen indices lie inside the curve. -/
theorem sonyHalfGroup_ok {groups r g h : Nat} (hk : k = (r * groups + g) * 2 + h)
    (hg : sonyGood (streamValue s.mem.inp br) k)
    (hin : ∀ i, i < 16 → 2 * sonyValue (streamValue s.mem.inp br) k i < s.regs.curveEntries) (m : Memory 16) :
    ∃ m', sonyHalfGroup s br groups r g h m = .ok m' ∧
      (∀ i, i < 16 → m'.read (r * s.regs.w + (32 * g + 2 * i + h)) =
        s.mem.curve.read (2 * sonyValue (streamValue s.mem.inp br) k i)) ∧
      (∀ j, (∀ i, i < 16 → j ≠ r * s.regs.w + (32 * g + 2 * i + h)) → m'.read j = m.read j) := by
  obtain ⟨t, ht, -, h2, h3⟩ := sonySamples_ok hg r g h m (Nat.le_refl 16) hin
  refine ⟨t.1, ?_, h2, h3⟩
  unfold sonyHalfGroup
  simp only [← hk]
  rw [if_neg hg.1, if_neg (Nat.not_lt.2 hg.2), ht]
  rfl

/-- A half-group with a bad header (R192). -/
theorem sonyHalfGroup_bad {groups r g h : Nat} (hk : k = (r * groups + g) * 2 + h)
    (hg : ¬ sonyGood (streamValue s.mem.inp br) k) (m : Memory 16) :
    sonyHalfGroup s br groups r g h m = .error ⟨⟨.decodeFormat, infoNat k⟩, br⟩ := by
  unfold sonyGood at hg
  unfold sonyHalfGroup
  simp only [← hk]
  split
  · rfl
  · rw [if_pos (by omega)]

/-- A half-group with a good header of which sample `i` is the first to ask for an index beyond the curve (R194). -/
theorem sonyHalfGroup_bounds {groups r g h : Nat} (hk : k = (r * groups + g) * 2 + h)
    (hg : sonyGood (streamValue s.mem.inp br) k) {i : Nat} (hi : i < 16)
    (hb : s.regs.curveEntries ≤ 2 * sonyValue (streamValue s.mem.inp br) k i)
    (hin : ∀ i', i' < i → 2 * sonyValue (streamValue s.mem.inp br) k i' < s.regs.curveEntries) (m : Memory 16) :
    sonyHalfGroup s br groups r g h m =
      .error ⟨⟨.bounds, infoNat (2 * sonyValue (streamValue s.mem.inp br) k i)⟩, br⟩ := by
  obtain ⟨t, ht, h1, -, -⟩ := sonySamples_ok hg r g h m (Nat.le_of_lt hi) hin
  have hl := loop_error ht hi ((sonySample_eq hg r g h hi h1).trans (if_pos hb))
  unfold sonyHalfGroup
  simp only [← hk]
  rw [if_neg hg.1, if_neg (Nat.not_lt.2 hg.2), hl]
  rfl

/-- A sample's value is an 11-bit one (R193). -/
theorem sonyValue_le (inp : Memory 8) (br : BitReader) (k i : Nat) : sonyValue (streamValue inp br) k i ≤ 2047 := by
  have h1 := streamValue_lt inp br (128 * k) 11
  have h2 := streamValue_lt inp br (128 * k + 11) 11
  unfold sonyValue
  dsimp only
  split
  · omega
  split
  · omega
  · exact Nat.min_le_right _ _

end sony

/-! ### Nikon -/

/-- The vertical predictor of a column, after one is written (R204). -/
theorem NikonRun.setVertical_vertical (st : NikonRun) (row row' : Nat) {col col' : Nat} (t : Int) (hc : col < 2) (hc' : col' < 2) :
    (st.setVertical row col t).vertical row' col' = if row' % 2 = row % 2 ∧ col' = col then t else st.vertical row' col' := by
  have h1 : row % 2 = 0 ∨ row % 2 = 1 := by omega
  have h2 : row' % 2 = 0 ∨ row' % 2 = 1 := by omega
  have h3 : col = 0 ∨ col = 1 := by omega
  have h4 : col' = 0 ∨ col' = 1 := by omega
  rcases h1 with h1 | h1 <;> rcases h2 with h2 | h2 <;> rcases h3 with rfl | rfl <;> rcases h4 with rfl | rfl <;>
    simp [NikonRun.setVertical, NikonRun.vertical, h1, h2]

@[simp] theorem NikonRun.setHorizontal_vertical (st : NikonRun) (col row' col' : Nat) (t : Int) :
    (st.setHorizontal col t).vertical row' col' = st.vertical row' col' := by
  unfold NikonRun.setHorizontal; split <;> rfl

/-- The horizontal predictor of a column, after one is written (R204). -/
theorem NikonRun.setHorizontal_horizontal' (st : NikonRun) (col col' : Nat) (t : Int) :
    (st.setHorizontal col t).horizontal col' = if col' % 2 = col % 2 then t else st.horizontal col' := by
  have h1 : col % 2 = 0 ∨ col % 2 = 1 := by omega
  have h2 : col' % 2 = 0 ∨ col' % 2 = 1 := by omega
  rcases h1 with h1 | h1 <;> rcases h2 with h2 | h2 <;> simp [NikonRun.setHorizontal, NikonRun.horizontal, h1, h2]

@[simp] theorem NikonRun.setVertical_horizontal (st : NikonRun) (row col col' : Nat) (t : Int) :
    (st.setVertical row col t).horizontal col' = st.horizontal col' := by
  unfold NikonRun.setVertical; split <;> rfl

/-- A Nikon sample, the slot in use and the cursor being known. -/
theorem nikonSample_eq {s : State} {row col : Nat} {st : NikonRun} {slot : Slot} {br : BitReader}
    (h1 : st.cur = slot) (h2 : st.br = br) :
    nikonSample s row col st =
      match huffDec s.mem.inp slot.val s.hu[slot] br with
      | .error e => .error e
      | .ok (d, br') =>
        match nikonPredict row col d { st with br := br' } with
        | .error e => .error e
        | .ok st' => nikonLinearize s (row * s.regs.w + col) (st'.horizontal col) st' := by
  subst h1 h2; rfl

/-! ### X-Trans -/

/-- One neighbour of a rule, its code read off the word (R101, R263). -/
theorem xtransNeighbour_eq (m : Mosaic) (e y x : Nat) (w : Word) (j sum : Nat) :
    xtransNeighbour m e y x w j sum =
      if 8 < w.toNat / 2 ^ (3 + 4 * j) % 16 then .error ⟨.illegalCfg, w⟩
      else
        match m.neighbour y x (w.toNat / 2 ^ (3 + 4 * j) % 16) with
        | none => .error ⟨.bounds, infoNat e⟩
        | some p => .ok (sum + m.at p) := by
  have hd : bits w (6 + 4 * j) (3 + 4 * j) = w.toNat / 2 ^ (3 + 4 * j) % 16 := by
    simp [bits, wordField, show 6 + 4 * j + 1 - (3 + 4 * j) = 4 by omega]
  unfold xtransNeighbour
  simp only [hd] <;> rfl

/-- A neighbour code names a position exactly when that lies inside the image (R102). -/
theorem Mosaic.neighbour_isSome_iff (m : Mosaic) (y x d : Nat) :
    (m.neighbour y x d).isSome = true ↔ 1 ≤ y + d / 3 ∧ y + d / 3 ≤ m.h ∧ 1 ≤ x + d % 3 ∧ x + d % 3 ≤ m.w := by
  unfold Mosaic.neighbour
  split
  · simp only [Option.isSome_some, true_iff]; omega
  · simp only [Option.isSome_none, Bool.false_eq_true, false_iff]; omega

end Sys2Proof.Machine
end

