-- ==== Sys2Proof/Tests/Slice0.lean ====
section
/-! SUPPORT. The model's own tests: the well-formedness check refuses each kind of ill-formed term; a word of every command
written out from the command table of spec/30_encoding.md R92; one step of every command against values the spec states
(each test names the rule its values are from); and, for every statement with hypotheses, states that meet them. -/

namespace Sys2Proof.Tests

open Sys2Proof.Machine

set_option Elab.async false

/-! ### Well-formedness (R93) -/

theorem test_wf_count_zero_refused : (Instr.brRead 0).wf = false ∧ (Instr.brPeek 0).wf = false ∧ (Instr.brSkip 0).wf = false := by
  decide
theorem test_wf_count_33_refused : (Instr.brRead 33).wf = false ∧ (Instr.brPeek 33).wf = false ∧ (Instr.brSkip 33).wf = false := by
  decide
theorem test_wf_bounds_accepted : (Instr.brRead 1).wf = true ∧ (Instr.brPeek 32).wf = true ∧ (Instr.brSkip 32).wf = true := by
  decide

/-! ### Words of R92, bit by bit: bits 31:16 zero, then the operand byte, then `OP` -/

theorem test_decode_sysReset : decode 0b0000000000000000_00000000_00000001#32 = .ok .sysReset := by decide
theorem test_decode_brInit : decode 0b0000000000000000_00000001_00010000#32 = .ok (.brInit .lsb) := by decide
theorem test_decode_brRead : decode 0b0000000000000000_00001011_00010001#32 = .ok (.brRead 11) := by decide
theorem test_decode_brPeek : decode 0b0000000000000000_00100000_00010010#32 = .ok (.brPeek 32) := by decide
theorem test_decode_brSkip : decode 0b0000000000000000_00000001_00010011#32 = .ok (.brSkip 1) := by decide
theorem test_decode_huBuild : decode 0b0000000000000000_00000010_00100000#32 = .ok (.huBuild 2) := by decide
theorem test_decode_huSym : decode 0b0000000000000000_00000001_00100001#32 = .ok (.huSym 1) := by decide
theorem test_decode_huDec : decode 0b0000000000000000_00000011_00100010#32 = .ok (.huDec 3) := by decide
theorem test_decode_dcRun : decode 0b0000000000000000_00000000_00110000#32 = .ok .dcRun := by decide
theorem test_decode_ppNorm : decode 0b0000000000000000_00000000_00111000#32 = .ok (.ppNorm .shift) := by decide
theorem test_decode_dmRun : decode 0b0000000000000000_00000010_01000000#32 = .ok (.dmRun .linear) := by decide
theorem test_decode_cpWb : decode 0b0000000000000000_00000000_01010000#32 = .ok .cpWb := by decide
theorem test_decode_cpCc : decode 0b0000000000000000_00000000_01010001#32 = .ok .cpCc := by decide
theorem test_decode_cpGamma : decode 0b0000000000000000_00000000_01010010#32 = .ok .cpGamma := by decide

/-- The illegal words of R94: all zero, an unknown `OP`, a bit in 31:16, a bit in a masked part of `A`, `mode = 3`, `n = 0`,
`n = 33`. -/
theorem test_decode_illegal :
    decode 0x00000000#32 = .error .noSuchCommand ∧ decode 0x00000014#32 = .error .noSuchCommand ∧
    decode 0x00010001#32 = .error .noSuchCommand ∧ decode 0x00000238#32 = .error .noSuchCommand ∧
    decode 0x00000310#32 = .error .illegalReaderMode ∧ decode 0x00000011#32 = .error .illegalBitCount ∧
    decode 0x00002111#32 = .error .illegalBitCount := by decide

/-- A table word, its bits above `nbits` zero. -/
theorem test_decodeTableWord : decodeTableWord 32 0x00000B12 = some (.brPeek 11) ∧ decodeTableWord 32 0 = none := by decide

/-! ### Small states -/

/-- Elements `i`, `i + 1`, and so on, with these values. -/
def listed (w : Nat) : Nat → List Nat → List (Nat × BitVec w)
  | _, [] => []
  | i, v :: vs => (i, BitVec.ofNat w v) :: listed w (i + 1) vs

/-- A memory with elements written from element 0 on. -/
def written (w : Nat) (vs : List Nat) : Memory w := { cells := listed w 0 vs, epoch := 0 }

/-- A small block after a reset. -/
def base : State := { State.reset with params := { inSize := 64, maxPixels := 64, dither := .off } }

/-- The state a command ends in. -/
def after (i : Instr) (s : State) : State :=
  match exec i s with
  | .next t => t
  | .fault _ => s
  | .refused _ => s

/-- The bytes of the spec's bit-reader vectors (V10) under a cursor. -/
def reader (mode : ReaderMode) (pos : Nat) : State :=
  { base with
    mem := { base.mem with inp := written 8 [0x8D, 0xD4, 0x99, 0xF1, 0x0B, 0x9B] }
    br := { bound := true, mode := mode, base := 0, len := 6, pos := BitVec.ofNat 64 pos } }

/-- A JPEG cursor over `AB FF`: eight data bits, then zeros. -/
def jpegReader (pos : Nat) : State :=
  { base with
    mem := { base.mem with inp := written 8 [0xAB, 0xFF] }
    br := { bound := true, mode := .jpeg, base := 0, len := 2, pos := BitVec.ofNat 64 pos } }

/-- The slot of the table with one code of each length 1 to 4: 0, 10, 110, 1110 for the symbols 0 to 3. -/
def smallSlot : HuffSlot :=
  { built := true, maxlen := 4, lut := [⟨0, 1, 0⟩, ⟨2, 2, 1⟩, ⟨6, 3, 2⟩, ⟨14, 4, 3⟩] }

/-- A slot whose one code, 0, stands for this symbol. -/
def oneCode (sym : Byte) : HuffSlot := { built := true, maxlen := 1, lut := [⟨0, 1, sym⟩] }

/-- An MSB cursor over these bytes, and this slot 0. -/
def decoding (bytes : List Nat) (h : HuffSlot) : State :=
  { base with
    mem := { base.mem with inp := written 8 bytes }
    hu := base.hu.set 0 h
    br := { bound := true, mode := .msb, base := 0, len := BitVec.ofNat 32 bytes.length, pos := 0 } }

/-- A specification in slot 0 of `HTS`. -/
def specified (counts syms shifts : List Nat) : State :=
  { base with mem := { base.mem with hts := { cells := listed 8 0 counts ++ listed 8 16 syms ++ listed 8 272 shifts, epoch := 0 } } }

/-- `DC.RUN` over these bytes. -/
def compressed (code w h : Nat) (bytes : List Nat) (g : Regs → Regs) : State :=
  { base with
    mem := { base.mem with inp := written 8 bytes }
    regs := g { base.regs with
      compression := BitVec.ofNat 32 code, width := BitVec.ofNat 32 w, height := BitVec.ofNat 32 h
      inLen := BitVec.ofNat 32 bytes.length } }

/-- A mosaic. -/
def mosaicked (w h : Nat) (samples : List Nat) (g : Regs → Regs) : State :=
  { base with
    mem := { base.mem with mos := written 16 samples }
    regs := g { base.regs with width := BitVec.ofNat 32 w, height := BitVec.ofNat 32 h } }

/-- An image of one row. -/
def imaged (samples : List Nat) (g : Regs → Regs) : State :=
  { base with
    mem := { base.mem with rgb := written 16 samples }
    regs := g { base.regs with rgbWidth := BitVec.ofNat 32 (samples.length / 3), rgbHeight := 1 } }

/-- A block in the fault state. -/
def faulted : State := { base with fault := true, regs := { base.regs with faultCode := 3, faultInfo := 16, width := 7 } }

/-- The first `n` samples of the mosaic, and of the image. -/
def State.mosaicList (s : State) (n : Nat) : List Nat := (List.range n).map s.mem.mos.readNat
@[inherit_doc State.mosaicList]
def State.imageList (s : State) (n : Nat) : List Nat := (List.range n).map s.mem.rgb.readNat

/-! ### One step of every command -/

/-- R320, R336: the way out of the fault state. -/
theorem test_sysReset : (after .sysReset faulted).fault = false ∧ (after .sysReset faulted).regs = Regs.zero := by decide

/-- R125. -/
theorem test_brInit :
    (after (.brInit .jpeg) { base with regs := { base.regs with inOff := 60, inLen := 4 } }).br
      = { bound := true, mode := .jpeg, base := 60, len := 4, pos := 0 } := by decide

/-- V10: the first 11 bits, in LSB and in MSB order. -/
theorem test_brRead_lsb : (after (.brRead 11) (reader .lsb 0)).regs.res = 0x48D ∧ (after (.brRead 11) (reader .lsb 0)).br.pos = 11 := by
  decide +kernel
theorem test_brRead_msb : (after (.brRead 11) (reader .msb 0)).regs.res = 0x46E := by decide +kernel

/-- V10. -/
theorem test_brPeek : (after (.brPeek 7) (reader .lsb 11)).regs.res = 0x3A ∧ (after (.brPeek 7) (reader .lsb 11)).br.pos = 11 := by
  decide +kernel
/-- V10: `AB FF` in JPEG mode reads `AB00`. -/
theorem test_brPeek_jpeg : (after (.brPeek 16) (jpegReader 0)).regs.res = 0xAB00 := by decide +kernel

/-- V10. -/
theorem test_brSkip : (after (.brSkip 7) (reader .lsb 11)).br.pos = 18 ∧ (after (.brSkip 7) (reader .lsb 11)).regs.res = 0 := by
  decide +kernel

/-- R152: the codes are 0, 10, 110, 1110. -/
theorem test_huBuild :
    (after (.huBuild 0) (specified ([1, 1, 1, 1] ++ List.replicate 12 0) [0, 1, 2, 3] [0, 0, 0, 0])).hu[0] = smallSlot := by
  decide +kernel

/-- R156 on the byte E0: 1110 is the code of symbol 3. -/
theorem test_huSym :
    (after (.huSym 0) (decoding [0xE0] smallSlot)).regs.res = 3 ∧ (after (.huSym 0) (decoding [0xE0] smallSlot)).br.pos = 4 := by
  decide +kernel

/-- R158 on the byte E0: three raw bits 000 are -7. -/
theorem test_huDec :
    (after (.huDec 0) (decoding [0xE0] smallSlot)).regs.res = 0xFFFFFFF9 ∧ (after (.huDec 0) (decoding [0xE0] smallSlot)).br.pos = 7 := by
  decide +kernel

/-- V13's packed big-endian 12-bit vector. -/
def packed : State := compressed 1 2 2 [0x12, 0x3A, 0xBC, 0xFF, 0xF0, 0x00] (fun g => { g with unpackCfg := 0x0C })

/-- The spec's Sony half-groups `h0`, `h1`, `h3`, `h4` (V12). -/
def h0 : List Nat := [0xE8, 0x43, 0xC6, 0x30, 0x20, 0x20, 0x18, 0x14, 0x14, 0x14, 0x14, 0x90, 0x3C, 0x96, 0x65, 0x18]
@[inherit_doc h0]
def h1 : List Nat := [0xFF, 0xC7, 0x3F, 0x3C, 0x20, 0x20, 0x18, 0x10, 0x0A, 0x86, 0x83, 0xA1, 0x40, 0x18, 0x08, 0x02]
@[inherit_doc h0]
def h3 : List Nat := [0x64, 0x90, 0x01, 0x11] ++ List.replicate 12 0
@[inherit_doc h0]
def h4 : List Nat := [0x32, 0x20, 0x03, 0x04] ++ List.replicate 12 0

/-- Two half-groups, a row of 32 samples, under a curve of which the even entries from 400 on name themselves. -/
def sonyRow (a b : List Nat) : State :=
  let s := compressed 32767 32 1 (a ++ b) (fun g => { g with curveLen := 4095 })
  { s with mem := { s.mem with curve := { cells := [400, 416, 432, 448, 480, 560, 592, 720, 800, 1040, 1200, 1424, 1984, 2000, 4080,
      4082, 4084, 4086, 4088, 4090, 4092, 4094].map (fun i => (i, BitVec.ofNat 16 i)), epoch := 0 } } }

/-- V13, V12. -/
theorem test_dcRun_packed_and_sony :
    State.mosaicList (after .dcRun packed) 4 = [0x123, 0xABC, 0xFFF, 0] ∧ (after .dcRun packed).br.pos = 48 ∧
    State.mosaicList (after .dcRun (sonyRow h0 h1)) 8 = [400, 4094, 416, 4080, 432, 4082, 2000, 4084] := by decide +kernel

/-- The spec's table `T1` (V11): one code of 2 bits, five of 3, and one of each length 4 to 9. -/
def tableT1 : HuffSlot :=
  { built := true, maxlen := 9
    lut := [⟨0, 2, 0⟩, ⟨2, 3, 1⟩, ⟨3, 3, 2⟩, ⟨4, 3, 3⟩, ⟨5, 3, 4⟩, ⟨6, 3, 5⟩, ⟨0xE, 4, 6⟩, ⟨0x1E, 5, 7⟩, ⟨0x3E, 6, 8⟩, ⟨0x7E, 7, 9⟩,
      ⟨0xFE, 8, 10⟩, ⟨0x1FE, 9, 11⟩] }

/-- V14's run: two rows of four, under a curve that names its own indices. -/
def nikonRows : State :=
  let s := compressed 34713 4 2 [0x95, 0x8E, 0x12, 0xD1, 0x38, 0x00, 0x00] (fun g => { g with
    vpred00 := 100, vpred01 := 200, vpred10 := 300, vpred11 := 400, curveLen := 4096 })
  { s with
    hu := s.hu.set 0 tableT1
    mem := { s.mem with curve := { cells := [105, 107, 197, 299, 410, 417].map (fun i => (i, BitVec.ofNat 16 i)), epoch := 0 } } }

/-- V14. -/
theorem test_dcRun_nikon :
    State.mosaicList (after .dcRun nikonRows) 8 = [105, 197, 107, 197, 299, 410, 299, 417] ∧ (after .dcRun nikonRows).br.pos = 37 := by
  decide +kernel

/-- R234. -/
def normalizing (sample : Nat) : State :=
  mosaicked 1 1 [sample] (fun g => { g with black := 64, scale := 4 })

theorem test_ppNorm_shift : State.mosaicList (after (.ppNorm .shift) (normalizing 100)) 1 = [576] := by decide +kernel
theorem test_ppNorm_multiply :
    State.mosaicList (after (.ppNorm .multiply) (mosaicked 1 1 [30000] (fun g => { g with scale := 3 }))) 1 = [65535] := by
  decide +kernel

/-- V17's 3x3 mosaic, `Rggb`. -/
def bayer : State := mosaicked 3 3 [1, 2, 4, 8, 16, 32, 64, 128, 255] id

theorem test_dmRun_linear :
    State.imageList (after (.dmRun .linear) bayer) 27 =
      [1, 5, 16, 2, 2, 16, 4, 17, 16, 32, 8, 16, 81, 42, 16, 129, 32, 16, 64, 68, 16, 159, 128, 16, 255, 80, 16] := by
  decide +kernel

/-- An X-Trans table whose only valid entry that a 3x3 image meets is the one of its centre, and a colour map. -/
def xtrans : State :=
  let s := mosaicked 3 3 [1, 2, 4, 8, 16, 32, 64, 128, 255] (fun g => { g with cfa := 4 })
  { s with mem := { s.mem with
      xtr := { cells := [(16, 0), (48, 0), (92, 0), (220, 0), (252, 1), (253, 0x398B), (254, 0x21), (255, 0x2AA9C), (296, 0), (460, 0),
        (492, 0), (536, 0)], epoch := 0 }
      xtc := written 8 ([1, 1, 0, 1, 1, 2, 1, 1, 2, 1, 1, 0, 2, 0, 1] ++ List.replicate 21 1) } }

/-- The spec's X-Trans Linear vector (R266, V19). -/
theorem test_dmRun_xtrans :
    State.imageList (after (.dmRun .linear) xtrans) 27 = List.replicate 12 0 ++ [46, 16, 26] ++ List.replicate 12 0 := by
  decide +kernel

/-- R292. -/
def balancing : State :=
  imaged [1000, 2000, 3000] (fun g => { g with wbR := 2048, wbG := 1024, wbB := 1536, wbShift := 10 })

theorem test_cpWb : State.imageList (after .cpWb balancing) 3 = [2000, 2000, 4500] := by decide +kernel

/-- R299's matrix and its first pixel. -/
def converting : State :=
  imaged [1000, 2000, 3000] (fun g => { g with
    cm := #v[12288, BitVec.ofInt 32 (-2048), BitVec.ofInt 32 (-2048), BitVec.ofInt 32 (-1024), 10240, BitVec.ofInt 32 (-1024), 0,
      BitVec.ofInt 32 (-4096), 12288] })

theorem test_cpCc : State.imageList (after .cpCc converting) 3 = [250, 2000, 3500] := by decide +kernel

/-- R296: a lookup for each channel. -/
def gammaReady : State :=
  let s := imaged [0, 1, 65535] id
  { s with mem := { s.mem with glut := { cells := [(0, 0), (1, 256), (65535, 65535)], epoch := 0 } } }

theorem test_cpGamma : State.imageList (after .cpGamma gammaReady) 3 = [0, 256, 65535] := by decide +kernel

/-! ### Witnesses: states that meet the hypotheses of the statements -/

theorem witness_DecodeInvertsEncode : (Instr.brRead 1).wf = true ∧ (Instr.brSkip 32).wf = true := by decide
theorem witness_EncodeInvertsDecode : ∃ c i, decode c = .ok i := ⟨0x00002011#32, .brRead 32, by decide⟩
theorem witness_AtMostOneRowSelectsAWord : ∃ (c : Word) (r r' : Row), r.selects c = true ∧ r'.selects c = true :=
  ⟨0x00000340#32, .dmRun, .dmRun, by decide⟩
theorem witness_LegalWordsAreExactlyThoseListed :
    ∃ (c : Word) (s : State) (rest : List HostAction), s.fault = false ∧ s.port = .write 0 0 c :: rest ∧
      ¬ (c.toNat < 2 ^ 16 ∧ legalOperand (c.toNat % 256) (c.toNat / 256)) :=
  ⟨0, base.withCommand 0, [], rfl, rfl, by unfold legalOperand; decide⟩
theorem witness_StepRunsTheDecodedCommand :
    ∃ (s : State) (c : Word) (i : Instr) (rest : List HostAction), s.port = .write 0 0 c :: rest ∧ decode c = .ok i :=
  ⟨bayer.withFetchWord 32 0x240, 0x240, .dmRun .linear, [], rfl, by decide⟩
theorem witness_EveryStepAnswersANextState : base.port = [] := rfl
theorem witness_TakingAFault : Space.mos ∈ Instr.dcRun.writes ∧ Space.rgb ∈ Instr.cpWb.writes ∧ Space.inp ∉ Instr.dcRun.writes := by
  decide
theorem witness_FaultingCommandsTakeTheFault :
    ∃ (i : Instr) (s t : State), s.fault = false ∧ exec i s = .next t ∧ t.fault = true :=
  ⟨.brRead 1, base, _, rfl, rfl, rfl⟩
theorem witness_FaultStateIgnoresCommands_other :
    ∃ (s : State) (c : Word) (rest : List HostAction), s.fault = true ∧ s.port = .write 0 0 c :: rest ∧ c ≠ 0x00000001#32 :=
  ⟨faulted.withCommand 0, 0, [], rfl, rfl, by decide⟩
theorem witness_FaultStateIgnoresCommands_reset :
    ∃ (s : State) (c : Word) (rest : List HostAction), s.fault = true ∧ s.port = .write 0 0 c :: rest ∧ c = 0x00000001#32 :=
  ⟨faulted.withCommand 1, 1, [], rfl, rfl, rfl⟩
theorem witness_FaultStateIgnoresCommands_write :
    ∃ (s t : State) (id i : Nat) (v : Word) (rest : List HostAction), (id ≠ 0 ∨ i ≠ 0) ∧ s.port = .write id i v :: rest ∧
      step s = .next t :=
  ⟨{ faulted with port := [.write 0 1 5] }, _, 0, 1, 5, [], by decide, rfl, rfl⟩
theorem witness_FaultStateIgnoresCommands_read :
    ∃ (s : State) (id i : Nat) (rest : List HostAction), s.port = .read id i :: rest :=
  ⟨{ faulted with port := [.read 0 2] }, 0, 2, [], rfl⟩
theorem witness_FaultsAreTerminalAndSticky_fault :
    ∃ s t : State, step s = .next t ∧ (∀ rest, s.port ≠ .hardwareReset :: rest ∧ s.port ≠ .write 0 0 0x00000001#32 :: rest) ∧
      s.fault = true :=
  ⟨faulted.withCommand 0, _, rfl, fun rest => by simp [State.withCommand], rfl⟩
theorem witness_FaultsAreTerminalAndSticky_none :
    ∃ s t : State, step s = .next t ∧ (∀ rest, s.port ≠ .hardwareReset :: rest ∧ s.port ≠ .write 0 0 0x00000001#32 :: rest) ∧
      s.fault = false ∧ t.fault = false :=
  ⟨{ base with port := [.write 0 10 4] }, _, rfl, fun rest => by simp, rfl, rfl⟩
theorem witness_HardwareResetLeavesOnlyZeroRegisters : ∃ (s : State) (rest : List HostAction), s.port = .hardwareReset :: rest :=
  ⟨{ faulted with port := [.hardwareReset] }, [], rfl⟩
theorem witness_StatusShowsTheUnitState : (5 ≤ 7 ∧ 7 < 8) ∧ 12 ≤ 31 := by decide
theorem witness_RegisterWrites_map :
    (⟨0x28, .cm 8, 0xFFFFFFFF, 0⟩ : RegisterRow) ∈ registerMap base ∧ (⟨0x00, .cmd, 0, 0⟩ : RegisterRow) ∈ registerMap base ∧
      (∀ row ∈ registerMap base, row.number ≠ 0x07) ∧ (∀ row ∈ registerMap base, row.number ≠ 0x29) := by decide +kernel
theorem witness_RegisterWrites_read :
    ∃ (s : State) (n : Nat) (rest : List HostAction), s.port = .read 0 n :: rest := ⟨{ base with port := [.read 0 0x29] }, 0x29, [], rfl⟩
theorem witness_RegisterWrites_written :
    ∃ (s : State) (n : Nat) (r : Reg) (v : Word) (rest : List HostAction), s.port = .write 0 n v :: rest ∧ n ≠ 0 ∧
      Reg.ofNumber n = some r ∧ Reg.writable r ≠ 0 :=
  ⟨{ base with port := [.write 0 0x28 7] }, 0x28, .cm 8, 7, [], rfl, by decide, by decide, by decide⟩
theorem witness_RegisterWrites_cursor :
    ∃ (s : State) (n : Nat) (r : Reg) (v : Word) (rest : List HostAction), s.port = .write 0 n v :: rest ∧ n ≠ 0 ∧
      Reg.ofNumber n = some r ∧ Reg.writable r ≠ 0 ∧ r = .inLen ∧ s.br.bound = true :=
  ⟨{ reader .msb 0 with port := [.write 0 9 7] }, 9, .inLen, 7, [], rfl, by decide, by decide, by decide, rfl, rfl⟩
theorem witness_RegisterWrites_ignored :
    ∃ (s : State) (n : Nat) (v : Word) (rest : List HostAction), s.port = .write 0 n v :: rest ∧ n ≠ 0 ∧
      (∀ r, Reg.ofNumber n = some r → Reg.writable r = 0) :=
  ⟨{ base with port := [.write 0 1 7] }, 1, 7, [], rfl, by decide, fun r h => by cases h; rfl⟩
theorem witness_RegisterWrites_reserved :
    ∃ (s : State) (n : Nat) (v : Word) (rest : List HostAction), s.port = .write 0 n v :: rest ∧ n ≠ 0 ∧
      (∀ r, Reg.ofNumber n = some r → Reg.writable r = 0) :=
  ⟨{ base with port := [.write 0 0x29 7] }, 0x29, 7, [], rfl, by decide, fun r h => by cases h⟩
theorem witness_HostWritesReachOneElement :
    ∃ (s : State) (id i : Nat) (sp : Space) (v : Word) (rest : List HostAction), s.port = .write id i v :: rest ∧
      Space.ofId id = some sp ∧ sp ≠ .reg ∧ i < spaceSize s.params sp :=
  ⟨{ base with port := [.write 4 2111 9] }, 4, 2111, .hts, 9, [], rfl, by decide, by decide, by decide⟩
theorem witness_HostWritesReachOneElement_cursor :
    ∃ (s : State) (id i : Nat) (sp : Space) (v : Word) (rest : List HostAction), s.port = .write id i v :: rest ∧
      Space.ofId id = some sp ∧ sp ≠ .reg ∧ i < spaceSize s.params sp ∧ sp = .inp ∧ s.br.bound = true :=
  ⟨{ reader .msb 0 with port := [.write 1 63 9] }, 1, 63, .inp, 9, [], rfl, by decide, by decide, by decide, rfl, rfl⟩
theorem witness_HostAccessesBeyond_write :
    ∃ (s : State) (id i : Nat) (v : Word) (rest : List HostAction),
      (∀ sp, Space.ofId id = some sp → spaceSize s.params sp ≤ i) ∧ s.port = .write id i v :: rest :=
  ⟨{ base with port := [.write 8 72 1] }, 8, 72, 1, [], (fun sp h => by cases h; decide), rfl⟩
theorem witness_HostAccessesBeyond_read :
    ∃ (s : State) (id i : Nat) (rest : List HostAction),
      (∀ sp, Space.ofId id = some sp → spaceSize s.params sp ≤ i) ∧ s.port = .read id i :: rest :=
  ⟨{ base with port := [.read 9 0] }, 9, 0, [], (fun sp h => by cases h), rfl⟩
theorem witness_BrInitBindsOrFaults_inside :
    ∃ s : State, s.fault = false ∧ s.regs.inOff.toNat + s.regs.inLen.toNat ≤ s.params.inSize :=
  ⟨{ base with regs := { base.regs with inOff := 64, inLen := 0 } }, by decide⟩
theorem witness_BrInitBindsOrFaults_outside :
    ∃ s : State, s.fault = false ∧ s.params.inSize < s.regs.inOff.toNat + s.regs.inLen.toNat :=
  ⟨{ base with regs := { base.regs with inOff := 64, inLen := 1 } }, by decide⟩
theorem witness_MsbReads :
    ∃ (s : State) (n : Nat), s.fault = false ∧ s.br.bound = true ∧ s.br.mode = .msb ∧ 1 ≤ n ∧ n ≤ 32 ∧
      s.br.pos.toNat + n ≤ 8 * s.br.len.toNat :=
  ⟨reader .msb 16, 32, by decide⟩
theorem witness_LsbReads :
    ∃ (s : State) (n : Nat), s.fault = false ∧ s.br.bound = true ∧ s.br.mode = .lsb ∧ 1 ≤ n ∧ n ≤ 32 ∧
      s.br.pos.toNat + n ≤ 8 * s.br.len.toNat :=
  ⟨reader .lsb 47, 1, by decide⟩
theorem witness_JpegReads :
    ∃ (s : State) (n : Nat), s.fault = false ∧ s.br.bound = true ∧ s.br.mode = .jpeg ∧ 1 ≤ n ∧ n ≤ 32 ∧
      s.br.pos.toNat + n < 2 ^ 64 :=
  ⟨jpegReader 4, 32, by decide⟩
theorem witness_Destuff : ([] : List Byte).head? ≠ some 0x00#8 ∧ [0xD9#8, 0x00#8].head? ≠ some 0x00#8 := by decide
theorem witness_CursorCommands_unbound :
    ∃ (s : State) (n : Nat), s.fault = false ∧ 1 ≤ n ∧ n ≤ 32 ∧ s.br.bound = false := ⟨base, 1, by decide⟩
theorem witness_CursorCommands_exhausted :
    ∃ (s : State) (n : Nat), s.fault = false ∧ 1 ≤ n ∧ n ≤ 32 ∧ s.br.bound = true ∧ ¬ CanRead s.br s.br.pos.toNat n :=
  ⟨reader .msb 17, 32, rfl, by decide, by decide, rfl, by unfold CanRead; decide⟩
theorem witness_CursorCommands_jpeg :
    ∃ (s : State) (n : Nat), s.fault = false ∧ 1 ≤ n ∧ n ≤ 32 ∧ s.br.bound = true ∧ ¬ CanRead s.br s.br.pos.toNat n :=
  ⟨jpegReader (2 ^ 64 - 1), 1, rfl, by decide, by decide, rfl, by unfold CanRead; decide⟩
theorem witness_PeekThenSkipIsRead :
    ∃ (s : State) (n : Nat), s.fault = false ∧ s.br.bound = true ∧ CanRead s.br s.br.pos.toNat n :=
  ⟨reader .lsb 0, 32, rfl, rfl, by unfold CanRead; decide⟩

/-- The counts of slot 0 in a state. -/
def countOf (s : State) (i : Nat) : Nat := (s.mem.hts.read (528 * (0 : Slot).val + i)).toNat

/-- A good specification, one that is empty, one of too many codes, one with an extra shift, and ones over-subscribed at the
shortest and at the longest length. -/
def goodTable : State := specified ([1, 1, 1, 1] ++ List.replicate 12 0) [0, 1, 2, 3] [0, 0, 0, 0]
@[inherit_doc goodTable]
def emptyTable : State := specified (List.replicate 16 0) [] []
@[inherit_doc goodTable]
def largeTable : State := specified (List.replicate 14 0 ++ [2, 255]) [] []
@[inherit_doc goodTable]
def shiftTable : State := specified ([1, 1, 1, 1] ++ List.replicate 12 0) [0, 1, 2, 3] [0, 0, 0, 1]
@[inherit_doc goodTable]
def fullAtOne : State := specified (3 :: List.replicate 15 0) [0, 1, 2] [0, 0, 0]
@[inherit_doc goodTable]
def fullAtSixteen : State := specified (2 :: List.replicate 14 0 ++ [1]) [0, 1, 2] [0, 0, 0]

theorem witness_HuBuildMakesTheCanonicalTable :
    goodTable.fault = false ∧ countSum (countOf goodTable) 16 ≠ 0 ∧ countSum (countOf goodTable) 16 ≤ 256 ∧
      (∀ k, k < countSum (countOf goodTable) 16 → goodTable.mem.hts.read (528 * (0 : Slot).val + 272 + k) = 0) ∧
      (∀ l, l ≤ 16 → 1 ≤ l → lengthFits (countOf goodTable) l = true) := by decide +kernel
theorem witness_HuBuildMakesTheCanonicalTable_code :
    14 < 2 ^ 4 ∧ 0 < countOf goodTable 3 ∧ 14 >>> (4 - 4) = firstCode (countOf goodTable) 4 + 0 := by decide +kernel
theorem witness_HuBuildMakesTheCanonicalTable_invalid :
    ∀ l, l ≤ 16 → 1 ≤ l → ∀ k, k < countOf goodTable (l - 1) → 15 >>> (4 - l) ≠ firstCode (countOf goodTable) l + k := by
  decide +kernel
theorem witness_HuBuildFaultsInOrder :
    countSum (countOf emptyTable) 16 = 0 ∧ 256 < countSum (countOf largeTable) 16 ∧
      (countSum (countOf shiftTable) 16 = 4 ∧ shiftTable.mem.hts.read (528 * (0 : Slot).val + 272 + 3) ≠ 0) := by decide +kernel
theorem witness_HuBuildFaultsInOrder_one :
    countSum (countOf fullAtOne) 16 = 3 ∧ (∀ k, k < 3 → fullAtOne.mem.hts.read (528 * (0 : Slot).val + 272 + k) = 0) ∧
      lengthFits (countOf fullAtOne) 1 = false := by decide +kernel
theorem witness_HuBuildFaultsInOrder_sixteen :
    countSum (countOf fullAtSixteen) 16 = 3 ∧ (∀ k, k < 3 → fullAtSixteen.mem.hts.read (528 * (0 : Slot).val + 272 + k) = 0) ∧
      lengthFits (countOf fullAtSixteen) 16 = false ∧
      (∀ l', l' < 16 → 1 ≤ l' → lengthFits (countOf fullAtSixteen) l' = true) := by decide +kernel

/-- The hypotheses the two symbol decodes share, for slot 0. -/
def decodes (s : State) (e : LutCode) : Prop :=
  s.fault = false ∧ s.br.bound = true ∧ s.br.mode ≠ .lsb ∧ s.hu[(0 : Slot)].built = true ∧ s.hu[(0 : Slot)].wf = true ∧
    e ∈ s.hu[(0 : Slot)].lut ∧ CanRead s.br s.br.pos.toNat s.hu[(0 : Slot)].maxlen ∧
    streamValue s.mem.inp s.br s.br.pos.toNat e.len = e.code

theorem witness_HuSymReturnsTheSymbolOfTheCode : decodes (decoding [0xE0] smallSlot) ⟨14, 4, 3⟩ := by
  unfold decodes CanRead; decide +kernel
theorem witness_HuDec_zero : decodes (decoding [0] (oneCode 0)) ⟨0, 1, 0⟩ := by unfold decodes CanRead; decide +kernel
theorem witness_HuDec_one :
    decodes (decoding [0x40] (oneCode 1)) ⟨0, 1, 1⟩ ∧ CanRead (decoding [0x40] (oneCode 1)).br 1 1 := by
  unfold decodes CanRead; decide +kernel
theorem witness_HuDec_31 :
    decodes (decoding [0, 0, 0, 0] (oneCode 31)) ⟨0, 1, 31⟩ ∧ CanRead (decoding [0, 0, 0, 0] (oneCode 31)).br 1 31 := by
  unfold decodes CanRead; decide +kernel
theorem witness_HuDec_32_fits :
    let s := decoding [0x3F, 0xFF, 0xFF, 0xFF, 0x80] (oneCode 32)
    decodes s ⟨0, 1, 32⟩ ∧ CanRead s.br 1 32 ∧ streamValue s.mem.inp s.br 1 32 = 0x7FFFFFFF := by
  unfold decodes CanRead; decide +kernel
theorem witness_HuDec_32_overflows :
    let s := decoding [0x40, 0, 0, 0, 0] (oneCode 32)
    decodes s ⟨0, 1, 32⟩ ∧ CanRead s.br 1 32 ∧ streamValue s.mem.inp s.br 1 32 ≠ 0x7FFFFFFF := by
  unfold decodes CanRead; decide +kernel
theorem witness_HuDec_33 : decodes (decoding [0] (oneCode 33)) ⟨0, 1, 33⟩ := by unfold decodes CanRead; decide +kernel
theorem witness_HuDec_exhausted :
    decodes (decoding [0] (oneCode 8)) ⟨0, 1, 8⟩ ∧ ¬ CanRead (decoding [0] (oneCode 8)).br 1 8 := by
  unfold decodes CanRead; decide +kernel
theorem witness_HuffmanDecodes_notBuilt : State.reset.fault = false ∧ State.reset.hu[(2 : Slot)].built = false := by decide
theorem witness_HuffmanDecodes_unbound :
    ∃ s : State, s.fault = false ∧ s.hu[(0 : Slot)].built = true ∧ s.br.bound = false :=
  ⟨{ decoding [0] (oneCode 0) with br := BitReader.unbound }, by decide +kernel⟩
theorem witness_HuffmanDecodes_lsb :
    ∃ s : State, s.fault = false ∧ s.hu[(0 : Slot)].built = true ∧ s.br.bound = true ∧ s.br.mode = .lsb :=
  ⟨{ decoding [0] (oneCode 0) with br := { BitReader.unbound with bound := true, mode := .lsb } }, by decide +kernel⟩
theorem witness_HuffmanDecodes_exhausted :
    ∃ s : State, s.fault = false ∧ 1 ≤ s.hu[(0 : Slot)].maxlen ∧ s.hu[(0 : Slot)].built = true ∧ s.br.bound = true ∧
      s.br.mode ≠ .lsb ∧ ¬ CanRead s.br s.br.pos.toNat s.hu[(0 : Slot)].maxlen :=
  ⟨decoding [] (oneCode 0), by unfold CanRead; decide +kernel⟩
theorem witness_HuffmanDecodes_invalid :
    ∃ s : State, s.fault = false ∧ s.hu[(0 : Slot)].built = true ∧ s.br.bound = true ∧
      s.br.mode ≠ .lsb ∧ CanRead s.br s.br.pos.toNat s.hu[(0 : Slot)].maxlen ∧
      s.hu[(0 : Slot)].entry (streamValue s.mem.inp s.br s.br.pos.toNat s.hu[(0 : Slot)].maxlen) = none :=
  ⟨decoding [0xF0] smallSlot, by unfold CanRead; decide +kernel⟩
theorem witness_SignedDifferences :
    (1 ≤ 31 ∧ 2 ^ 31 - 1 < 2 ^ 31 ∧ 2 ^ 30 ≤ 2 ^ 31 - 1) ∧ (1 ≤ 32 ∧ 0x7FFFFFFF < 2 ^ 32 ∧ 0x7FFFFFFF < 2 ^ 31) := by decide

/-- The test of R180 on the geometry. -/
def fits (s : State) : Prop :=
  s.regs.width.toNat ≠ 0 ∧ s.regs.height.toNat ≠ 0 ∧ s.regs.width.toNat * s.regs.height.toNat ≤ s.params.maxPixels

theorem witness_DcRunChecks_unknown :
    ¬ (base.regs.compression.toNat = 1 ∨ base.regs.compression.toNat = 32767 ∨ base.regs.compression.toNat = 34713) := by decide
theorem witness_DcRunChecks_geometry :
    ∃ s : State, s.fault = false ∧ s.regs.compression.toNat = 34713 ∧ ¬ fits s :=
  ⟨compressed 34713 13 5 [] id, rfl, by decide, by unfold fits; decide⟩
theorem witness_DcRunChecks_region :
    ∃ s : State, s.fault = false ∧ s.regs.compression.toNat = 32767 ∧ fits s ∧
      s.params.inSize < s.regs.inOff.toNat + s.regs.inLen.toNat :=
  ⟨compressed 32767 32 2 [0] (fun g => { g with inOff := 64 }), rfl, by decide, by unfold fits; decide, by decide⟩

/-- The hypotheses of the statements about a codec. -/
def running (s : State) (code : Nat) : Prop :=
  s.fault = false ∧ s.regs.compression.toNat = code ∧ s.mosaicFits = true ∧ s.regionInside = true

theorem witness_CodecsCheck_depth :
    ∃ s, running s 1 ∧ s.regs.unpackBits ≠ 12 ∧ s.regs.unpackBits ≠ 14 ∧ s.regs.unpackBits ≠ 16 :=
  ⟨compressed 1 1 1 [0] (fun g => { g with unpackCfg := 13 }), by unfold running; decide +kernel⟩
theorem witness_CodecsCheck_packed_size :
    ∃ s, running s 1 ∧ s.regs.unpackBits = 12 ∧ s.regs.unpackWordAligned = false ∧
      8 * s.regs.inLen.toNat ≠ s.regs.width.toNat * s.regs.height.toNat * s.regs.unpackBits :=
  ⟨compressed 1 2 2 [0, 0, 0, 0, 0, 0, 0] (fun g => { g with unpackCfg := 12 }), by unfold running; decide +kernel⟩
theorem witness_CodecsCheck_words_size :
    ∃ s, running s 1 ∧ s.regs.unpackBits = 12 ∧ s.regs.unpackWordAligned = true ∧
      s.regs.inLen.toNat ≠ 2 * (s.regs.width.toNat * s.regs.height.toNat) :=
  ⟨compressed 1 2 2 [0, 0, 0, 0, 0, 0] (fun g => { g with unpackCfg := 0x10C }), by unfold running; decide +kernel⟩
theorem witness_CodecsCheck_sony_width : ∃ s, running s 32767 ∧ s.regs.width.toNat % 32 ≠ 0 :=
  ⟨compressed 32767 16 1 h0 id, by unfold running; decide +kernel⟩
theorem witness_CodecsCheck_sony_size :
    ∃ s, running s 32767 ∧ s.regs.width.toNat % 32 = 0 ∧ s.regs.inLen.toNat ≠ s.regs.width.toNat * s.regs.height.toNat :=
  ⟨compressed 32767 32 1 h0 id, by unfold running; decide +kernel⟩
theorem witness_CodecsCheck_sony_curve :
    ∃ s, running s 32767 ∧ s.regs.width.toNat % 32 = 0 ∧ s.regs.inLen.toNat = s.regs.width.toNat * s.regs.height.toNat ∧
      65536 < s.regs.curveEntries :=
  ⟨compressed 32767 32 1 (h0 ++ h1) (fun g => { g with curveLen := 65537 }), by unfold running; decide +kernel⟩

/-- A Nikon run over a slot 0 and a slot 1. -/
def nikonRun (a b : HuffSlot) (g : Regs → Regs) : State :=
  let s := compressed 34713 3 3 [0, 0] g
  { s with hu := (s.hu.set 0 a).set 1 b, mem := { s.mem with curve := written 16 [0, 10, 20, 30, 40] } }

theorem witness_CodecsCheck_nikon_slotA :
    ∃ s, running s 34713 ∧ s.hu[s.regs.nikonSlotA].built = false :=
  ⟨nikonRun { oneCode 0 with built := false } (oneCode 0) id, by unfold running; decide +kernel⟩
theorem witness_CodecsCheck_nikon_slotB :
    ∃ s, running s 34713 ∧ s.hu[s.regs.nikonSlotA].built = true ∧ s.regs.nikonSplitEnabled = true ∧
      s.hu[s.regs.nikonSlotB].built = false :=
  ⟨nikonRun (oneCode 0) { oneCode 0 with built := false } (fun g => { g with nikonCfg := 0x14 }), by unfold running; decide +kernel⟩
theorem witness_CodecsCheck_nikon_curve :
    ∃ s, running s 34713 ∧ s.hu[s.regs.nikonSlotA].built = true ∧
      (s.regs.nikonSplitEnabled = true → s.hu[s.regs.nikonSlotB].built = true) ∧ 65536 < s.regs.curveEntries :=
  ⟨nikonRun (oneCode 0) (oneCode 0) (fun g => { g with curveLen := 65537 }), by unfold running; decide +kernel⟩
theorem witness_PackedSamples :
    ∃ s, running s 1 ∧ s.regs.unpackBits = 12 ∧ s.regs.unpackWordAligned = false ∧
      8 * s.regs.inLen.toNat = s.regs.width.toNat * s.regs.height.toNat * s.regs.unpackBits :=
  ⟨packed, by unfold running; decide +kernel⟩
theorem witness_WordAlignedSamples :
    ∃ s, running s 1 ∧ s.regs.unpackBits = 16 ∧ s.regs.unpackWordAligned = true ∧
      s.regs.inLen.toNat = 2 * (s.regs.width.toNat * s.regs.height.toNat) :=
  ⟨compressed 1 2 1 [1, 2, 3, 4] (fun g => { g with unpackCfg := 0x310 }), by unfold running; decide +kernel⟩

/-- The value function of the Sony codec's cursor. -/
def sonyVal (s : State) : Nat → Nat → Nat :=
  streamValue s.mem.inp { bound := true, mode := .lsb, base := s.regs.inOff, len := s.regs.inLen, pos := 0 }

/-- What the two statements about the Sony codec share, and that the first `k` half-groups look up only what the curve has. -/
def sonyRunning (s : State) (k : Nat) : Prop :=
  running s 32767 ∧ s.regs.width.toNat % 32 = 0 ∧ s.regs.inLen.toNat = s.regs.width.toNat * s.regs.height.toNat ∧
    s.regs.curveEntries ≤ 65536 ∧ s.regs.width.toNat / 16 * s.regs.height.toNat = 2 ∧
    ∀ k', k' < k → (sonyVal s (128 * k' + 22) 4 ≠ sonyVal s (128 * k' + 26) 4 ∧
      sonyVal s (128 * k' + 11) 11 ≤ sonyVal s (128 * k') 11) ∧ ∀ i, i < 16 → 2 * sonyValue (sonyVal s) k' i < s.regs.curveEntries

/-- The row of `h0` and `h1` under a curve of this many entries. -/
def sonyShort (n : Nat) : State :=
  { sonyRow h0 h1 with regs := { (sonyRow h0 h1).regs with curveLen := BitVec.ofNat 32 n } }

theorem witness_SonySamplesByPosition : sonyRunning (sonyRow h0 h1) 2 ∧ (sonyRow h0 h1).regs.curveEntries = 4095 := by
  unfold sonyRunning running; decide +kernel

/-- The greatest index `h0` asks for is 2000. -/
theorem witness_SonySamplesByPosition_short :
    let s := { sonyRow h0 h0 with regs := { (sonyRow h0 h0).regs with curveLen := 2001 } }
    sonyRunning s 2 ∧ s.regs.curveEntries = 2001 := by
  unfold sonyRunning running; decide +kernel
theorem witness_BadSonyHalfGroups_first : sonyRunning (sonyRow h4 h0) 0 ∧ ¬ sonyGood (sonyVal (sonyRow h4 h0)) 0 := by
  unfold sonyRunning running sonyGood; decide +kernel
theorem witness_BadSonyHalfGroups_last : sonyRunning (sonyRow h0 h3) 1 ∧ ¬ sonyGood (sonyVal (sonyRow h0 h3)) 1 := by
  unfold sonyRunning running sonyGood; decide +kernel

/-- R194, V12: the index 4094 of half-group 1's first sample, its maximum 2047, lies at the end of a curve of 4094 entries. -/
theorem witness_BadSonyHalfGroups_bounds :
    sonyRunning (sonyShort 4094) 1 ∧ sonyGood (sonyVal (sonyShort 4094)) 1 ∧ 2 * sonyValue (sonyVal (sonyShort 4094)) 1 0 = 4094 := by
  unfold sonyRunning running sonyGood; decide +kernel

/-- A 3x3 Nikon run of nine differences 0, the slot changing at row 1. -/
def nikonZeros : State :=
  nikonRun (oneCode 0) (oneCode 0) (fun g => { g with
    nikonCfg := 0x14, nikonSplit := 1, vpred00 := 1, vpred01 := 2, vpred10 := 3, vpred11 := 4, curveLen := 5 })

/-- Its predicted values, its cursors, its samples. -/
def nikonPredicted (row col : Nat) : Int := 1 + 2 * (row % 2 : Nat) + (col % 2 : Nat)
@[inherit_doc nikonPredicted]
def nikonCursor (k : Nat) : BitReader := { bound := true, mode := .msb, base := 0, len := 2, pos := BitVec.ofNat 64 k }
@[inherit_doc nikonPredicted]
def nikonOut (k : Nat) : Sample := BitVec.ofInt 16 (10 * nikonPredicted (k / 3) (k % 3))

theorem witness_NikonSamplesFollowTheRecurrence :
    let s := nikonZeros
    let g := s.regs
    running s 34713 ∧ g.width.toNat = 3 ∧ g.height.toNat = 3 ∧ s.hu[g.nikonSlotA].built = true ∧
    (g.nikonSplitEnabled = true → s.hu[g.nikonSlotB].built = true) ∧ g.curveEntries ≤ 65536 ∧
    nikonCursor 0 = { bound := true, mode := .msb, base := g.inOff, len := g.inLen, pos := 0 } ∧
    ditherSeed s.params.dither = 0 ∧
    (∀ row, row < 3 → ∀ col, col < 3 →
      huffDec s.mem.inp (if g.nikonSplitEnabled ∧ g.nikonSplit.toNat ≤ row then g.nikonSlotB else g.nikonSlotA).val
        s.hu[if g.nikonSplitEnabled ∧ g.nikonSplit.toNat ≤ row then g.nikonSlotB else g.nikonSlotA] (nikonCursor (row * 3 + col))
          = .ok (0, nikonCursor (row * 3 + col + 1)) ∧
      nikonPredicted row col = 0 +
        (if 2 ≤ col then nikonPredicted row (col - 2) else if 2 ≤ row then nikonPredicted (row - 2) col
          else if row = 0 then (if col = 0 then g.vpred00.toInt else g.vpred01.toInt)
          else (if col = 0 then g.vpred10.toInt else g.vpred11.toInt)) ∧
      0 ≤ nikonPredicted row col ∧ nikonPredicted row col < g.curveEntries ∧
      ditherStep s.params.dither s.mem.curve g.curveEntries (nikonPredicted row col).toNat 0 = (nikonOut (row * 3 + col), 0)) := by
  unfold running; decide +kernel

/-- The slot in use in a row, and a cursor over `len` bytes. -/
def nikonSlot (s : State) (row : Nat) : Slot :=
  if s.regs.nikonSplitEnabled ∧ s.regs.nikonSplit.toNat ≤ row then s.regs.nikonSlotB else s.regs.nikonSlotA
@[inherit_doc nikonSlot]
def nikonCursorOf (len : Word) (k : Nat) : BitReader := { nikonCursor k with len := len }

/-- That the sample `(row, col)` of a 3x3 run of differences 0 follows the recurrence, its region `len` bytes long. -/
def nikonFollows (s : State) (len : Word) (row col : Nat) : Bool :=
  decide (huffDec s.mem.inp (nikonSlot s row).val s.hu[nikonSlot s row] (nikonCursorOf len (row * 3 + col)) =
      .ok (0, nikonCursorOf len (row * 3 + col + 1)) ∧
    nikonPredicted row col = 0 +
      (if 2 ≤ col then nikonPredicted row (col - 2) else if 2 ≤ row then nikonPredicted (row - 2) col
        else if row = 0 then (if col = 0 then s.regs.vpred00.toInt else s.regs.vpred01.toInt)
        else (if col = 0 then s.regs.vpred10.toInt else s.regs.vpred11.toInt)) ∧
    0 ≤ nikonPredicted row col ∧ nikonPredicted row col < s.regs.curveEntries ∧
    ditherStep s.params.dither s.mem.curve s.regs.curveEntries (nikonPredicted row col).toNat 0 = (nikonOut (row * 3 + col), 0))

/-- What the statement asks of the run as a whole. -/
def nikonReady (s : State) : Prop :=
  running s 34713 ∧ s.hu[s.regs.nikonSlotA].built = true ∧
    (s.regs.nikonSplitEnabled = true → s.hu[s.regs.nikonSlotB].built = true) ∧ s.regs.curveEntries ≤ 65536 ∧
    s.regs.width.toNat = 3 ∧ s.regs.height.toNat = 3 ∧ ditherSeed s.params.dither = 0 ∧ s.regs.inOff = 0

/-- Eight differences and no more bits: the last sample's decode exhausts them. -/
def nikonExhausted : State := { nikonZeros with regs := { nikonZeros.regs with inLen := 1 } }

theorem witness_NikonFaults_decode :
    nikonReady nikonExhausted ∧ (∀ row, row < 3 → ∀ col, col < 3 → row * 3 + col < 2 * 3 + 2 → nikonFollows nikonExhausted 1 row col = true) ∧
      FaultsWith (.huDec nikonExhausted.regs.nikonSlotB) (nikonExhausted.setBr (nikonCursorOf 1 8)) .bitsExhausted 8
        (nikonCursorOf 1 8) := by
  refine ⟨?_, ?_, _, rfl, ?_⟩
  · unfold nikonReady running; decide +kernel
  · decide +kernel
  · decide +kernel

/-- A first difference of 1 on top of the greatest predictor. -/
theorem witness_NikonFaults_overflow :
    let s := { nikonRun (oneCode 1) (oneCode 1) (fun g => { g with vpred00 := 0x7FFFFFFF, curveLen := 5 }) with
      mem := { (nikonRun (oneCode 1) (oneCode 1) id).mem with inp := written 8 [0x40, 0] } }
    nikonReady s ∧ huffDec s.mem.inp 0 s.hu[(0 : Slot)] (nikonCursor 0) = .ok (1, nikonCursor 2) ∧
      (2 : Int) ^ 31 ≤ 1 + s.regs.vpred00.toInt := by
  unfold nikonReady running; decide +kernel

/-- Predictor -1 at the first sample, and predictor 4 of a curve of four entries at row 1, column 1. -/
theorem witness_NikonFaults_below :
    let s := nikonRun (oneCode 0) (oneCode 0) (fun g => { g with vpred00 := 0xFFFFFFFF, curveLen := 5 })
    nikonReady s ∧ huffDec s.mem.inp 0 s.hu[(0 : Slot)] (nikonCursor 0) = .ok (0, nikonCursor 1) ∧ 0 + s.regs.vpred00.toInt = -1 := by
  unfold nikonReady running; decide +kernel
theorem witness_NikonFaults_above :
    let s := { nikonZeros with regs := { nikonZeros.regs with curveLen := 4 } }
    nikonReady s ∧ (∀ row, row < 3 → ∀ col, col < 3 → row * 3 + col < 1 * 3 + 1 → nikonFollows s 2 row col = true) ∧
      huffDec s.mem.inp 0 s.hu[(0 : Slot)] (nikonCursor 4) = .ok (0, nikonCursor 5) ∧ 0 + s.regs.vpred11.toInt = s.regs.curveEntries := by
  unfold nikonReady running; decide +kernel

theorem witness_PpNormNormalizesEverySample :
    ∃ s : State, s.fault = false ∧ s.mosaicFits = true ∧ s.regs.scale.toNat % 2 ^ 16 ≤ 31 :=
  ⟨mosaicked 1 1 [5] (fun g => { g with scale := 31 }), by decide⟩
theorem witness_PpNormFaultsInOrder_geometry : ∃ s : State, s.fault = false ∧ s.mosaicFits = false :=
  ⟨mosaicked 13 5 [] id, by decide⟩
theorem witness_PpNormFaultsInOrder_scale :
    ∃ s : State, s.fault = false ∧ s.mosaicFits = true ∧ 31 < s.regs.scale.toNat % 2 ^ 16 :=
  ⟨mosaicked 1 1 [5] (fun g => { g with scale := 32 }), by decide⟩

/-- The hypotheses of the statements about a Bayer pattern. -/
def bayerReady (s : State) : Prop := s.fault = false ∧ s.regs.cfaCode < 4 ∧ s.demosaicFits = true

theorem witness_Bayer_none_and_linear : bayerReady bayer := by unfold bayerReady; decide
theorem witness_Bayer_smallest_last_pattern : bayerReady (mosaicked 2 2 [1, 2, 3, 4] (fun g => { g with cfa := 3 })) := by
  unfold bayerReady; decide
theorem witness_SuperPixelBinsEveryBlock :
    bayerReady bayer ∧ bayerColour 0 0 0 = .red ∧ bayerColour 0 1 1 = .blue ∧ bayerColour 0 0 1 = .green ∧ bayerColour 0 1 0 = .green := by
  unfold bayerReady; decide
theorem witness_ConstantMosaicsStayConstant :
    let s := mosaicked 3 3 [100, 50, 100, 50, 25, 50, 100, 50, 100] id
    bayerReady s ∧ ∀ y, y < 3 → ∀ x, x < 3 → s.mem.mos.readNat (y * 3 + x) =
      (match bayerColour s.regs.cfaCode y x with | .red => 100 | .green => 50 | .blue => 25) := by
  unfold bayerReady; decide +kernel
theorem witness_XTransNoneFollowsTheColourMap :
    xtrans.fault = false ∧ xtrans.regs.cfaCode = 4 ∧ xtrans.demosaicFits = true ∧
      ∀ y, y < 3 → ∀ x, x < 3 → xtrans.mem.xtc.readNat (((4 - 4) * 6 + y % 6) * 6 + x % 6) ≤ 2 := by decide +kernel

/-- The first word of the entry of a position of the 3x3 X-Trans state. -/
def xtransIndex (y x : Nat) : Nat :=
  4 * ((((4 - 4) * 6 + y % 6) * 6 + x % 6) * 9 + (3 * (if y = 0 then 1 else if y + 1 = 3 then 2 else 0)
    + (if x = 0 then 1 else if x + 1 = 3 then 2 else 0)))

/-- Neighbour code `j` of its rule for channel `c`. -/
def xtransCode (y x c j : Nat) : Nat := xtrans.mem.xtr.readNat (xtransIndex y x + 1 + c) / 2 ^ (3 + 4 * j) % 16

/-- Its rule for channel `c` has at most four neighbours, all of them inside the image. -/
def xtransLegal (y x c : Nat) : Bool :=
  decide (xtrans.mem.xtr.readNat (xtransIndex y x + 1 + c) % 8 ≤ 4 ∧
    ∀ j, j < xtrans.mem.xtr.readNat (xtransIndex y x + 1 + c) % 8 →
      xtransCode y x c j ≤ 8 ∧ 1 ≤ y + xtransCode y x c j / 3 ∧ y + xtransCode y x c j / 3 ≤ 3 ∧
        1 ≤ x + xtransCode y x c j % 3 ∧ x + xtransCode y x c j % 3 ≤ 3)

theorem witness_XTransLinearFollowsTheRuleTable :
    xtrans.fault = false ∧ xtrans.regs.cfaCode = 4 ∧ xtrans.demosaicFits = true ∧
      (∀ y, y < 3 → ∀ x, x < 3 → ∀ c, c < 3 → (xtrans.mem.xtr.readNat (xtransIndex y x) % 2 == 1) = true →
        xtransLegal y x c = true) := by decide +kernel

/-- The X-Trans state with one word of the rule table, or one colour of the map, replaced. -/
def xtransWith (i : Nat) (w : Word) : State := { xtrans with mem := { xtrans.mem with xtr := xtrans.mem.xtr.write i w } }
@[inherit_doc xtransWith]
def xtransColoured (i : Nat) (c : Byte) : State := { xtrans with mem := { xtrans.mem with xtc := xtrans.mem.xtc.write i c } }

/-- The hypotheses the statements about an X-Trans pattern share. -/
def xtransReady (s : State) : Prop :=
  s.fault = false ∧ s.regs.cfaCode = 4 ∧ s.demosaicFits = true ∧ s.regs.width.toNat = 3 ∧ s.regs.height.toNat = 3

/-- No position before `n`, row by row, has a valid entry. -/
def xtransEmptyBefore (s : State) (n : Nat) : Prop :=
  ∀ y, y < 3 → ∀ x, x < 3 → y * 3 + x < n → (s.mem.xtr.readNat (xtransIndex y x) % 2 == 1) = false

theorem witness_XTransFaults_colour :
    xtransReady (xtransColoured 14 3) ∧
      (∀ y, y < 3 → ∀ x, x < 3 → y * 3 + x < 2 * 3 + 2 → (xtransColoured 14 3).mem.xtc.readNat (((4 - 4) * 6 + y % 6) * 6 + x % 6) ≤ 2) ∧
      (xtransColoured 14 3).mem.xtc.readNat (((4 - 4) * 6 + 2 % 6) * 6 + 2 % 6) = 3 := by
  unfold xtransReady; decide +kernel

/-- At the centre: five neighbours in the first word; a code 9 in the second, the first word legal. -/
theorem witness_XTransFaults_count :
    let s := xtransWith 253 5
    xtransReady s ∧ xtransEmptyBefore s 4 ∧ s.mem.xtr.readNat (xtransIndex 1 1) % 2 = 1 ∧ s.mem.xtr.readNat (xtransIndex 1 1 + 1 + 0) % 8 = 5 := by
  unfold xtransReady xtransEmptyBefore; decide +kernel
theorem witness_XTransFaults_code :
    let s := xtransWith 254 0x49
    xtransReady s ∧ xtransEmptyBefore s 4 ∧ s.mem.xtr.readNat (xtransIndex 1 1) % 2 = 1 ∧ xtransLegal 1 1 0 = true ∧
      s.mem.xtr.read 253 = xtrans.mem.xtr.read 253 ∧ s.mem.xtr.readNat (xtransIndex 1 1 + 1 + 1) % 8 = 1 ∧
      s.mem.xtr.readNat (xtransIndex 1 1 + 1 + 1) / 2 ^ 3 % 16 = 9 := by
  unfold xtransReady xtransEmptyBefore; decide +kernel

/-- At the top left corner: the position itself, then a neighbour above and left of the image. -/
theorem witness_XTransFaults_outside :
    let s := { xtransWith 16 1 with mem := { (xtransWith 16 1).mem with xtr := (xtransWith 16 1).mem.xtr.write 17 0x22 } }
    xtransReady s ∧ s.mem.xtr.readNat (xtransIndex 0 0) % 2 = 1 ∧ s.mem.xtr.readNat (xtransIndex 0 0 + 1 + 0) % 8 = 2 ∧
      s.mem.xtr.readNat (xtransIndex 0 0 + 1 + 0) / 2 ^ 3 % 16 = 4 ∧ s.mem.xtr.readNat (xtransIndex 0 0 + 1 + 0) / 2 ^ 7 % 16 = 0 ∧
      ¬ 1 ≤ 0 + 0 / 3 := by
  unfold xtransReady; decide +kernel

theorem witness_DmRunFaultsInOrder :
    let a := mosaicked 2 2 [] (fun g => { g with cfa := 6 })
    let b := mosaicked 1 4 [] (fun g => { g with cfa := 5 })
    let c := mosaicked 4 4 [] (fun g => { g with cfa := 5 })
    (a.fault = false ∧ a.regs.cfa.toNat % 8 = 6) ∧
    (b.fault = false ∧ b.regs.cfa.toNat % 8 = 5 ∧ b.regs.width.toNat < 2) ∧
    (c.fault = false ∧ c.regs.cfa.toNat % 8 = 5 ∧ 2 ≤ c.regs.width.toNat ∧ 2 ≤ c.regs.height.toNat ∧
      c.regs.width.toNat * c.regs.height.toNat ≤ c.params.maxPixels) := by decide
theorem witness_CpWbScalesEveryChannel :
    balancing.fault = false ∧ balancing.imageFits = true ∧ balancing.regs.rgbWidth.toNat * balancing.regs.rgbHeight.toNat = 1 ∧
      balancing.mem.rgb.readNat 0 * (balancing.regs.wbR.toNat % 2 ^ 31) < 2 ^ 31 ∧
      balancing.mem.rgb.readNat 1 * (balancing.regs.wbG.toNat % 2 ^ 31) < 2 ^ 31 ∧
      balancing.mem.rgb.readNat 2 * (balancing.regs.wbB.toNat % 2 ^ 31) < 2 ^ 31 := by decide +kernel
theorem witness_CpCcAppliesTheMatrix :
    let m (i j : Fin 3) : Int := (converting.regs.cm[3 * i.val + j.val]'(by omega)).toInt
    let v (j : Fin 3) : Int := converting.mem.rgb.readNat j.val
    converting.fault = false ∧ converting.imageFits = true ∧
      converting.regs.rgbWidth.toNat * converting.regs.rgbHeight.toNat = 1 ∧
      ∀ i : Fin 3, ∀ a ∈ [m i 0 * v 0, m i 1 * v 1, m i 2 * v 2, m i 0 * v 0 + m i 1 * v 1, m i 0 * v 0 + m i 1 * v 1 + m i 2 * v 2],
        -(2 ^ 31) ≤ a ∧ a < 2 ^ 31 := by decide +kernel
theorem witness_CpGammaLooksEveryChannelUp : gammaReady.fault = false ∧ gammaReady.imageFits = true := by decide
theorem witness_PipelineFaults_geometry : base.fault = false ∧ base.regs.rgbWidth.toNat * base.regs.rgbHeight.toNat = 0 := by decide
theorem witness_PipelineFaults_large :
    let s := { base with regs := { base.regs with rgbWidth := 13, rgbHeight := 5 } }
    s.fault = false ∧ s.params.maxPixels < s.regs.rgbWidth.toNat * s.regs.rgbHeight.toNat := by decide

/-- Two pixels, of which the second does not fit. -/
def overflowing : State := imaged [1, 2, 3, 65535, 0, 0] (fun g => { g with wbR := 32769 })

/-- R291: `65535 · 32769` does not fit. -/
theorem witness_PipelineFaults_whiteBalance :
    overflowing.fault = false ∧ overflowing.regs.rgbWidth.toNat * overflowing.regs.rgbHeight.toNat = 2 ∧
      2 ≤ overflowing.params.maxPixels ∧
      2 ^ 31 ≤ overflowing.mem.rgb.readNat (3 * 1 + 0) * (overflowing.regs.wbR.toNat % 2 ^ 31) ∧
      ∀ c : Fin 3, ¬ 2 ^ 31 ≤ overflowing.mem.rgb.readNat (3 * 0 + c.val) *
        ((if c.val = 0 then overflowing.regs.wbR else if c.val = 1 then overflowing.regs.wbG else overflowing.regs.wbB).toNat % 2 ^ 31) := by
  decide +kernel

/-- Two pixels, of which the second's partial sum leaves `i32` while its products fit. -/
def overflowingSum : State :=
  imaged [1, 2, 3, 65535, 65535, 0] (fun g => { g with cm := #v[0, 0, 0, 0, 0, 0, 32768, 32768, 0] })

theorem witness_PipelineFaults_matrix :
    let s := overflowingSum
    let m (i j : Fin 3) : Int := (s.regs.cm[3 * i.val + j.val]'(by omega)).toInt
    let v (k c : Nat) : Int := s.mem.rgb.readNat (3 * k + c)
    s.fault = false ∧ s.regs.rgbWidth.toNat * s.regs.rgbHeight.toNat = 2 ∧ 2 ≤ s.params.maxPixels ∧
      2 ^ 31 ≤ m 2 0 * v 1 0 + m 2 1 * v 1 1 ∧
      ∀ i : Fin 3, ∀ a ∈ [m i 0 * v 0 0, m i 1 * v 0 1, m i 2 * v 0 2, m i 0 * v 0 0 + m i 1 * v 0 1,
        m i 0 * v 0 0 + m i 1 * v 0 1 + m i 2 * v 0 2], ¬ (a < -(2 ^ 31) ∨ 2 ^ 31 ≤ a) := by decide +kernel
theorem witness_UnitGainsAndIdentityMatrixChangeNothing :
    ∃ s : State, s.fault = false ∧ s.imageFits = true ∧ s.regs.wbShift.toNat ≤ 15 ∧ s.regs.wbR.toNat = 2 ^ s.regs.wbShift.toNat ∧
      s.regs.wbG.toNat = 2 ^ s.regs.wbShift.toNat ∧ s.regs.wbB.toNat = 2 ^ s.regs.wbShift.toNat ∧
      s.regs.cm = #v[8192, 0, 0, 0, 8192, 0, 0, 0, 8192] :=
  ⟨imaged [1, 65535, 300] (fun g => { g with
      wbShift := 15, wbR := 32768, wbG := 32768, wbB := 32768, cm := #v[8192, 0, 0, 0, 8192, 0, 0, 0, 8192] }), by decide⟩
theorem witness_CommandsWriteOnlyTheirSpaces :
    ∃ (i : Instr) (s t : State) (sp : Space), exec i s = .next t ∧ sp ∉ i.writes :=
  ⟨.dcRun, packed, _, .inp, rfl, by decide⟩
theorem witness_CommandsLeaveTheConfigurationAlone :
    ∃ (i : Instr) (s t : State), exec i s = .next t ∧ i ≠ .sysReset ∧ t.fault = false :=
  ⟨.brSkip 7, reader .lsb 11, _, rfl, by decide, by decide +kernel⟩
theorem witness_BytesOutsideTheRegionAreNeverRead :
    ∃ (s t : State) (inp : Memory 8), inp ≠ s.mem.inp ∧
      (∀ k, k < s.br.len.toNat → inp.read (s.br.base.toNat + k) = s.mem.inp.read (s.br.base.toNat + k)) ∧
      (∀ k, k < s.regs.inLen.toNat → inp.read (s.regs.inOff.toNat + k) = s.mem.inp.read (s.regs.inOff.toNat + k)) ∧
      exec (.brRead 11) s = .next t :=
  ⟨reader .msb 0, _, written 8 [0x8D, 0xD4, 0x99, 0xF1, 0x0B, 0x9B, 0x77], by decide, by decide, by decide, rfl⟩

end Sys2Proof.Tests
end

section
/-! SUPPORT. All a command can end in, said once per command: the state its pseudocode reaches, update by update, or a fault
taken at a cursor. The invariant and the frame of the commands are read off from it. -/

namespace Sys2Proof

/-- The commands that cannot move the cursor (R77): `HU.BUILD` and the stages after decompression. -/
def Instr.leavesCursor : Instr → Bool
  | .huBuild _ => true
  | .ppNorm _ => true
  | .dmRun _ => true
  | .cpWb => true
  | .cpCc => true
  | .cpGamma => true
  | _ => false

end Sys2Proof

namespace Sys2Proof.Machine

/-! ### How a command may end -/

/-- A memory of `size` elements replaced by one that is in canonical form and of the same draw when the old one is in canonical
form. -/
def KeepsMemory (size : Nat) (m m' : Memory 16) : Prop := m.wf size = true → m'.wf size = true ∧ m'.epoch = m.epoch

/-- A cursor replaced by one that is well formed when the old one is. -/
def KeepsCursor (q : Config.Params) (br br' : BitReader) : Prop := br.wf q = true → br'.wf q = true

/-- The states in which a command that takes no fault may leave the block. -/
def EndsIn : Instr → State → State → Prop
  | .sysReset, s, t => t = systemReset s
  | .brInit _, s, t => ∃ br, KeepsCursor s.params s.br br ∧ t = s.setBr br
  | .brRead _, s, t => ∃ br v, KeepsCursor s.params s.br br ∧ t = (s.setBr br).setRes v
  | .brPeek _, s, t => ∃ v, t = s.setRes v
  | .brSkip _, s, t => ∃ br, KeepsCursor s.params s.br br ∧ t = s.setBr br
  | .huBuild slot, s, t => ∃ x : HuffSlot, x.wf = true ∧ t = { s with hu := s.hu.set slot.val x }
  | .huSym _, s, t => ∃ br v, KeepsCursor s.params s.br br ∧ t = (s.setBr br).setRes v
  | .huDec _, s, t => ∃ br v, KeepsCursor s.params s.br br ∧ t = (s.setBr br).setRes v
  | .dcRun, s, t => ∃ m br, KeepsMemory s.params.maxPixels s.mem.mos m ∧ t = (s.setMos m).setBr (BitReader.unbind br)
  | .ppNorm _, s, t => ∃ m, KeepsMemory s.params.maxPixels s.mem.mos m ∧ t = s.setMos m
  | .dmRun _, s, t => ∃ m w h, KeepsMemory (3 * s.params.maxPixels) s.mem.rgb m ∧
      t = { s.setRgb m with regs := { s.regs with rgbWidth := w, rgbHeight := h } }
  | .cpWb, s, t => ∃ m, KeepsMemory (3 * s.params.maxPixels) s.mem.rgb m ∧ t = s.setRgb m
  | .cpCc, s, t => ∃ m, KeepsMemory (3 * s.params.maxPixels) s.mem.rgb m ∧ t = s.setRgb m
  | .cpGamma, s, t => ∃ m, KeepsMemory (3 * s.params.maxPixels) s.mem.rgb m ∧ t = s.setRgb m

/-- The cursors at which a command may raise a fault. `DC.RUN` needs the mosaic in canonical form to say so. -/
def RaisesAt (i : Instr) (s : State) (br : BitReader) : Prop :=
  (s.mem.mos.wf s.params.maxPixels = true → KeepsCursor s.params s.br br) ∧ (i.leavesCursor = true → br = s.br)

theorem raisesAt_cursor (i : Instr) (s : State) : RaisesAt i s s.br := ⟨fun _ h => h, fun _ => rfl⟩

/-- A command that may move the cursor raises at any cursor that is well formed when the old one is. -/
theorem raisesAt_of_keepsCursor {i : Instr} {s : State} {br : BitReader} (hi : i.leavesCursor = false)
    (h : KeepsCursor s.params s.br br) : RaisesAt i s br := ⟨fun _ => h, fun hi' => absurd hi' (by simp [hi])⟩

/-- What a body of command `i`, run from `s`, may answer. -/
def BodyEnds (i : Instr) (s : State) : Except Raised State → Prop
  | .ok t => EndsIn i s t
  | .error e => RaisesAt i s e.br

variable {s : State}

/-! ### The bit reader -/

theorem brInitBody_ends (mode : ReaderMode) (s : State) : BodyEnds (.brInit mode) s (brInitBody mode s) := by
  unfold brInitBody
  split
  · exact ⟨_, fun _ => bindCursor_wf mode ((State.regionInside_iff s).mp ‹_›), rfl⟩
  · exact raisesAt_cursor _ s

theorem keepsCursor_advance {q : Config.Params} {br : BitReader} {n : Nat} (hr : n = 0 ∨ CanRead br br.pos.toNat n) :
    KeepsCursor q br (br.advance n) := fun h => BitReader.advance_wf h hr

theorem brReadBody_ends (n : Nat) (s : State) : BodyEnds (.brRead n) s (brReadBody n s) := by
  unfold brReadBody
  split
  · rcases readBits_cases s.mem.inp s.br n with ⟨hr, he⟩ | ⟨-, -, he⟩ <;> rw [he]
    · exact ⟨_, _, keepsCursor_advance hr, rfl⟩
    · exact raisesAt_cursor _ s
  · exact raisesAt_cursor _ s

theorem brPeekBody_ends (n : Nat) (s : State) : BodyEnds (.brPeek n) s (brPeekBody n s) := by
  unfold brPeekBody
  split
  · rcases peek_cases s.mem.inp s.br n with ⟨-, he⟩ | ⟨-, -, he⟩ <;> rw [he]
    · exact ⟨_, rfl⟩
    · exact raisesAt_cursor _ s
  · exact raisesAt_cursor _ s

theorem brSkipBody_ends (n : Nat) (s : State) : BodyEnds (.brSkip n) s (brSkipBody n s) := by
  unfold brSkipBody
  split
  · rcases consume_cases s.br n with ⟨hr, he⟩ | ⟨-, -, he⟩ <;> rw [he]
    · exact ⟨_, keepsCursor_advance hr, rfl⟩
    · exact raisesAt_cursor _ s
  · exact raisesAt_cursor _ s

/-! ### The Huffman unit -/

/-- The body of `HU.BUILD` runs with its slot not built, and puts the canonical table of a good specification into it. -/
theorem huBuildBody_ends (slot : Slot) (s : State) :
    BodyEnds (.huBuild slot) s (huBuildBody slot (s.unbuildSlot slot)) := by
  unfold huBuildBody
  dsimp only
  split
  · exact raisesAt_cursor _ s
  rename_i hn
  split
  · exact raisesAt_cursor _ s
  split
  · exact raisesAt_cursor _ s
  rcases lengthFits_first (codeCount (s.unbuildSlot slot).mem.hts slot.val) 16 with hf | ⟨l, h1, h2, hl, hl'⟩
  · rw [assignCodes_ok _ hf]
    exact ⟨_, canonical_wf _ (codeSymbol s.mem.hts slot.val) hn hf, by simp [State.unbuildSlot, Vector.set_set]⟩
  · rw [assignCodes_error _ h1 h2 hl hl']
    exact raisesAt_cursor _ s

theorem huSymBody_ends (slot : Slot) (s : State) : BodyEnds (.huSym slot) s (huSymBody slot s) := by
  unfold huSymBody
  cases hs : huffSym s.mem.inp slot.val s.hu[slot] s.br with
  | error e => exact raisesAt_of_keepsCursor rfl (by rw [huffSym_error_br hs]; exact id)
  | ok x => exact ⟨x.2, _, fun hw => huffSym_wf hw hs, rfl⟩

theorem huDecBody_ends (slot : Slot) (s : State) : BodyEnds (.huDec slot) s (huDecBody slot s) := by
  unfold huDecBody
  rcases huffDec_cursor s.mem.inp slot.val s.hu[slot] s.br with ⟨d, br', he, -, -, hw⟩ | ⟨r, he, -, hw⟩ <;> rw [he]
  · exact ⟨br', _, hw s.params, rfl⟩
  · exact raisesAt_of_keepsCursor rfl (hw s.params)

/-! ### The decompressor -/

theorem dcRunBody_ends (s : State) : BodyEnds .dcRun s (dcRunBody s) := by
  unfold dcRunBody
  cases hc : codecOf s.regs.compression.toNat with
  | none => exact raisesAt_cursor _ s
  | some codec =>
    dsimp only
    split
    · exact raisesAt_cursor _ s
    rename_i hfit
    split
    · exact raisesAt_cursor _ s
    rename_i hin
    have keeps : s.mem.mos.wf s.params.maxPixels = true → CodecKeeps s.params s.mem.mos (codec s s.br.unbind) :=
      fun hm => codec_keeps hc hm (by simpa using hfit) (by simpa using hin) (BitReader.unbind_wf s.params)
    cases hr : codec s s.br.unbind with
    | error e => exact ⟨fun hm _ => by have := keeps hm; rwa [hr] at this, fun h => nomatch h⟩
    | ok x =>
      refine ⟨x.1, x.2, fun hm => ?_, rfl⟩
      have := keeps hm
      rw [hr] at this
      exact ⟨this.1, this.2.1⟩

/-! ### The image stages -/

theorem ppNormBody_ends (mul : NormMode) (s : State) : BodyEnds (.ppNorm mul) s (ppNormBody mul s) := by
  unfold ppNormBody
  split
  · exact raisesAt_cursor _ s
  rename_i hfit
  split
  · exact raisesAt_cursor _ s
  have hfit := (State.mosaicFits_iff s).mp (by simpa using hfit)
  refine ⟨_, fun hm => ?_, rfl⟩
  exact repeatTimes_induct (P := fun _ (m : Memory 16) => m.wf s.params.maxPixels = true ∧ m.epoch = s.mem.mos.epoch)
    ⟨hm, rfl⟩ (fun k hk m h => ⟨Memory.write_wf h.1 (by omega) _, h.2⟩)

/-- The output image is no larger than the mosaic (R242). -/
theorem outputSize_le (dmode : DemosaicMode) (w h : Nat) : (outputSize dmode w h).1 * (outputSize dmode w h).2 ≤ w * h := by
  cases dmode with
  | superPixel => exact Nat.mul_le_mul (Nat.div_le_self w 2) (Nat.div_le_self h 2)
  | none => exact Nat.le_refl _
  | linear => exact Nat.le_refl _
  | enhancedLinear => exact Nat.le_refl _

/-- One pixel of `DM.RUN` is stored, or its pixel function raises. -/
theorem demosaicStep_ok {dmode : DemosaicMode} {ow y x : Nat} {m m' : Memory 16}
    (h : demosaicStep s dmode ow y x m = .ok m') : ∃ p, m' = storePixel (y * ow + x) p m := by
  unfold demosaicStep at h
  split at h
  · cases h
  · cases h; exact ⟨_, rfl⟩

theorem dmRunBody_ends (dmode : DemosaicMode) (s : State) : BodyEnds (.dmRun dmode) s (dmRunBody dmode s) := by
  unfold dmRunBody
  dsimp only
  split
  · exact raisesAt_cursor _ s
  split
  · exact raisesAt_cursor _ s
  split
  · exact raisesAt_cursor _ s
  rename_i hfit
  split
  · exact raisesAt_cursor _ s
  obtain ⟨-, -, hpix⟩ := (State.demosaicFits_iff s).mp (by simpa using hfit)
  have hsize := outputSize_le dmode s.regs.w s.regs.h
  generalize outputSize dmode s.regs.w s.regs.h = size at hsize ⊢
  cases hl : loop size.2 (fun y => loop size.1 (demosaicStep s dmode size.1 y)) s.mem.rgb with
  | error c => exact raisesAt_cursor _ s
  | ok rgb =>
    refine ⟨rgb, _, _, fun hm => ?_, rfl⟩
    refine loop2_keeps (P := fun m => m.wf (3 * s.params.maxPixels) = true ∧ m.epoch = s.mem.rgb.epoch)
      ⟨hm, rfl⟩ (fun y x m m' hy hx h hs => ?_) hl
    obtain ⟨p, rfl⟩ := demosaicStep_ok hs
    have := index_lt hy hx
    exact ⟨storePixel_wf h.1 (by omega) p, by rw [storePixel_epoch, h.2]⟩

/-- One pixel of a pipeline stage is stored, or its stage raises. -/
theorem stagePixel_ok {stage : Pixel → Option Pixel} {k : Nat} {m m' : Memory 16}
    (h : stagePixel stage k m = .ok m') : ∃ p, m' = storePixel k p m := by
  unfold stagePixel at h
  split at h
  · cases h
  · cases h; exact ⟨_, rfl⟩

/-- All a pipeline stage can answer, whatever it does to a pixel: an image in canonical form, or a fault at the unmoved
cursor (R297). -/
theorem pipelineBody_cases (stage : Pixel → Option Pixel) (s : State) :
    (∃ m, KeepsMemory (3 * s.params.maxPixels) s.mem.rgb m ∧ pipelineBody stage s = .ok (s.setRgb m)) ∨
    ∃ c, pipelineBody stage s = .error ⟨c, s.br⟩ := by
  unfold pipelineBody
  split
  · exact .inr ⟨_, rfl⟩
  rename_i hfit
  obtain ⟨-, hpix⟩ := (State.imageFits_iff s).mp (by simpa using hfit)
  cases hl : loop s.regs.imagePixels (stagePixel stage) s.mem.rgb with
  | error c => exact .inr ⟨c, rfl⟩
  | ok rgb =>
    refine .inl ⟨rgb, fun hm => ?_, rfl⟩
    refine loop_induct (P := fun _ m => m.wf (3 * s.params.maxPixels) = true ∧ m.epoch = s.mem.rgb.epoch)
      ⟨hm, rfl⟩ (fun k hk m m' h hs => ?_) hl
    obtain ⟨p, rfl⟩ := stagePixel_ok hs
    exact ⟨storePixel_wf h.1 (by omega) p, by rw [storePixel_epoch, h.2]⟩

/-- A pipeline command ends as its frame does. -/
theorem pipelineBody_ends {i : Instr} (hi : ∀ t, EndsIn i s t = EndsIn .cpGamma s t) (stage : Pixel → Option Pixel) :
    BodyEnds i s (pipelineBody stage s) := by
  rcases pipelineBody_cases stage s with ⟨m, hm, he⟩ | ⟨c, he⟩ <;> rw [he]
  · exact (hi _).mpr ⟨m, hm, rfl⟩
  · exact raisesAt_cursor i s

/-! ### Every command -/

@[simp] theorem faultBase_regs (i : Instr) (s : State) : (faultBase i s).regs = s.regs := by cases i <;> rfl
@[simp] theorem faultBase_br (i : Instr) (s : State) : (faultBase i s).br = s.br := by cases i <;> rfl
@[simp] theorem faultBase_mem (i : Instr) (s : State) : (faultBase i s).mem = s.mem := by cases i <;> rfl
@[simp] theorem faultBase_params (i : Instr) (s : State) : (faultBase i s).params = s.params := by cases i <;> rfl
@[simp] theorem faultBase_port (i : Instr) (s : State) : (faultBase i s).port = s.port := by cases i <;> rfl
@[simp] theorem faultBase_readback (i : Instr) (s : State) : (faultBase i s).readback = s.readback := by cases i <;> rfl

/-- Every command but `SYS.RESET` is a body run behind the guard of the fault state (R90, R334, R336). -/
theorem exec_eq_settle (i : Instr) (s : State) (hi : i ≠ .sysReset) :
    ∃ r, BodyEnds i s r ∧ exec i s = .next (if s.fault then s else settle i.writes (faultBase i s) r) := by
  cases i with
  | sysReset => exact absurd rfl hi
  | brInit mode => exact ⟨_, brInitBody_ends mode s, rfl⟩
  | brRead n => exact ⟨_, brReadBody_ends n s, rfl⟩
  | brPeek n => exact ⟨_, brPeekBody_ends n s, rfl⟩
  | brSkip n => exact ⟨_, brSkipBody_ends n s, rfl⟩
  | huBuild slot => exact ⟨_, huBuildBody_ends slot s, rfl⟩
  | huSym slot => exact ⟨_, huSymBody_ends slot s, rfl⟩
  | huDec slot => exact ⟨_, huDecBody_ends slot s, rfl⟩
  | dcRun => exact ⟨_, dcRunBody_ends s, rfl⟩
  | ppNorm mul => exact ⟨_, ppNormBody_ends mul s, rfl⟩
  | dmRun dmode => exact ⟨_, dmRunBody_ends dmode s, rfl⟩
  | cpWb => exact ⟨_, pipelineBody_ends (fun _ => rfl) _, rfl⟩
  | cpCc => exact ⟨_, pipelineBody_ends (fun _ => rfl) _, rfl⟩
  | cpGamma => exact ⟨_, pipelineBody_ends (fun _ => rfl) _, rfl⟩

/-- All a command can do: nothing in the fault state, an ending of its own, or a fault taken. -/
theorem exec_cases {i : Instr} {t : State} (h : exec i s = .next t) :
    (s.fault = true ∧ t = s) ∨ EndsIn i s t ∨
    ∃ c br, RaisesAt i s br ∧ t = takeFault i.writes c ((faultBase i s).setBr br) := by
  by_cases hi : i = .sysReset
  · subst hi; cases h; exact .inr (.inl rfl)
  obtain ⟨r, hr, he⟩ := exec_eq_settle i s hi
  rw [he] at h
  cases h
  split
  · exact .inl ⟨‹_›, rfl⟩
  · cases r with
    | ok t => exact .inr (.inl hr)
    | error e => exact .inr (.inr ⟨e.cause, e.br, hr, rfl⟩)

end Sys2Proof.Machine
end

section
/-! Every step keeps the invariant: the commands by what they can end in, the accesses of the host one by one. -/

namespace Sys2Proof.Machine

variable {s : State}

/-! ### Commands -/

/-- An ending keeps the invariant. -/
theorem State.Inv.endsIn (h : s.Inv) {i : Instr} {t : State} (he : EndsIn i s t) : t.Inv ∧ t.params = s.params := by
  obtain ⟨-, hmos, hrgb, -⟩ := (Memories.wf_iff _ _).mp h.memory
  cases i with
  | sysReset => subst he; exact ⟨systemReset_inv h, rfl⟩
  | brInit _ => obtain ⟨br, hb, rfl⟩ := he; exact ⟨h.setBr (hb h.cursor), rfl⟩
  | brRead _ => obtain ⟨br, v, hb, rfl⟩ := he; exact ⟨(h.setBr (hb h.cursor)).setRes v, rfl⟩
  | brPeek _ => obtain ⟨v, rfl⟩ := he; exact ⟨h.setRes v, rfl⟩
  | brSkip _ => obtain ⟨br, hb, rfl⟩ := he; exact ⟨h.setBr (hb h.cursor), rfl⟩
  | huBuild slot => obtain ⟨x, hx, rfl⟩ := he; exact ⟨h.setSlot slot hx, rfl⟩
  | huSym _ => obtain ⟨br, v, hb, rfl⟩ := he; exact ⟨(h.setBr (hb h.cursor)).setRes v, rfl⟩
  | huDec _ => obtain ⟨br, v, hb, rfl⟩ := he; exact ⟨(h.setBr (hb h.cursor)).setRes v, rfl⟩
  | dcRun =>
    obtain ⟨m, br, hm, rfl⟩ := he
    exact ⟨(h.setMos (hm hmos).1 (hm hmos).2).setBr (BitReader.unbind_wf _), rfl⟩
  | ppNorm _ => obtain ⟨m, hm, rfl⟩ := he; exact ⟨h.setMos (hm hmos).1 (hm hmos).2, rfl⟩
  | dmRun _ =>
    obtain ⟨m, w, h', hm, rfl⟩ := he
    have hi := h.setRgb (hm hrgb).1 (hm hrgb).2
    exact ⟨⟨hi.params, hi.memory, hi.reserved, hi.latch, hi.cursor, hi.slots, hi.drawn⟩, rfl⟩
  | cpWb => obtain ⟨m, hm, rfl⟩ := he; exact ⟨h.setRgb (hm hrgb).1 (hm hrgb).2, rfl⟩
  | cpCc => obtain ⟨m, hm, rfl⟩ := he; exact ⟨h.setRgb (hm hrgb).1 (hm hrgb).2, rfl⟩
  | cpGamma => obtain ⟨m, hm, rfl⟩ := he; exact ⟨h.setRgb (hm hrgb).1 (hm hrgb).2, rfl⟩

theorem State.Inv.faultBase (h : s.Inv) (i : Instr) : (faultBase i s).Inv := by
  unfold Machine.faultBase
  split
  · exact h.unbuildSlot _
  · exact h

theorem State.Inv.exec (h : s.Inv) {i : Instr} {t : State} (he : exec i s = .next t) : t.Inv ∧ t.params = s.params := by
  rcases exec_cases he with ⟨-, rfl⟩ | hend | ⟨c, br, hr, rfl⟩
  · exact ⟨h, rfl⟩
  · exact h.endsIn hend
  · have hb : br.wf s.params = true := hr.1 ((Memories.wf_iff _ _).mp h.memory).2.1 h.cursor
    exact ⟨((h.faultBase i).setBr (by simpa using hb)).takeFault i.writes c, by simp⟩

theorem State.Inv.runCommand (h : s.Inv) {c : Word} {t : State} (hc : runCommand c s = .next t) :
    t.Inv ∧ t.params = s.params := by
  unfold Machine.runCommand at hc
  split at hc
  · exact h.exec hc
  · exact whenAccepting_keeps h ⟨h.takeFault [] _, rfl⟩ hc

/-! ### Accesses of the host -/

/-- Masked by the defined bits, a value has no reserved bit (R23). -/
theorem and_mask_reserved (v mask : Word) : v &&& mask &&& ~~~mask = 0 := by
  rw [BitVec.and_assoc, BitVec.and_not_self]; exact BitVec.and_zero

theorem Regs.reservedClear_iff (g : Regs) : g.reservedClear = true ↔
    g.cfa &&& ~~~Reg.writable .cfa = 0 ∧ g.unpackCfg &&& ~~~Reg.writable .unpackCfg = 0 ∧
    g.black &&& ~~~Reg.writable .black = 0 ∧ g.scale &&& ~~~Reg.writable .scale = 0 ∧
    g.curveLen &&& ~~~Reg.writable .curveLen = 0 ∧ g.nikonCfg &&& ~~~Reg.writable .nikonCfg = 0 ∧
    g.wbR &&& ~~~Reg.writable .wbR = 0 ∧ g.wbG &&& ~~~Reg.writable .wbG = 0 ∧
    g.wbB &&& ~~~Reg.writable .wbB = 0 ∧ g.wbShift &&& ~~~Reg.writable .wbShift = 0 := by
  simp only [Regs.reservedClear, Bool.and_eq_true, beq_iff_eq, and_assoc]

/-- A register write sets no reserved bit (R23). -/
theorem Regs.hostSet_reservedClear {g : Regs} (h : g.reservedClear = true) (r : Reg) (v : Word) :
    (g.hostSet r v).reservedClear = true := by
  rw [Regs.reservedClear_iff] at h ⊢
  cases r <;> simp only [Regs.hostSet, and_mask_reserved, h, and_self]

@[simp] theorem Regs.hostSet_faultCode (g : Regs) (r : Reg) (v : Word) : (g.hostSet r v).faultCode = g.faultCode := by
  cases r <;> rfl
@[simp] theorem Regs.hostSet_faultInfo (g : Regs) (r : Reg) (v : Word) : (g.hostSet r v).faultInfo = g.faultInfo := by
  cases r <;> rfl

/-- A register write touches the registers, and the cursor at most by unbinding it (R30, R66). -/
theorem State.hostWriteReg_eq (s : State) (r : Reg) (v : Word) :
    s.hostWriteReg r v = { s with
      regs := s.regs.hostSet r v, br := if r = .inOff ∨ r = .inLen then s.br.unbind else s.br } := by
  cases r <;> rfl

theorem State.Inv.hostWriteReg (h : s.Inv) (r : Reg) (v : Word) : (s.hostWriteReg r v).Inv := by
  rw [State.hostWriteReg_eq]
  refine ⟨h.params, h.memory, Regs.hostSet_reservedClear h.reserved r v, ?_, ?_, h.slots, h.drawn⟩
  · have := h.latch
    rw [State.latchWf_iff] at this ⊢
    simpa using this
  · dsimp only
    split
    · exact BitReader.unbind_wf _
    · exact h.cursor

theorem Memories.hostWrite_drawn {m : Memories} {d : Nat} (h : m.drawnBefore d = true) (i : Nat) (v : Word) (sp : Space) :
    (m.hostWrite i v sp).drawnBefore d = true := by
  cases sp <;> exact h

/-- A write to a memory keeps the invariant, its side effect among it (R66). -/
theorem State.Inv.hostWriteMemory (h : s.Inv) {sp : Space} {i : Nat} (hi : i < spaceSize s.params sp) (v : Word) :
    (hostWriteEffect sp i { s with mem := s.mem.hostWrite i v sp }).Inv := by
  have hw : State.Inv { s with mem := s.mem.hostWrite i v sp } :=
    ⟨h.params, Memories.hostWrite_wf h.memory hi v, h.reserved, h.latch, h.cursor, h.slots,
      Memories.hostWrite_drawn h.drawn i v sp⟩
  unfold hostWriteEffect
  split
  · exact hw.setBr (BitReader.unbind_wf _)
  · exact hw.unbuildSlot _
  · exact hw

@[simp] theorem hostWriteEffect_params (sp : Space) (i : Nat) (s : State) : (hostWriteEffect sp i s).params = s.params := by
  cases sp <;> rfl

theorem State.Inv.hostWriteElement (h : s.Inv) (space i : Nat) (v : Word) :
    (hostWriteElement s space i v).Inv ∧ (hostWriteElement s space i v).params = s.params := by
  unfold Machine.hostWriteElement
  split
  · exact ⟨h, rfl⟩
  split
  · exact ⟨h, rfl⟩
  rename_i hi
  split
  · split
    · exact ⟨h.hostWriteReg _ v, by rw [State.hostWriteReg_eq]⟩
    · exact ⟨h, rfl⟩
  · exact ⟨h.hostWriteMemory (Nat.lt_of_not_le hi) v, by simp⟩

/-! ### Steps -/

theorem State.Inv.runHostAction (h : s.Inv) {a : HostAction} {t : State} (ha : runHostAction a s = .next t) :
    t.Inv ∧ t.params = s.params := by
  cases a with
  | write space i v =>
    simp only [Machine.runHostAction] at ha
    split at ha
    · exact h.runCommand ha
    · cases ha; exact h.hostWriteElement space i v
  | read space i =>
    cases ha
    exact ⟨⟨h.params, h.memory, h.reserved, h.latch, h.cursor, h.slots, h.drawn⟩, rfl⟩
  | hardwareReset => cases ha; exact ⟨hardwareReset_inv h, rfl⟩

/-- What the host still wants is no matter of the invariant. -/
theorem State.Inv.withPort (h : s.Inv) (port : List HostAction) : State.Inv { s with port := port } :=
  ⟨h.params, h.memory, h.reserved, h.latch, h.cursor, h.slots, h.drawn⟩

theorem State.Inv.step (h : s.Inv) {t : State} (hs : step s = .next t) : t.Inv ∧ t.params = s.params := by
  unfold Machine.step nextAction at hs
  split at hs
  · cases hs; exact ⟨h, rfl⟩
  · rename_i rest _
    exact (h.withPort rest).runHostAction hs

/-- Settles O55: every command keeps the invariant by what it can end in, every access of the host by the law of its write. -/
theorem everyStepKeepsTheInvariant : Obligations.EveryStepKeepsTheInvariant := fun _ _ h hs => h.step hs

/-- No slot is built after a reset (R47). -/
@[simp] theorem HuffSlot.allUnspecified_built (draw : Nat) (slot : Slot) :
    (HuffSlot.allUnspecified draw)[slot].built = false := by
  fin_cases slot <;> rfl

/-- Of a slot that is not built nothing is asked (R42). -/
theorem HuffSlot.wf_of_not_built {x : HuffSlot} (h : x.built = false) : x.wf = true := by simp [HuffSlot.wf, h]

/-- Settles O54: at reset the registers are 0, the memories blank, the cursor unbound and no slot built. -/
theorem resetMeetsTheInvariant : Obligations.ResetMeetsTheInvariant where
  params := by decide
  memory := Memories.blank_wf _ _
  reserved := by decide
  latch := by decide
  cursor := BitReader.unbound_wf _
  slots := fun slot => HuffSlot.wf_of_not_built (HuffSlot.allUnspecified_built 0 slot)
  drawn := Memories.blank_drawn 1

end Sys2Proof.Machine
end

section
/-! What every command but `SYS.RESET` leaves alone, read off from what it can end in. -/

namespace Sys2Proof.Machine

variable {s t : State}

/-- `t` differs from `s` in nothing that commands leave alone, but in the slot `i` builds, the cursor where `i` may move it,
`RES` where `i` answers there, and the registers of the image where `i` is `DM.RUN`. -/
structure Frame (i : Instr) (s t : State) : Prop where
  config : t.regs = { s.regs with
    faultCode := t.regs.faultCode, faultInfo := t.regs.faultInfo, res := t.regs.res
    rgbWidth := t.regs.rgbWidth, rgbHeight := t.regs.rgbHeight }
  image : (∀ dmode, i ≠ .dmRun dmode) → t.regs.rgbWidth = s.regs.rgbWidth ∧ t.regs.rgbHeight = s.regs.rgbHeight
  res : t.fault = false → (∀ n, i ≠ .brRead n ∧ i ≠ .brPeek n) → (∀ slot, i ≠ .huSym slot ∧ i ≠ .huDec slot) →
    t.regs.res = s.regs.res
  slots : ∀ slot : Slot, i ≠ .huBuild slot → t.hu[slot] = s.hu[slot]
  cursor : i.leavesCursor = true → t.br = s.br
  params : t.params = s.params
  port : t.port = s.port
  readback : t.readback = s.readback

/-- A command that changes only the cursor and the memories. -/
theorem Frame.of_regs_eq {i : Instr} (hr : t.regs = s.regs) (hh : t.hu = s.hu) (hb : i.leavesCursor = true → t.br = s.br)
    (hp : t.params = s.params) (ho : t.port = s.port) (hk : t.readback = s.readback) : Frame i s t where
  config := by rw [hr]
  image := fun _ => by rw [hr]; exact ⟨rfl, rfl⟩
  res := fun _ _ _ => by rw [hr]
  slots := fun slot _ => by rw [hh]
  cursor := hb
  params := hp
  port := ho
  readback := hk

/-- A command that answers in `RES` besides. -/
theorem Frame.of_setRes {i : Instr} (br : BitReader) (v : Word)
    (hi : (∃ n, i = .brRead n ∨ i = .brPeek n) ∨ ∃ slot, i = .huSym slot ∨ i = .huDec slot) (hc : i.leavesCursor = false) :
    Frame i s ((s.setBr br).setRes v) where
  config := rfl
  image := fun _ => ⟨rfl, rfl⟩
  res := fun _ h1 h2 => by
    rcases hi with ⟨n, h | h⟩ | ⟨slot, h | h⟩
    · exact absurd h (h1 n).1
    · exact absurd h (h1 n).2
    · exact absurd h (h2 slot).1
    · exact absurd h (h2 slot).2
  slots := fun _ _ => rfl
  cursor := fun h => by simp [hc] at h
  params := rfl
  port := rfl
  readback := rfl

/-- Replacing one slot leaves the others. -/
theorem getElem_set_slot {hu : Vector HuffSlot Config.nSlot} {slot k : Slot} (x : HuffSlot) (h : slot ≠ k) :
    (hu.set slot.val x)[k] = hu[k] :=
  Vector.getElem_set_ne _ _ (fun hv => h (Fin.ext hv))

theorem EndsIn.frame {i : Instr} (hi : i ≠ .sysReset) (h : EndsIn i s t) : Frame i s t := by
  cases i with
  | sysReset => exact absurd rfl hi
  | brInit _ => obtain ⟨br, -, rfl⟩ := h; exact .of_regs_eq rfl rfl nofun rfl rfl rfl
  | brRead n => obtain ⟨br, v, -, rfl⟩ := h; exact .of_setRes br v (.inl ⟨n, .inl rfl⟩) rfl
  | brPeek n => obtain ⟨v, rfl⟩ := h; exact .of_setRes s.br v (.inl ⟨n, .inr rfl⟩) rfl
  | brSkip _ => obtain ⟨br, -, rfl⟩ := h; exact .of_regs_eq rfl rfl nofun rfl rfl rfl
  | huBuild slot =>
    obtain ⟨x, -, rfl⟩ := h
    exact { config := rfl, image := fun _ => ⟨rfl, rfl⟩, res := fun _ _ _ => rfl
            slots := fun k hk => getElem_set_slot x (fun h => hk (h ▸ rfl))
            cursor := fun _ => rfl, params := rfl, port := rfl, readback := rfl }
  | huSym slot => obtain ⟨br, v, -, rfl⟩ := h; exact .of_setRes br v (.inr ⟨slot, .inl rfl⟩) rfl
  | huDec slot => obtain ⟨br, v, -, rfl⟩ := h; exact .of_setRes br v (.inr ⟨slot, .inr rfl⟩) rfl
  | dcRun => obtain ⟨m, br, -, rfl⟩ := h; exact .of_regs_eq rfl rfl nofun rfl rfl rfl
  | ppNorm _ => obtain ⟨m, -, rfl⟩ := h; exact .of_regs_eq rfl rfl (fun _ => rfl) rfl rfl rfl
  | dmRun dmode =>
    obtain ⟨m, w, h', -, rfl⟩ := h
    exact { config := rfl, image := fun hd => absurd rfl (hd dmode), res := fun _ _ _ => rfl, slots := fun _ _ => rfl
            cursor := fun _ => rfl, params := rfl, port := rfl, readback := rfl }
  | cpWb => obtain ⟨m, -, rfl⟩ := h; exact .of_regs_eq rfl rfl (fun _ => rfl) rfl rfl rfl
  | cpCc => obtain ⟨m, -, rfl⟩ := h; exact .of_regs_eq rfl rfl (fun _ => rfl) rfl rfl rfl
  | cpGamma => obtain ⟨m, -, rfl⟩ := h; exact .of_regs_eq rfl rfl (fun _ => rfl) rfl rfl rfl

/-- A faulting command changes at most the slot it builds (R334). -/
theorem faultBase_hu {i : Instr} {slot : Slot} (h : i ≠ .huBuild slot) : (faultBase i s).hu[slot] = s.hu[slot] := by
  cases i with
  | huBuild k => exact getElem_set_slot _ (fun hk => h (hk ▸ rfl))
  | _ => rfl

theorem takeFault_frame {i : Instr} {br : BitReader} (c : Cause) (h : RaisesAt i s br) :
    Frame i s (takeFault i.writes c ((faultBase i s).setBr br)) where
  config := by simp [takeFault]
  image := fun _ => by simp
  res := fun h => by simp at h
  slots := fun _ hs => faultBase_hu hs
  cursor := h.2
  params := by simp
  port := by simp
  readback := by simp

theorem exec_frame {i : Instr} (hi : i ≠ .sysReset) (h : exec i s = .next t) : Frame i s t := by
  rcases exec_cases h with ⟨-, rfl⟩ | hend | ⟨c, br, hr, rfl⟩
  · exact .of_regs_eq rfl rfl (fun _ => rfl) rfl rfl rfl
  · exact hend.frame hi
  · exact takeFault_frame c hr

/-- Settles O57: each ending of a command, and a fault taken, has the frame. -/
theorem commandsLeaveTheConfigurationAlone : Obligations.CommandsLeaveTheConfigurationAlone := by
  intro i s t h hi
  have f := exec_frame hi h
  refine ⟨f.config, f.image, f.res, f.slots, fun hc => f.cursor ?_, f.params, f.port, f.readback⟩
  rcases hc with ⟨_, rfl⟩ | ⟨_, rfl⟩ | ⟨_, rfl⟩ | rfl | rfl | rfl <;> rfl

end Sys2Proof.Machine
end

section
/-! The step and the registers: which host action a step runs, what the registers read after a reset, the bits of `STATUS`,
and the register map. -/

namespace Sys2Proof.Machine

variable {s : State}

/-! ### The step -/

theorem step_of_port {a : HostAction} {rest : List HostAction} (h : s.port = a :: rest) :
    step s = runHostAction a { s with port := rest } := by
  simp only [step, nextAction, h]

theorem runCommand_of_decode {c : Word} {i : Instr} (h : decode c = .ok i) (s : State) : runCommand c s = exec i s := by
  simp only [runCommand, h]

/-- Settles O6: the write to `CMD` is the oldest action of the port, and its word decodes. -/
theorem stepRunsTheDecodedCommand : Obligations.StepRunsTheDecodedCommand := by
  intro s c i rest hport hdec
  rw [step_of_port hport]
  exact runCommand_of_decode hdec _

/-! ### STATUS -/

/-- The ranges of the fields `STATUS` shows (R26). -/
theorem State.statusFields_le (s : State) : s.fault.toNat ≤ 1 ∧ s.br.bound.toNat ≤ 1 ∧ readerModeBits s.br.mode ≤ 2 ∧
    s.hu[0].built.toNat ≤ 1 ∧ s.hu[1].built.toNat ≤ 1 ∧ s.hu[2].built.toNat ≤ 1 ∧ s.hu[3].built.toNat ≤ 1 :=
  ⟨Bool.toNat_le _, Bool.toNat_le _, by cases s.br.mode <;> decide, Bool.toNat_le _, Bool.toNat_le _, Bool.toNat_le _,
    Bool.toNat_le _⟩

/-- `STATUS` as a number: its fields end below bit 12, so none is cut off (R26). -/
theorem State.status_toNat (s : State) : s.status.toNat =
    2 * s.fault.toNat + 4 * s.br.bound.toNat + 8 * readerModeBits s.br.mode
      + 256 * (s.hu[0].built.toNat + 2 * s.hu[1].built.toNat + 4 * s.hu[2].built.toNat + 8 * s.hu[3].built.toNat) := by
  obtain ⟨hf, hb, hm, h0, h1, h2, h3⟩ := s.statusFields_le
  rw [State.status, BitVec.toNat_ofNat, Nat.mod_eq_of_lt]
  omega

/-- A bit of a word, from the word's value. -/
theorem getLsbD_of_digit {w : Word} {k : Nat} {b : Bool} (h : w.toNat / 2 ^ k % 2 = b.toNat) : w.getLsbD k = b := by
  rw [BitVec.getLsbD, Nat.testBit_eq_decide_div_mod_eq, h]
  cases b <;> rfl

/-- Settles O15: each field is a digit of the number `STATUS` is. -/
theorem statusShowsTheUnitState : Obligations.StatusShowsTheUnitState := by
  intro s
  have hs := s.status_toNat
  obtain ⟨hf, hb, hm, h0, h1, h2, h3⟩ := s.statusFields_le
  refine ⟨getLsbD_of_digit ?busy, getLsbD_of_digit ?fault, getLsbD_of_digit ?bound, ?mode,
    fun k hk hk' => getLsbD_of_digit ?reserved, fun slot => getLsbD_of_digit ?built,
    fun k hk => getLsbD_of_digit ?high⟩
  case busy => simp only [Bool.toNat_false]; omega
  case fault => omega
  case bound => omega
  case mode =>
    have : s.status.toNat / 8 % 4 = readerModeBits s.br.mode := by omega
    rw [this]
    cases s.br.mode <;> rfl
  case reserved => interval_cases k <;> simp only [Bool.toNat_false] <;> omega
  case built =>
    match slot with
    | 0 => show _ / 2 ^ 8 % 2 = s.hu[0].built.toNat; omega
    | 1 => show _ / 2 ^ 9 % 2 = s.hu[1].built.toNat; omega
    | 2 => show _ / 2 ^ 10 % 2 = s.hu[2].built.toNat; omega
    | 3 => show _ / 2 ^ 11 % 2 = s.hu[3].built.toNat; omega
  case high =>
    have hlt : s.status.toNat < 2 ^ k := 
      Nat.lt_of_lt_of_le (show s.status.toNat < 2 ^ 12 by omega) (Nat.pow_le_pow_right (by decide) hk)
    rw [Nat.div_eq_of_lt hlt]; rfl

/-! ### Registers after a reset -/

/-- The view of a state whose unit state is that of a reset (R26). -/
theorem State.status_of_reset (hf : s.fault = false) (hb : s.br = .unbound) (hh : ∀ slot : Slot, s.hu[slot].built = false) :
    s.status = 0 := by
  have h0 : s.hu[0].built = false := hh 0
  have h1 : s.hu[1].built = false := hh 1
  have h2 : s.hu[2].built = false := hh 2
  have h3 : s.hu[3].built = false := hh 3
  rw [State.status, hf, hb, h0, h1, h2, h3]
  rfl

theorem Regs.zero_cm (i : Fin 9) : Regs.zero.cm[i] = 0 := by fin_cases i <;> rfl

/-- Every register reads 0 where the registers and the unit state are those of a reset (R47). -/
theorem State.hostReadReg_of_reset (hr : s.regs = .zero) (hf : s.fault = false) (hb : s.br = .unbound)
    (hh : ∀ slot : Slot, s.hu[slot].built = false) (r : Reg) : s.hostReadReg r = 0 := by
  cases r with
  | status => exact State.status_of_reset hf hb hh
  | brPosLo => simp only [State.hostReadReg, State.posLow, hb]; rfl
  | brPosHi => simp only [State.hostReadReg, State.posHigh, hb]; rfl
  | cm i => simp only [State.hostReadReg, hr]; exact Regs.zero_cm i
  | _ => simp only [State.hostReadReg, hr, Regs.zero]

/-- Settles O14: at reset and after a hardware reset the registers and the unit state are those of a reset. -/
theorem hardwareResetLeavesOnlyZeroRegisters : Obligations.HardwareResetLeavesOnlyZeroRegisters := by
  refine ⟨⟨State.hostReadReg_of_reset rfl rfl rfl (HuffSlot.allUnspecified_built 0), rfl, rfl,
    HuffSlot.allUnspecified_built 0, 1, rfl⟩, fun s rest hport => ⟨_, step_of_port hport, ?_⟩⟩
  exact ⟨State.hostReadReg_of_reset rfl rfl rfl (HuffSlot.allUnspecified_built s.draws), rfl, rfl,
    HuffSlot.allUnspecified_built s.draws, s.draws + 1, rfl⟩

/-! ### The register map -/

/-- The numbers of R24. -/
def registerNumbers : List Nat := List.range' 0x00 7 ++ List.range' 0x08 22 ++ List.range' 0x20 9

theorem registerMap_numbers (s : State) : (registerMap s).map RegisterRow.number = registerNumbers := rfl

theorem Reg.ofNumber_of_ge {n : Nat} (h : 0x29 ≤ n) : Reg.ofNumber n = none := by
  unfold Reg.ofNumber
  split <;> first | rfl | omega

/-- The numbers outside the map are reserved (R24). -/
theorem Reg.ofNumber_eq_none {n : Nat} (h : n ∉ registerNumbers) : Reg.ofNumber n = none := by
  have below : ∀ m, m < 0x29 → m ∉ registerNumbers → Reg.ofNumber m = none := by decide
  rcases Nat.lt_or_ge n 0x29 with hn | hn
  · exact below n hn h
  · exact Reg.ofNumber_of_ge hn

theorem State.posLow_eq (s : State) : s.posLow = s.br.pos.extractLsb' 0 32 := by
  simp [State.posLow, BitVec.extractLsb']

theorem State.posHigh_eq (s : State) : s.posHigh = s.br.pos.extractLsb' 32 32 := by
  simp [State.posHigh, BitVec.extractLsb', Nat.shiftRight_eq_div_pow]

/-- What a row of the map claims (R24). -/
def RegisterRow.Holds (s : State) (row : RegisterRow) : Prop :=
  Reg.ofNumber row.number = some row.reg ∧ Reg.writable row.reg = row.defined ∧ s.hostReadReg row.reg = row.value

theorem registerMap_holds (s : State) : ∀ row ∈ registerMap s, row.Holds s := by
  simp only [registerMap, List.forall_mem_append, List.forall_mem_cons, List.forall_mem_map]
  refine ⟨⟨⟨?_, ?_⟩, ?_⟩, fun i _ => ?_⟩
  · exact ⟨⟨rfl, rfl, rfl⟩, ⟨rfl, rfl, rfl⟩, ⟨rfl, rfl, rfl⟩, ⟨rfl, rfl, rfl⟩, ⟨rfl, rfl, rfl⟩, ⟨rfl, rfl, s.posLow_eq⟩,
      ⟨rfl, rfl, s.posHigh_eq⟩, nofun⟩
  · refine ⟨?_, ?_, ?_, ?_, ?_, ?_, ?_, ?_, ?_, ?_, ?_, ?_, ?_, ?_, ?_, ?_, nofun⟩ <;> exact ⟨rfl, rfl, rfl⟩
  · refine ⟨?_, ?_, ?_, ?_, ?_, ?_, nofun⟩ <;> exact ⟨rfl, rfl, rfl⟩
  · fin_cases i <;> exact ⟨rfl, rfl, rfl⟩

/-! ### Host accesses to registers -/

theorem Reg.lt_of_ofNumber {n : Nat} {r : Reg} (h : Reg.ofNumber n = some r) : n < Config.regSize := by
  by_contra hn
  rw [Reg.ofNumber_of_ge (Nat.le_trans (by decide) (Nat.le_of_not_lt hn))] at h
  cases h

/-- A host read of a register's number. -/
theorem hostReadValue_reg {n : Nat} {r : Reg} (h : Reg.ofNumber n = some r) (s : State) :
    hostReadValue s 0 n = s.hostReadReg r := by
  have hn := Nat.not_le_of_lt (Reg.lt_of_ofNumber h)
  simp only [hostReadValue, Space.ofId, spaceSize, if_neg hn, h, Option.map_some, Option.getD_some]

/-- A host read of a reserved number (R23, R66). -/
theorem hostReadValue_reserved {n : Nat} (h : Reg.ofNumber n = none) (s : State) : hostReadValue s 0 n = 0 := by
  simp only [hostReadValue, Space.ofId, h, Option.map_none, Option.getD_none, ite_self]

/-- A host write to a register's number. -/
theorem hostWriteElement_reg {n : Nat} {r : Reg} (h : Reg.ofNumber n = some r) (v : Word) (s : State) :
    hostWriteElement s 0 n v = s.hostWriteReg r v := by
  have hn := Nat.not_le_of_lt (Reg.lt_of_ofNumber h)
  simp only [hostWriteElement, Space.ofId, spaceSize, if_neg hn, h]

/-- A host write to a reserved number (R23, R66). -/
theorem hostWriteElement_reserved {n : Nat} (h : Reg.ofNumber n = none) (v : Word) (s : State) :
    hostWriteElement s 0 n v = s := by
  simp only [hostWriteElement, Space.ofId, h, ite_self]

/-- A host write to a register number but `CMD`'s. -/
theorem step_of_port_writeReg {n : Nat} {v : Word} {rest : List HostAction} (hport : s.port = .write 0 n v :: rest)
    (hn : n ≠ 0) : step s = .next (hostWriteElement { s with port := rest } 0 n v) := by
  simp only [step_of_port hport, runHostAction, hn, and_false, if_false]

theorem Regs.hostSet_of_not_writable {r : Reg} (h : Reg.writable r = 0) (v : Word) (g : Regs) : g.hostSet r v = g := by
  cases r with
  | cm _ => exact absurd h (by simp [Reg.writable])
  | _ => first | rfl | exact absurd h (by decide)

theorem State.hostWriteReg_of_not_writable {r : Reg} (h : Reg.writable r = 0) (v : Word) (s : State) :
    s.hostWriteReg r v = s := by
  have hr : ¬(r = .inOff ∨ r = .inLen) := by rintro (rfl | rfl) <;> exact absurd h (by decide)
  rw [State.hostWriteReg_eq, Regs.hostSet_of_not_writable h, if_neg hr]

/-- The register written reads as the value under its defined bits (R23). -/
theorem State.hostReadReg_hostWriteReg_same {r : Reg} (h : Reg.writable r ≠ 0) (v : Word) (s : State) :
    (s.hostWriteReg r v).hostReadReg r = v &&& Reg.writable r := by
  have full : v &&& 0xFFFFFFFF#32 = v := BitVec.and_allOnes
  revert h
  cases r with
  | cm i => exact fun _ => (Vector.getElem_set_self _).trans full.symm
  | _ => first | exact fun _ => rfl | exact fun _ => full.symm | exact fun h => absurd rfl h

/-- Every other register but `STATUS`, which shows the cursor unbound, reads as before (R23): for each register written, the
registers are gone through; only `CM0` to `CM8` share a field. -/
theorem State.hostReadReg_hostWriteReg_ne {r r' : Reg} (hne : r' ≠ r) (hs : r' ≠ .status) (v : Word) (s : State) :
    (s.hostWriteReg r v).hostReadReg r' = s.hostReadReg r' := by
  cases r with
  | cm i =>
    cases r' with
    | cm j => exact Vector.getElem_set_ne i.isLt j.isLt (fun h => hne (congrArg Reg.cm (Fin.ext h.symm)))
    | _ => rfl
  | _ => cases r' <;> first | rfl | exact absurd rfl hne | exact absurd rfl hs

/-- A number that no row of the map has. -/
theorem Reg.ofNumber_of_no_row {n : Nat} (h : ∀ row ∈ registerMap s, row.number ≠ n) : Reg.ofNumber n = none := by
  refine Reg.ofNumber_eq_none fun hn => ?_
  rw [← registerMap_numbers s] at hn
  obtain ⟨row, hrow, rfl⟩ := List.mem_map.mp hn
  exact h row hrow rfl

/-- Settles O16: the map row by row, then a read, a write to a writable register, and a write to any other number. -/
theorem registerWritesKeepTheDefinedBits : Obligations.RegisterWritesKeepTheDefinedBits := by
  refine ⟨registerMap_holds, fun s n => Reg.ofNumber_of_no_row, ?read, ?write, ?refused⟩
  case read =>
    intro s n rest hport
    refine ⟨_, step_of_port hport, fun row hrow hn => ?_, fun h => hostReadValue_reserved (Reg.ofNumber_of_no_row h) _⟩
    obtain ⟨hnum, -, hval⟩ := registerMap_holds s row hrow
    exact (hostReadValue_reg (hn ▸ hnum) _).trans hval
  case write =>
    intro s n r v rest hport hn hr hw
    rw [step_of_port_writeReg hport hn, hostWriteElement_reg hr]
    refine ⟨_, rfl, State.hostReadReg_hostWriteReg_same hw v _,
      fun r' hne hs => State.hostReadReg_hostWriteReg_ne hne hs v _, ?_⟩
    rw [State.hostWriteReg_eq]
    exact ⟨rfl, rfl, rfl, rfl⟩
  case refused =>
    intro s n v rest hport hn h
    rw [step_of_port_writeReg hport hn]
    cases hr : Reg.ofNumber n with
    | none => rw [hostWriteElement_reserved hr]
    | some r => rw [hostWriteElement_reg hr, State.hostWriteReg_of_not_writable (h r hr)]

end Sys2Proof.Machine
end

section
/-! The checks `DC.RUN`, its codecs and `DM.RUN` make before they write, in their order; and the register fields they read. -/

namespace Sys2Proof.Machine

variable {s : State}

/-- A command behind the guard whose body raises takes the fault it raises, at the cursor of the raise (R334). -/
theorem exec_eq_takeFault {i : Instr} {body : State → Except Raised State} {e : Raised}
    (hexec : exec i s = whenAccepting s fun s => settle i.writes s (body s)) (hf : s.fault = false)
    (hbody : body s = .error e) : exec i s = .next (takeFault i.writes e.cause (s.setBr e.br)) := by
  rw [hexec, whenAccepting_of_ok hf, hbody, settle_error]

theorem faultsWith_of_exec {i : Instr} {ws : List Space} {code : FaultCode} {info : Word} {br : BitReader}
    (h : exec i s = .next (takeFault ws ⟨code, info⟩ (s.setBr br))) : FaultsWith i s code info br :=
  ⟨_, h, rfl, rfl, rfl, rfl⟩

/-! ### DC.RUN -/

theorem dcRun_faultsWith {code : FaultCode} {info : Word} {br : BitReader} (hf : s.fault = false)
    (h : dcRunBody s = .error ⟨⟨code, info⟩, br⟩) : FaultsWith .dcRun s code info br :=
  faultsWith_of_exec (exec_eq_takeFault rfl hf h)

/-- The codes that name a codec (R181). -/
theorem codecOf_isSome_iff (code : Nat) : (codecOf code).isSome = true ↔ code = 1 ∨ code = 32767 ∨ code = 34713 := by
  unfold codecOf
  split
  · simp_all
  split
  · simp_all
  split <;> simp_all

theorem dcRunBody_of_unknown (h : codecOf s.regs.compression.toNat = none) :
    dcRunBody s = raiseAt s .unknownCompression s.regs.compression := by
  simp only [dcRunBody, h]

section codec

variable {codec : State → BitReader → Except Raised (Memory 16 × BitReader)}
  (hc : codecOf s.regs.compression.toNat = some codec)

include hc

theorem dcRunBody_of_misfit (hfit : s.mosaicFits = false) : dcRunBody s = raiseAt s .geometry 0 := by
  simp only [dcRunBody, hc, hfit, Bool.not_false, if_true]

theorem dcRunBody_of_outside (hfit : s.mosaicFits = true) (hin : s.regionInside = false) :
    dcRunBody s = raiseAt s .bounds s.regs.inOff := by
  simp only [dcRunBody, hc, hfit, hin, Bool.not_true, Bool.not_false, Bool.false_eq_true, if_true, if_false]

/-- What a codec raises, `DC.RUN` raises; the codec begins with the cursor unbound (R180). -/
theorem dcRunBody_of_codec_error (hfit : s.mosaicFits = true) (hin : s.regionInside = true) {e : Raised}
    (he : codec s s.br.unbind = .error e) : dcRunBody s = .error e := by
  simp only [dcRunBody, hc, hfit, hin, he, Bool.not_true, Bool.false_eq_true, if_false]

end codec

/-- Settles O32: one equation of `DC.RUN` per check, each under the checks before it. -/
theorem dcRunChecksCodeGeometryRegion : Obligations.DcRunChecksCodeGeometryRegion := by
  intro s hf code known fits
  have hfits : s.mosaicFits = true ↔ fits := s.mosaicFits_iff
  have hinside := s.regionInside_iff
  have hknown : (codecOf code).isSome = true ↔ known := codecOf_isSome_iff code
  refine ⟨hfits, hinside, fun hk => ?unknown, fun hk hmis => ?geometry, fun hk hfit hout => ?region⟩
  case unknown =>
    exact dcRun_faultsWith hf (dcRunBody_of_unknown (by simpa using mt hknown.mp hk))
  case geometry =>
    obtain ⟨codec, hc⟩ := Option.isSome_iff_exists.mp (hknown.mpr hk)
    exact dcRun_faultsWith hf (dcRunBody_of_misfit hc (Bool.eq_false_iff.mpr (mt hfits.mp hmis)))
  case region =>
    obtain ⟨codec, hc⟩ := Option.isSome_iff_exists.mp (hknown.mpr hk)
    exact dcRun_faultsWith hf (dcRunBody_of_outside hc (hfits.mpr hfit)
      (Bool.eq_false_iff.mpr fun h => Nat.not_le_of_lt hout (hinside.mp h)))

/-! ### Register fields -/

/-- A field of one bit is set when the bit is. -/
theorem bits_one_iff (w : Word) (k : Nat) : (bits w k k == 1) = true ↔ w.getLsbD k = true := by
  rw [bits, wordField, Nat.add_sub_cancel_left, BitVec.getLsbD, Nat.testBit_eq_decide_div_mod_eq, beq_iff_eq,
    decide_eq_true_iff, Nat.pow_one]

/-- A field from bit 0 up. -/
theorem bits_zero (w : Word) (hi : Nat) : bits w hi 0 = w.toNat % 2 ^ (hi + 1) := by
  simp [bits, wordField]

/-- The fields of `UNPACK_CFG`, `CURVE_LEN` and `NIKON_CFG` (R34, R36, R37). -/
theorem codecFields (g : Regs) :
    g.unpackBits = g.unpackCfg.toNat % 2 ^ 5 ∧ (g.unpackWordAligned = true ↔ g.unpackCfg.getLsbD 8 = true) ∧
    (g.unpackLittle = true ↔ g.unpackCfg.getLsbD 9 = true) ∧ g.curveEntries = g.curveLen.toNat % 2 ^ 17 ∧
    g.nikonSlotA.val = g.nikonCfg.toNat % 4 ∧ g.nikonSlotB.val = g.nikonCfg.toNat / 4 % 4 ∧
    (g.nikonSplitEnabled = true ↔ g.nikonCfg.getLsbD 4 = true) := by
  refine ⟨bits_zero _ 4, bits_one_iff _ 8, bits_one_iff _ 9, bits_zero _ 16, ?_, ?_, bits_one_iff _ 4⟩
  · show bits g.nikonCfg 1 0 % 4 = g.nikonCfg.toNat % 4
    rw [bits_zero]; omega
  · show bits g.nikonCfg 3 2 % 4 = g.nikonCfg.toNat / 4 % 4
    simp only [bits, wordField]; omega

/-! ### The checks of the codecs -/

section checks

variable {br : BitReader}

theorem unpack_of_depth (h : s.regs.unpackBits ≠ 12 ∧ s.regs.unpackBits ≠ 14 ∧ s.regs.unpackBits ≠ 16) :
    unpack s br = .error ⟨⟨.illegalCfg, infoNat s.regs.unpackBits⟩, br⟩ := if_pos h

/-- The size of the region, in the layout's own measure (R185, R186). -/
theorem unpack_of_size (hb : s.regs.unpackBits = 12 ∨ s.regs.unpackBits = 14 ∨ s.regs.unpackBits = 16)
    (h : if s.regs.unpackWordAligned then s.regs.inLen.toNat ≠ 2 * (s.regs.w * s.regs.h)
      else 8 * s.regs.inLen.toNat ≠ s.regs.w * s.regs.h * s.regs.unpackBits) :
    unpack s br = .error ⟨⟨.invalidDecodedSize, s.regs.inLen⟩, br⟩ := by
  refine (if_neg (by omega)).trans ?_
  split at h
  · exact (if_pos ‹_›).trans (if_pos (by rwa [Nat.mul_assoc]))
  · exact (if_neg ‹_›).trans (if_pos h)

theorem sony_of_width (h : s.regs.w % 32 ≠ 0) : sony s br = .error ⟨⟨.geometry, 1⟩, br⟩ := if_pos h

theorem sony_of_size (hw : s.regs.w % 32 = 0) (h : s.regs.inLen.toNat ≠ s.regs.w * s.regs.h) :
    sony s br = .error ⟨⟨.invalidDecodedSize, s.regs.inLen⟩, br⟩ :=
  (if_neg (not_not.mpr hw)).trans (if_pos h)

theorem sony_of_curve (hw : s.regs.w % 32 = 0) (hl : s.regs.inLen.toNat = s.regs.w * s.regs.h)
    (h : Config.curveSize < s.regs.curveEntries) :
    sony s br = .error ⟨⟨.illegalCfg, infoNat s.regs.curveEntries⟩, br⟩ :=
  (if_neg (not_not.mpr hw)).trans ((if_neg (not_not.mpr hl)).trans (if_pos h))

theorem nikon_of_slotA (h : s.hu[s.regs.nikonSlotA].built = false) :
    nikon s br = .error ⟨⟨.huffNotBuilt, infoNat s.regs.nikonSlotA.val⟩, br⟩ := by
  simp only [nikon, h, Bool.not_false, if_true]

theorem nikon_of_slotB (ha : s.hu[s.regs.nikonSlotA].built = true) (hs : s.regs.nikonSplitEnabled = true)
    (h : s.hu[s.regs.nikonSlotB].built = false) :
    nikon s br = .error ⟨⟨.huffNotBuilt, infoNat s.regs.nikonSlotB.val⟩, br⟩ := by
  simp only [nikon, ha, hs, h, Bool.not_true, Bool.not_false, Bool.and_self, Bool.false_eq_true, if_true, if_false]

theorem nikon_of_curve (ha : s.hu[s.regs.nikonSlotA].built = true)
    (hb : s.regs.nikonSplitEnabled = true → s.hu[s.regs.nikonSlotB].built = true)
    (h : Config.curveSize < s.regs.curveEntries) :
    nikon s br = .error ⟨⟨.illegalCfg, infoNat s.regs.curveEntries⟩, br⟩ := by
  have hb' : ¬(s.regs.nikonSplitEnabled && !s.hu[s.regs.nikonSlotB].built) = true := by simpa using hb
  simp only [nikon, ha, Bool.not_true, Bool.false_eq_true, if_false, if_neg hb', if_pos h]

end checks

/-- Settles O33: each check is the codec's own, and `DC.RUN` raises what its codec raises. -/
theorem codecsCheckTheirConfiguration : Obligations.CodecsCheckTheirConfiguration := by
  refine ⟨codecFields, fun s hf hfit hin => ?_⟩
  have unpacking (h : s.regs.compression.toNat = 1) : codecOf s.regs.compression.toNat = some unpack := by rw [h]; rfl
  have sonying (h : s.regs.compression.toNat = 32767) : codecOf s.regs.compression.toNat = some sony := by rw [h]; rfl
  have nikoning (h : s.regs.compression.toNat = 34713) : codecOf s.regs.compression.toNat = some nikon := by rw [h]; rfl
  have raises {codec : State → BitReader → Except Raised (Memory 16 × BitReader)} {code : FaultCode} {info : Word}
      (hc : codecOf s.regs.compression.toNat = some codec)
      (he : codec s s.br.unbind = .error ⟨⟨code, info⟩, s.br.unbind⟩) : FaultsWith .dcRun s code info s.br.unbind :=
    dcRun_faultsWith hf (dcRunBody_of_codec_error hc hfit hin he)
  exact ⟨fun hc h12 h14 h16 => raises (unpacking hc) (unpack_of_depth ⟨h12, h14, h16⟩),
    fun hc hb h => raises (unpacking hc) (unpack_of_size hb h),
    fun hc h => raises (sonying hc) (sony_of_width h),
    fun hc hw h => raises (sonying hc) (sony_of_size hw h),
    fun hc hw hl h => raises (sonying hc) (sony_of_curve hw hl h),
    fun hc h => raises (nikoning hc) (nikon_of_slotA h),
    fun hc ha hs h => raises (nikoning hc) (nikon_of_slotB ha hs h),
    fun hc ha hb h => raises (nikoning hc) (nikon_of_curve ha hb h)⟩

/-! ### DM.RUN -/

section demosaic

variable {dmode : DemosaicMode}

theorem dmRunBody_of_enhanced (hm : dmode = .enhancedLinear) : dmRunBody dmode s = raiseAt s .unsupported 3 := if_pos hm

theorem dmRunBody_of_pattern (hm : dmode ≠ .enhancedLinear) (h : 5 < s.regs.cfaCode) :
    dmRunBody dmode s = raiseAt s .illegalCfg (infoNat s.regs.cfaCode) :=
  (if_neg hm).trans (if_pos h)

theorem dmRunBody_of_misfit (hm : dmode ≠ .enhancedLinear) (hc : s.regs.cfaCode ≤ 5) (h : ¬ s.demosaicFits = true) :
    dmRunBody dmode s = raiseAt s .geometry 2 :=
  (if_neg hm).trans ((if_neg (Nat.not_lt.mpr hc)).trans (if_pos (by simpa using h)))

theorem dmRunBody_of_binning (hm : dmode = .superPixel) (h4 : 4 ≤ s.regs.cfaCode) (h5 : s.regs.cfaCode ≤ 5)
    (hfit : s.demosaicFits = true) : dmRunBody dmode s = raiseAt s .unsupported 4 :=
  (if_neg (by simp [hm])).trans ((if_neg (Nat.not_lt.mpr h5)).trans ((if_neg (by simpa using hfit)).trans
    (if_pos ⟨h4, hm⟩)))

/-- A check of `DM.RUN` faults at the unmoved cursor and keeps the geometry registers (R240). -/
theorem dmRun_raises {code : FaultCode} {info : Word} (hf : s.fault = false)
    (h : dmRunBody dmode s = raiseAt s code info) :
    FaultsWith (.dmRun dmode) s code info s.br ∧
    ∀ t, exec (.dmRun dmode) s = .next t → t.regs.rgbWidth = s.regs.rgbWidth ∧ t.regs.rgbHeight = s.regs.rgbHeight := by
  have he := exec_eq_takeFault (i := .dmRun dmode) rfl hf h
  refine ⟨faultsWith_of_exec he, fun t ht => ?_⟩
  rw [he] at ht
  cases ht
  exact ⟨rfl, rfl⟩

end demosaic

/-- Settles O48: one equation of `DM.RUN` per check, each under the checks before it. -/
theorem dmRunFaultsInOrder : Obligations.DmRunFaultsInOrder := by
  intro s dmode hf w h cfa misfit faults
  have hcfa : s.regs.cfaCode = cfa := bits_zero _ 2
  have hfits : s.demosaicFits = true ↔ ¬ misfit := by
    rw [State.demosaicFits_iff]
    show 2 ≤ w ∧ 2 ≤ h ∧ w * h ≤ s.params.maxPixels ↔ ¬ (w < 2 ∨ h < 2 ∨ s.params.maxPixels < w * h)
    simp only [not_or, Nat.not_lt]
  refine ⟨hcfa, hfits, fun hm => ?_, fun hm h6 => ?_, fun hm h5 hmis => ?_, fun hm h4 h5 hfit => ?_⟩
  · exact dmRun_raises hf (dmRunBody_of_enhanced hm)
  · exact hcfa ▸ dmRun_raises hf (dmRunBody_of_pattern hm (hcfa ▸ h6))
  · exact dmRun_raises hf (dmRunBody_of_misfit hm (hcfa ▸ h5) fun h => hfits.mp h hmis)
  · exact dmRun_raises hf (dmRunBody_of_binning hm (hcfa ▸ h4) (hcfa ▸ h5) (hfits.mpr hfit))

end Sys2Proof.Machine
end

section
/-! Host accesses to the memories: one element reached, with the side effects of a write, or the access refused (R60, R66). -/

namespace Sys2Proof.Machine

variable {s : State} {sp : Space}

/-! ### Elements of the memories -/

/-- A host read returns the element, zero-extended: no bit of it is lost, none is added (R66, R70). -/
theorem Memories.hostRead_toNat (m : Memories) (i : Nat) :
    (m.hostRead i .inp).toNat = (m.inp.read i).toNat ∧ (m.hostRead i .mos).toNat = (m.mos.read i).toNat ∧
    (m.hostRead i .rgb).toNat = (m.rgb.read i).toNat ∧ (m.hostRead i .hts).toNat = (m.hts.read i).toNat ∧
    (m.hostRead i .curve).toNat = (m.curve.read i).toNat ∧ (m.hostRead i .glut).toNat = (m.glut.read i).toNat ∧
    (m.hostRead i .xtr).toNat = (m.xtr.read i).toNat ∧ (m.hostRead i .xtc).toNat = (m.xtc.read i).toNat := by
  have byte (v : Byte) : (v.zeroExtend 32).toNat = v.toNat := BitVec.toNat_setWidth_of_le (by decide)
  have sample (v : Sample) : (v.zeroExtend 32).toNat = v.toNat := BitVec.toNat_setWidth_of_le (by decide)
  exact ⟨byte _, sample _, sample _, byte _, sample _, sample _, rfl, byte _⟩

/-- An element written with a value and read back, zero-extended, is the low bits of the value (R66, log 13). -/
theorem Memory.zeroExtend_read_write_truncate {w : Nat} (hw : w ≤ 32) (m : Memory w) (i : Nat) (v : Word) :
    (((m.write i (v.truncate w)).read i).zeroExtend 32).toNat = v.toNat % 2 ^ w := by
  rw [Memory.read_write_same, BitVec.toNat_setWidth_of_le hw, BitVec.toNat_setWidth]

theorem Memories.hostRead_hostWrite_same (m : Memories) (i : Nat) (v : Word) (h : sp ≠ .reg) :
    ((m.hostWrite i v sp).hostRead i sp).toNat = v.toNat % 2 ^ elementBits sp := by
  cases sp with
  | reg => exact absurd rfl h
  | xtr => rw [hostRead, hostWrite, Memory.read_write_same]; exact (Nat.mod_eq_of_lt v.isLt).symm
  | _ => exact Memory.zeroExtend_read_write_truncate (by decide) _ i v

/-- Every other element of every space reads as before: another space is another memory. -/
theorem Memories.hostRead_hostWrite_ne (m : Memories) {i j : Nat} (v : Word) {sp' : Space} (h : sp' ≠ sp ∨ j ≠ i) :
    (m.hostWrite i v sp).hostRead j sp' = m.hostRead j sp' := by
  by_cases hsp : sp' = sp
  · subst hsp
    have hj : j ≠ i := h.resolve_left (not_not.mpr rfl)
    cases sp' <;> simp only [hostRead, hostWrite, Memory.read_write_ne _ _ hj]
  · cases sp <;> cases sp' <;> first | rfl | exact absurd rfl hsp

/-! ### The side effects of a write -/

@[simp] theorem hostWriteEffect_mem (sp : Space) (i : Nat) (s : State) : (hostWriteEffect sp i s).mem = s.mem := by cases sp <;> rfl
@[simp] theorem hostWriteEffect_regs (sp : Space) (i : Nat) (s : State) : (hostWriteEffect sp i s).regs = s.regs := by cases sp <;> rfl
@[simp] theorem hostWriteEffect_fault (sp : Space) (i : Nat) (s : State) : (hostWriteEffect sp i s).fault = s.fault := by cases sp <;> rfl
@[simp] theorem hostWriteEffect_port (sp : Space) (i : Nat) (s : State) : (hostWriteEffect sp i s).port = s.port := by cases sp <;> rfl

theorem hostWriteEffect_br (sp : Space) (i : Nat) (s : State) :
    (hostWriteEffect sp i s).br = if sp = .inp then { s.br with bound := false } else s.br := by cases sp <;> rfl

/-- An element of `HTS` belongs to slot `i div 528` (R63, R66). -/
theorem hostWriteEffect_hu {i : Nat} (hi : i < spaceSize s.params sp) (slot : Slot) :
    (hostWriteEffect sp i s).hu[slot] =
      if sp = .hts ∧ i / 528 = slot.val then { s.hu[slot] with built := false } else s.hu[slot] := by
  cases sp with
  | hts =>
    have hval : (Fin.ofNat Config.nSlot (i / Config.htsStride)).val = i / 528 :=
      Nat.mod_eq_of_lt (show i / 528 < 4 by change i < 2112 at hi; omega)
    by_cases h : i / 528 = slot.val
    · obtain rfl : Fin.ofNat Config.nSlot (i / Config.htsStride) = slot := Fin.ext (hval.trans h)
      rw [if_pos ⟨rfl, h⟩]
      exact Vector.getElem_set_self _
    · rw [if_neg (fun hs => h hs.2)]
      exact getElem_set_slot _ (fun hs => h (hval.symm.trans (congrArg Fin.val hs)))
  | _ => rfl

/-! ### Accesses inside a space -/

/-- Id 0 is the register space (R60). -/
theorem Space.ofId_zero : Space.ofId 0 = some .reg := rfl

theorem Space.ofId_eq_none {id : Nat} (h : 8 < id) : Space.ofId id = none := by
  unfold Space.ofId
  split <;> first | rfl | omega

/-- A host write but to `CMD`. -/
theorem step_of_port_write {id i : Nat} {v : Word} {rest : List HostAction} (hport : s.port = .write id i v :: rest)
    (h : ¬(id = 0 ∧ i = 0)) : step s = .next (hostWriteElement { s with port := rest } id i v) := by
  rw [step_of_port hport, runHostAction, if_neg h]

theorem hostWriteElement_memory {id i : Nat} (hid : Space.ofId id = some sp) (hsp : sp ≠ .reg)
    (hi : i < spaceSize s.params sp) (v : Word) :
    hostWriteElement s id i v = hostWriteEffect sp i { s with mem := s.mem.hostWrite i v sp } := by
  simp only [hostWriteElement, hid, if_neg (Nat.not_le_of_lt hi)]

theorem hostReadValue_memory {id i : Nat} (hid : Space.ofId id = some sp) (hsp : sp ≠ .reg)
    (hi : i < spaceSize s.params sp) : hostReadValue s id i = s.mem.hostRead i sp := by
  simp only [hostReadValue, hid, if_neg (Nat.not_le_of_lt hi)]

/-- Settles O17: the write reaches the memory of its space and then has its side effect; the read finds the element. -/
theorem hostWritesReachOneElement : Obligations.HostWritesReachOneElement := by
  refine ⟨fun _ => rfl, fun id => Space.ofId_eq_none, fun m i => ?element, ?write⟩
  case element =>
    obtain ⟨hinp, hmos, hrgb, hhts, hcurve, hglut, hxtr, hxtc⟩ := m.hostRead_toNat i
    simp only [List.map_cons, List.map_nil, hinp, hmos, hrgb, hhts, hcurve, hglut, hxtr, hxtc]
  case write =>
    intro s id i sp v rest hport hid hsp hi
    have hcmd : ¬(id = 0 ∧ i = 0) := by
      rintro ⟨rfl, -⟩
      exact hsp (Option.some.inj (hid.symm.trans Space.ofId_zero))
    rw [step_of_port_write hport hcmd, hostWriteElement_memory (s := { s with port := rest }) hid hsp hi]
    refine ⟨_, rfl, ?_, fun sp' j h => ?_, by simp, by simp, by simp, hostWriteEffect_br _ _ _, hostWriteEffect_hu hi, ?_⟩
    · rw [hostWriteEffect_mem]; exact Memories.hostRead_hostWrite_same _ i v hsp
    · rw [hostWriteEffect_mem]; exact Memories.hostRead_hostWrite_ne _ v h
    · rw [step_of_port rfl, runHostAction, hostReadValue_memory hid hsp (by simpa using hi)]
      simp

/-! ### Accesses refused -/

/-- Settles O18: element 0 of space 0 is inside its space, so the write is none to `CMD`; the others end at the test of the size. -/
theorem hostAccessesBeyondASpaceAreRefused : Obligations.HostAccessesBeyondASpaceAreRefused := by
  intro s id i v rest hout
  refine ⟨fun hport => ?write, fun hport => ?read⟩
  case write =>
    have hcmd : ¬(id = 0 ∧ i = 0) := by
      rintro ⟨rfl, rfl⟩
      exact absurd (hout _ Space.ofId_zero) (by decide : ¬ Config.regSize ≤ 0)
    rw [step_of_port_write hport hcmd]
    unfold hostWriteElement
    cases hid : Space.ofId id with
    | none => rfl
    | some sp => simp only [if_pos (hout sp hid)]
  case read =>
    rw [step_of_port hport, runHostAction]
    unfold hostReadValue
    cases hid : Space.ofId id with
    | none => rfl
    | some sp => simp only [if_pos (hout sp hid)]

end Sys2Proof.Machine
end

section
/-! Which memories a command writes (R77), read off from what it can end in. -/

namespace Sys2Proof.Machine

variable {s t : State}

/-- Making one space unspecified leaves the others. -/
theorem Memories.hostRead_spoil (m : Memories) (d k : Nat) {sp sp' : Space} (h : sp' ≠ sp) :
    (m.spoil d sp).hostRead k sp' = m.hostRead k sp' := by
  cases sp <;> cases sp' <;> first | rfl | exact absurd rfl h

theorem Memories.hostRead_spoilAll {ws : List Space} {sp : Space} (h : sp ∉ ws) (k : Nat) :
    ∀ (d : Nat) (m : Memories), (m.spoilAll ws d).hostRead k sp = m.hostRead k sp := by
  induction ws with
  | nil => intro d m; rfl
  | cons w ws ih =>
    intro d m
    obtain ⟨hw, hws⟩ := List.ne_and_not_mem_of_not_mem_cons h
    exact (ih hws (d + 1) (m.spoil d w)).trans (m.hostRead_spoil d k hw)

theorem hostRead_setMos (m : Memory 16) {sp : Space} (h : sp ≠ .mos) (k : Nat) :
    (s.setMos m).mem.hostRead k sp = s.mem.hostRead k sp := by
  cases sp <;> first | rfl | exact absurd rfl h

theorem hostRead_setRgb (m : Memory 16) {sp : Space} (h : sp ≠ .rgb) (k : Nat) :
    (s.setRgb m).mem.hostRead k sp = s.mem.hostRead k sp := by
  cases sp <;> first | rfl | exact absurd rfl h

/-- An ending writes the mosaic, the image, or no memory, as R77 lists. -/
theorem EndsIn.hostRead_eq {i : Instr} (h : EndsIn i s t) {sp : Space} (hsp : sp ∉ i.writes) (k : Nat) :
    t.mem.hostRead k sp = s.mem.hostRead k sp := by
  cases i with
  | sysReset => subst h; rfl
  | brInit _ => obtain ⟨br, -, rfl⟩ := h; rfl
  | brRead _ => obtain ⟨br, v, -, rfl⟩ := h; rfl
  | brPeek _ => obtain ⟨v, rfl⟩ := h; rfl
  | brSkip _ => obtain ⟨br, -, rfl⟩ := h; rfl
  | huBuild _ => obtain ⟨x, -, rfl⟩ := h; rfl
  | huSym _ => obtain ⟨br, v, -, rfl⟩ := h; rfl
  | huDec _ => obtain ⟨br, v, -, rfl⟩ := h; rfl
  | dcRun => obtain ⟨m, br, -, rfl⟩ := h; exact hostRead_setMos m (List.ne_of_not_mem_cons hsp) k
  | ppNorm _ => obtain ⟨m, -, rfl⟩ := h; exact hostRead_setMos m (List.ne_of_not_mem_cons hsp) k
  | dmRun _ => obtain ⟨m, _, _, -, rfl⟩ := h; exact hostRead_setRgb m (List.ne_of_not_mem_cons hsp) k
  | cpWb => obtain ⟨m, -, rfl⟩ := h; exact hostRead_setRgb m (List.ne_of_not_mem_cons hsp) k
  | cpCc => obtain ⟨m, -, rfl⟩ := h; exact hostRead_setRgb m (List.ne_of_not_mem_cons hsp) k
  | cpGamma => obtain ⟨m, -, rfl⟩ := h; exact hostRead_setRgb m (List.ne_of_not_mem_cons hsp) k

/-- Settles O56: an ending writes the memories listed, and a fault spoils those and no others. -/
theorem commandsWriteOnlyTheirSpaces : Obligations.CommandsWriteOnlyTheirSpaces := by
  intro i s t h sp hsp k
  rcases exec_cases h with ⟨-, rfl⟩ | hend | ⟨c, br, -, rfl⟩
  · rfl
  · exact hend.hostRead_eq hsp k
  · rw [takeFault_mem, Memories.hostRead_spoilAll hsp, State.setBr_mem, faultBase_mem]

end Sys2Proof.Machine
end

section
/-! What a command reads of `IN`: the bytes of a region alone (R61). With `IN` replaced by one that agrees there, every body
answers the same. -/

namespace Sys2Proof.Machine

/-- The state with another memory for `IN`. -/
def State.withInp (inp : Memory 8) (s : State) : State := { s with mem := { s.mem with inp := inp } }

/-- Two memories hold the same bytes in the region of a cursor. -/
def SameRegion (br : BitReader) (inp inp' : Memory 8) : Prop :=
  ∀ k, k < br.len.toNat → inp.read (br.base.toNat + k) = inp'.read (br.base.toNat + k)

variable {s : State} {inp : Memory 8}

@[simp] theorem State.withInp_regs : (s.withInp inp).regs = s.regs := rfl
@[simp] theorem State.withInp_br : (s.withInp inp).br = s.br := rfl
@[simp] theorem State.withInp_hu : (s.withInp inp).hu = s.hu := rfl
@[simp] theorem State.withInp_inp : (s.withInp inp).mem.inp = inp := rfl
@[simp] theorem State.withInp_rgb : (s.withInp inp).mem.rgb = s.mem.rgb := rfl
@[simp] theorem State.withInp_hts : (s.withInp inp).mem.hts = s.mem.hts := rfl

/-! ### Loops whose turns agree -/

/-- Two loops whose turns agree wherever the first of them comes. -/
theorem loop_congr {σ ε : Type} {P : Nat → σ → Prop} {f g : Nat → σ → Except ε σ} {a : σ} (h0 : P 0 a) :
    ∀ {n : Nat}, (∀ i b, i < n → P i b → g i b = f i b) → (∀ i b c, i < n → P i b → f i b = .ok c → P (i + 1) c) →
      loop n g a = loop n f a := by
  intro n
  induction n with
  | zero => intro _ _; rfl
  | succ n ih =>
    intro agree keep
    have hinit : loop n g a = loop n f a :=
      ih (fun i b hi => agree i b (Nat.lt_succ_of_lt hi)) fun i b c hi => keep i b c (Nat.lt_succ_of_lt hi)
    rw [loop_succ, loop_succ, hinit]
    cases hl : loop n f a with
    | error e => rfl
    | ok b => exact agree n b (Nat.lt_succ_self n) (loop_induct h0 (fun i hi b c => keep i b c (Nat.lt_succ_of_lt hi)) hl)

/-- Two loops whose turns agree everywhere. -/
theorem loop_congr_turns {σ ε : Type} {f g : Nat → σ → Except ε σ} {n : Nat} (h : ∀ i, i < n → ∀ b, g i b = f i b) (a : σ) :
    loop n g a = loop n f a :=
  loop_congr (P := fun _ _ => True) trivial (fun i b hi _ => h i hi b) fun _ _ _ _ _ _ => trivial

theorem repeatTimes_congr {σ : Type} {f g : Nat → σ → σ} {a : σ} :
    ∀ {n : Nat}, (∀ i, i < n → ∀ b, g i b = f i b) → repeatTimes n g a = repeatTimes n f a := by
  intro n
  induction n with
  | zero => intro _; rfl
  | succ n ih =>
    intro h
    rw [repeatTimes_succ, repeatTimes_succ, ih fun i hi => h i (Nat.lt_succ_of_lt hi), h n (Nat.lt_succ_self n)]

/-! ### The bodies of the bit reader and the Huffman unit -/

/-- A test that both states answer alike, before a body that goes on alike. -/
theorem ite_eq_map_ite {f : State → State} {c c' : Prop} {_ : Decidable c} {_ : Decidable c'}
    {x y x' y' : Except Raised State} (hc : c' = c) (hx : x' = x.map f) (hy : y' = y.map f) :
    (if c' then x' else y') = (if c then x else y).map f := by
  rw [apply_ite (Except.map f)]
  exact ite_congr hc (fun _ => hx) fun _ => hy

theorem brInitBody_withInp (mode : ReaderMode) :
    brInitBody mode (s.withInp inp) = (brInitBody mode s).map (State.withInp inp) :=
  ite_eq_map_ite rfl rfl rfl

theorem brReadBody_withInp (h : SameRegion s.br inp s.mem.inp) (n : Nat) :
    brReadBody n (s.withInp inp) = (brReadBody n s).map (State.withInp inp) := by
  refine ite_eq_map_ite rfl ?_ rfl
  rw [State.withInp_inp, State.withInp_br, readBits_congr h]
  cases readBits s.mem.inp s.br n <;> rfl

theorem brPeekBody_withInp (h : SameRegion s.br inp s.mem.inp) (n : Nat) :
    brPeekBody n (s.withInp inp) = (brPeekBody n s).map (State.withInp inp) := by
  refine ite_eq_map_ite rfl ?_ rfl
  rw [State.withInp_inp, State.withInp_br, peek_congr h]
  cases peek s.mem.inp s.br n <;> rfl

theorem brSkipBody_withInp (n : Nat) : brSkipBody n (s.withInp inp) = (brSkipBody n s).map (State.withInp inp) := by
  refine ite_eq_map_ite rfl ?_ rfl
  rw [State.withInp_br]
  cases consume s.br n <;> rfl

theorem huBuildBody_withInp (slot : Slot) : huBuildBody slot (s.withInp inp) = (huBuildBody slot s).map (State.withInp inp) := by
  refine ite_eq_map_ite rfl rfl (ite_eq_map_ite rfl rfl (ite_eq_map_ite rfl rfl ?_))
  rw [State.withInp_hts]
  cases assignCodes (codeCount s.mem.hts slot.val) (codeSymbol s.mem.hts slot.val) <;> rfl

theorem huSymBody_withInp (h : SameRegion s.br inp s.mem.inp) (slot : Slot) :
    huSymBody slot (s.withInp inp) = (huSymBody slot s).map (State.withInp inp) := by
  unfold huSymBody
  rw [State.withInp_inp, State.withInp_br, State.withInp_hu, huffSym_congr h]
  cases huffSym s.mem.inp slot.val s.hu[slot] s.br <;> rfl

theorem huDecBody_withInp (h : SameRegion s.br inp s.mem.inp) (slot : Slot) :
    huDecBody slot (s.withInp inp) = (huDecBody slot s).map (State.withInp inp) := by
  unfold huDecBody
  rw [State.withInp_inp, State.withInp_br, State.withInp_hu, huffDec_congr h]
  cases huffDec s.mem.inp slot.val s.hu[slot] s.br <;> rfl

/-! ### The codecs -/

section codecs

variable {br : BitReader}

theorem unpackPackedSample_br {width k : Nat} {st st' : Memory 16 × BitReader}
    (h : unpackPackedSample inp width k st = .ok st') : ∃ n, st'.2 = st.2.advance n := by
  unfold unpackPackedSample at h
  rcases readBits_cases inp st.2 width with ⟨-, he⟩ | ⟨-, -, he⟩ <;> rw [he] at h <;> cases h
  exact ⟨width, rfl⟩

theorem unpackPackedSample_congr {inp' : Memory 8} {width k : Nat} {st : Memory 16 × BitReader} (h : SameRegion st.2 inp inp') :
    unpackPackedSample inp width k st = unpackPackedSample inp' width k st := by
  simp only [unpackPackedSample, readBits_congr h]

/-- The cursor of the run stays in the region it was bound to (R185). -/
theorem unpackPacked_withInp (h : SameRegion (bindCursor .msb s.regs) inp s.mem.inp) :
    unpackPacked (s.withInp inp) br = unpackPacked s br := by
  refine ite_congr rfl (fun _ => rfl) fun _ => ?_
  refine loop_congr (P := fun _ (st : Memory 16 × BitReader) => SameRegion st.2 inp s.mem.inp) h
    (fun i st _ hst => ?_) fun i st st' _ hst hs => ?_
  · exact unpackPackedSample_congr hst
  · obtain ⟨n, hn⟩ := unpackPackedSample_br hs
    rw [hn]
    exact hst

theorem unpackWord_withInp (h : SameRegion (bindCursor .msb s.regs) inp s.mem.inp) {k : Nat}
    (hk : 2 * k + 1 < s.regs.inLen.toNat) : unpackWord (s.withInp inp) k = unpackWord s k := by
  have h0 : inp.readNat (s.regs.inOff.toNat + 2 * k) = s.mem.inp.readNat (s.regs.inOff.toNat + 2 * k) :=
    congrArg BitVec.toNat (h (2 * k) (Nat.lt_of_succ_lt hk))
  have h1 : inp.readNat (s.regs.inOff.toNat + 2 * k + 1) = s.mem.inp.readNat (s.regs.inOff.toNat + 2 * k + 1) :=
    congrArg BitVec.toNat (h (2 * k + 1) hk)
  simp only [unpackWord, State.withInp_regs, State.withInp_inp, h0, h1]

/-- The words are those of the region, which is as long as they are (R186). -/
theorem unpackWords_withInp (h : SameRegion (bindCursor .msb s.regs) inp s.mem.inp) :
    unpackWords (s.withInp inp) br = unpackWords s br := by
  refine ite_congr rfl (fun _ => rfl) fun hlen => ?_
  rw [not_not, Nat.mul_assoc] at hlen
  refine congrArg (fun m => Except.ok (m, br)) (repeatTimes_congr fun k (hk : k < s.regs.w * s.regs.h) m => ?_)
  rw [unpackWord_withInp h (by omega)]

theorem unpack_withInp (h : SameRegion (bindCursor .msb s.regs) inp s.mem.inp) :
    unpack (s.withInp inp) br = unpack s br := by
  refine ite_congr rfl (fun _ => rfl) fun _ => ?_
  exact ite_congr rfl (fun _ => unpackWords_withInp h) fun _ => unpackPacked_withInp h

/-- A delta is read only where the sample is neither the maximum nor the minimum (R193). -/
theorem sonySample_withInp {r g h max min imax imin scale i : Nat} {st : Memory 16 × Nat}
    (hd : i ≠ imax → i ≠ imin → streamValue inp br st.2 7 = streamValue s.mem.inp br st.2 7) :
    sonySample (s.withInp inp) br r g h max min imax imin scale i st =
      sonySample s br r g h max min imax imin scale i st := by
  have store (y x v : Nat) (m : Memory 16) : sonyStore (s.withInp inp) br y x v m = sonyStore s br y x v m := rfl
  simp only [sonySample, State.withInp_inp, store]
  by_cases h1 : i = imax
  · simp only [h1, beq_self_eq_true, if_true]
  by_cases h2 : i = imin
  · simp only [h2, beq_self_eq_true, if_true]
  · rw [hd h1 h2]

/-- A sample that is neither the maximum nor the minimum has one of fourteen deltas (R193). -/
theorem deltaIndex_le {val : Nat → Nat → Nat} {k i : Nat} (hne : val (128 * k + 22) 4 ≠ val (128 * k + 26) 4) (hi : i < 16)
    (h1 : i ≠ val (128 * k + 22) 4) (h2 : i ≠ val (128 * k + 26) 4) (hmax : val (128 * k + 22) 4 < 16)
    (hmin : val (128 * k + 26) 4 < 16) : deltaIndex val k i ≤ 13 := by
  unfold deltaIndex
  split_ifs <;> omega

/-- A half-group reads its own 128 bits (R191). -/
theorem sonyHalfGroup_withInp (hr : SameRegion br inp s.mem.inp) {groups r g h : Nat}
    (hk : 128 * ((r * groups + g) * 2 + h) + 128 ≤ 8 * br.len.toNat) (m : Memory 16) :
    sonyHalfGroup (s.withInp inp) br groups r g h m = sonyHalfGroup s br groups r g h m := by
  obtain ⟨k, hkdef⟩ : ∃ k, k = (r * groups + g) * 2 + h := ⟨_, rfl⟩
  rw [← hkdef] at hk
  have hval {p n : Nat} (hp : p + n ≤ 128 * k + 128) : streamValue inp br p n = streamValue s.mem.inp br p n :=
    streamValue_congr hr (.inr (Nat.le_trans hp hk))
  unfold sonyHalfGroup
  simp only [State.withInp_inp, ← hkdef, hval (show 128 * k + 11 ≤ _ by omega), hval (show 128 * k + 11 + 11 ≤ _ by omega),
    hval (show 128 * k + 22 + 4 ≤ _ by omega), hval (show 128 * k + 26 + 4 ≤ _ by omega)]
  split
  · rfl
  rename_i hne
  split
  · rfl
  rename_i hle
  have hg : sonyGood (streamValue s.mem.inp br) k := ⟨hne, Nat.not_lt.mp hle⟩
  rw [loop_congr (P := fun i (st : Memory 16 × Nat) => st.2 = 128 * k + 30 + 7 * deltaIndex (streamValue s.mem.inp br) k i)
    (by simp [deltaIndex]) (fun i st hi hq => ?_) (fun i st st' hi hq hs => ?_)]
  · refine sonySample_withInp fun h1 h2 => hval ?_
    have := deltaIndex_le hne hi h1 h2 (streamValue_lt _ br _ 4) (streamValue_lt _ br _ 4)
    omega
  · rw [sonySample_eq hg r g h hi hq] at hs
    split at hs <;> cases hs
    rfl

theorem sony_withInp (h : SameRegion (bindCursor .msb s.regs) inp s.mem.inp) : sony (s.withInp inp) br = sony s br := by
  refine ite_congr rfl (fun _ => rfl) fun hw => ?_
  refine ite_congr rfl (fun _ => rfl) fun hlen => ?_
  refine ite_congr rfl (fun _ => rfl) fun _ => ?_
  refine congrArg (Except.map _) (loop_congr_turns (fun r (hr : r < s.regs.h) m => ?_) _)
  refine loop_congr_turns (fun g (hg : g < s.regs.w / 32) m => ?_) m
  refine loop_congr_turns (fun half hh m => sonyHalfGroup_withInp (br := bindCursor .lsb s.regs) h ?_ m) m
  have hpos := index_lt hr hg
  have hw' : s.regs.w = 32 * (s.regs.w / 32) := by omega
  rw [not_not, hw', Nat.mul_assoc] at hlen
  show 128 * ((r * (s.regs.w / 32) + g) * 2 + half) + 128 ≤ 8 * s.regs.inLen.toNat
  omega

/-- One Nikon sample moves the cursor on (R202). -/
theorem nikonSample_br {row col : Nat} {st st' : NikonRun} (h : nikonSample s row col st = .ok st') :
    ∃ n, st'.br = st.br.advance n := by
  unfold nikonSample at h
  rcases huffDec_cursor s.mem.inp st.cur.val s.hu[st.cur] st.br with ⟨d, br', he, -, ⟨n, hn⟩, -⟩ | ⟨e, he, -⟩ <;> rw [he] at h
  · dsimp only at h
    rcases nikonPredict_cases row col d { st with br := br' } with ⟨st1, hp, -, hb, -⟩ | ⟨c, hp⟩ <;> rw [hp] at h
    · dsimp only [nikonLinearize] at h
      split at h <;> cases h
      exact ⟨n, hb.trans hn⟩
    · cases h
  · cases h

theorem nikonSample_withInp {row col : Nat} {st : NikonRun} (h : SameRegion st.br inp s.mem.inp) :
    nikonSample (s.withInp inp) row col st = nikonSample s row col st := by
  unfold nikonSample
  rw [State.withInp_inp, State.withInp_hu, huffDec_congr h]
  rfl

/-- One row, its cursor in the region all along. -/
theorem nikonRow_withInp {row : Nat} {st : NikonRun} (h : SameRegion st.br inp s.mem.inp) :
    nikonRow (s.withInp inp) row st = nikonRow s row st ∧
    ∀ st', nikonRow s row st = .ok st' → SameRegion st'.br inp s.mem.inp := by
  have h0 : SameRegion (if s.regs.nikonSplitEnabled && row == s.regs.nikonSplit.toNat then { st with cur := s.regs.nikonSlotB }
      else st).br inp s.mem.inp := by split <;> exact h
  have keep (col : Nat) (a b : NikonRun) (_ : col < s.regs.w) (ha : SameRegion a.br inp s.mem.inp)
      (hab : nikonSample s row col a = .ok b) : SameRegion b.br inp s.mem.inp := by
    obtain ⟨n, hn⟩ := nikonSample_br hab
    rw [hn]
    exact ha
  refine ⟨?_, fun st' hr => ?_⟩
  · exact loop_congr (P := fun _ (a : NikonRun) => SameRegion a.br inp s.mem.inp) h0
      (fun _ _ _ ha => nikonSample_withInp ha) keep
  · exact loop_induct (P := fun _ (a : NikonRun) => SameRegion a.br inp s.mem.inp) h0
      (fun col hc a b => keep col a b hc) hr

theorem nikon_withInp (h : SameRegion (bindCursor .msb s.regs) inp s.mem.inp) : nikon (s.withInp inp) br = nikon s br := by
  have hloop : loop s.regs.h (nikonRow (s.withInp inp)) (nikonStart s) = loop s.regs.h (nikonRow s) (nikonStart s) :=
    loop_congr (P := fun _ (a : NikonRun) => SameRegion a.br inp s.mem.inp) h (fun _ _ _ ha => (nikonRow_withInp ha).1)
      fun _ _ _ _ ha => (nikonRow_withInp ha).2 _
  refine ite_congr rfl (fun _ => rfl) fun _ => ?_
  refine ite_congr rfl (fun _ => rfl) fun _ => ?_
  refine ite_congr rfl (fun _ => rfl) fun _ => ?_
  exact congrArg (Except.map _) hloop

/-- Whatever codec the compression code names, it reads the region of `IN_OFF` and `IN_LEN` alone (R182). -/
theorem codec_withInp {codec : State → BitReader → Except Raised (Memory 16 × BitReader)} {code : Nat}
    (hc : codecOf code = some codec) (h : SameRegion (bindCursor .msb s.regs) inp s.mem.inp) :
    codec (s.withInp inp) br = codec s br := by
  unfold codecOf at hc
  split at hc
  · cases hc; exact unpack_withInp h
  split at hc
  · cases hc; exact sony_withInp h
  split at hc
  · cases hc; exact nikon_withInp h
  · cases hc

end codecs

theorem dcRunBody_withInp (h : SameRegion (bindCursor .msb s.regs) inp s.mem.inp) :
    dcRunBody (s.withInp inp) = (dcRunBody s).map (State.withInp inp) := by
  unfold dcRunBody
  rw [State.withInp_regs]
  cases hc : codecOf s.regs.compression.toNat with
  | none => rfl
  | some codec =>
    refine ite_eq_map_ite rfl rfl (ite_eq_map_ite rfl rfl ?_)
    rw [codec_withInp hc h, State.withInp_br]
    cases codec s s.br.unbind <;> rfl

/-! ### The image stages do not read `IN` -/

theorem ppNormBody_withInp (mul : NormMode) : ppNormBody mul (s.withInp inp) = (ppNormBody mul s).map (State.withInp inp) :=
  ite_eq_map_ite rfl rfl (ite_eq_map_ite rfl rfl rfl)

theorem demosaicStep_withInp (dmode : DemosaicMode) : demosaicStep (s.withInp inp) dmode = demosaicStep s dmode := rfl

theorem dmRunBody_withInp (dmode : DemosaicMode) :
    dmRunBody dmode (s.withInp inp) = (dmRunBody dmode s).map (State.withInp inp) := by
  refine ite_eq_map_ite rfl rfl (ite_eq_map_ite rfl rfl (ite_eq_map_ite rfl rfl (ite_eq_map_ite rfl rfl ?_)))
  rw [demosaicStep_withInp, State.withInp_rgb, State.withInp_regs]
  split <;> rfl

theorem pipelineBody_withInp (stage : Pixel → Option Pixel) :
    pipelineBody stage (s.withInp inp) = (pipelineBody stage s).map (State.withInp inp) := by
  refine ite_eq_map_ite rfl rfl ?_
  rw [State.withInp_rgb, State.withInp_regs]
  cases loop s.regs.imagePixels (stagePixel stage) s.mem.rgb <;> rfl

/-! ### Every command -/

theorem faultBase_withInp (i : Instr) : faultBase i (s.withInp inp) = (faultBase i s).withInp inp := by cases i <;> rfl

/-- No command is listed as writing `IN` (R77), so no fault spoils it. -/
theorem takeFault_withInp (i : Instr) (c : Cause) :
    takeFault i.writes c (s.withInp inp) = (takeFault i.writes c s).withInp inp := by cases i <;> rfl

/-- A guarded command whose body answers the same ends in the same state. -/
theorem exec_withInp_of_body {i : Instr} {body : State → Except Raised State} {t : State}
    (hexec : ∀ s, exec i s = .next (if s.fault then s else settle i.writes (faultBase i s) (body s)))
    (hbody : body (s.withInp inp) = (body s).map (State.withInp inp)) (h : exec i s = .next t) :
    exec i (s.withInp inp) = .next (t.withInp inp) := by
  rw [hexec] at h
  cases h
  rw [hexec, hbody, faultBase_withInp, apply_ite (State.withInp inp)]
  refine congrArg _ (ite_congr rfl (fun _ => rfl) fun _ => ?_)
  cases body s with
  | ok t => rfl
  | error e => exact takeFault_withInp (s := (faultBase i s).setBr e.br) i e.cause

/-- Settles O58: each body reads `IN` through its cursor's region or the region of the registers. -/
theorem bytesOutsideTheRegionAreNeverRead : Obligations.BytesOutsideTheRegionAreNeverRead := by
  intro i s t inp hcur hreg h
  have hbound : SameRegion (bindCursor .msb s.regs) inp s.mem.inp := hreg
  show exec i (s.withInp inp) = .next (t.withInp inp)
  cases i with
  | sysReset => cases h; rfl
  | brInit mode => exact exec_withInp_of_body (fun _ => rfl) (brInitBody_withInp mode) h
  | brRead n => exact exec_withInp_of_body (fun _ => rfl) (brReadBody_withInp hcur n) h
  | brPeek n => exact exec_withInp_of_body (fun _ => rfl) (brPeekBody_withInp hcur n) h
  | brSkip n => exact exec_withInp_of_body (fun _ => rfl) (brSkipBody_withInp n) h
  | huBuild slot =>
    exact exec_withInp_of_body (body := fun s => huBuildBody slot (s.unbuildSlot slot)) (fun _ => rfl)
      (huBuildBody_withInp (s := s.unbuildSlot slot) slot) h
  | huSym slot => exact exec_withInp_of_body (fun _ => rfl) (huSymBody_withInp hcur slot) h
  | huDec slot => exact exec_withInp_of_body (fun _ => rfl) (huDecBody_withInp hcur slot) h
  | dcRun => exact exec_withInp_of_body (fun _ => rfl) (dcRunBody_withInp hbound) h
  | ppNorm mul => exact exec_withInp_of_body (fun _ => rfl) (ppNormBody_withInp mul) h
  | dmRun dmode => exact exec_withInp_of_body (fun _ => rfl) (dmRunBody_withInp dmode) h
  | cpWb =>
    exact exec_withInp_of_body (body := fun s => pipelineBody (whiteBalanceFix s.regs) s) (fun _ => rfl)
      (pipelineBody_withInp _) h
  | cpCc =>
    exact exec_withInp_of_body (body := fun s => pipelineBody (colorConvert s.regs) s) (fun _ => rfl)
      (pipelineBody_withInp _) h
  | cpGamma =>
    exact exec_withInp_of_body (body := fun s => pipelineBody (gammaCorrect s.mem.glut) s) (fun _ => rfl)
      (pipelineBody_withInp _) h

end Sys2Proof.Machine
end

section
/-! The pixels of `DM.RUN` (R240): the image when every pixel is made, the fault when one raises. -/

namespace Sys2Proof.Machine

variable {s : State} {dmode : DemosaicMode}

/-! ### A pixel by channel number -/

/-- Channel `c` of a pixel: 0 red, 1 green, 2 blue (R12). -/
def Pixel.channel (p : Pixel) : Nat → Nat
  | 0 => p.r
  | 1 => p.g
  | _ => p.b

theorem storePixel_read_channel (k : Nat) (p : Pixel) (rgb : Memory 16) {c : Nat} (hc : c < 3) :
    (storePixel k p rgb).read (3 * k + c) = BitVec.ofNat 16 (p.channel c) := by
  rw [storePixel_read]
  match c, hc with
  | 0, _ => rw [if_pos (by omega)]; rfl
  | 1, _ => rw [if_neg (by omega), if_pos (by omega)]; rfl
  | 2, _ => rw [if_neg (by omega), if_neg (by omega), if_pos (by omega)]; rfl

/-! ### The image -/

/-- The loop of R240 over the output image. -/
def demosaicImage (s : State) (dmode : DemosaicMode) : Except Cause (Memory 16) :=
  let size := outputSize dmode s.regs.w s.regs.h
  loop size.2 (fun y => loop size.1 (demosaicStep s dmode size.1 y)) s.mem.rgb

/-- No check before the first pixel stops `DM.RUN` (R240, R258, R265). -/
structure DmRunReachesPixels (s : State) (dmode : DemosaicMode) : Prop where
  mode : dmode ≠ .enhancedLinear
  pattern : s.regs.cfaCode ≤ 5
  fits : s.demosaicFits = true
  binning : ¬(4 ≤ s.regs.cfaCode ∧ dmode = .superPixel)

/-- Past its checks `DM.RUN` answers as its loop does, and sets the geometry of the image with it. -/
theorem DmRunReachesPixels.dmRunBody_eq (h : DmRunReachesPixels s dmode) :
    (∀ rgb, demosaicImage s dmode = .ok rgb → dmRunBody dmode s = .ok { s.setRgb rgb with
      regs := { s.regs with
        rgbWidth := BitVec.ofNat 32 (outputSize dmode s.regs.w s.regs.h).1
        rgbHeight := BitVec.ofNat 32 (outputSize dmode s.regs.w s.regs.h).2 } }) ∧
    (∀ code info, demosaicImage s dmode = .error ⟨code, info⟩ → dmRunBody dmode s = raiseAt s code info) := by
  unfold demosaicImage dmRunBody
  dsimp only
  rw [if_neg h.mode, if_neg (Nat.not_lt.mpr h.pattern), if_neg (by simpa using h.fits), if_neg h.binning]
  exact ⟨fun rgb he => by rw [he], fun code info he => by rw [he]; rfl⟩

/-- The image after the pixels before `(y, x)`: those stored, the rest as it was. -/
def StoredBefore (ow : Nat) (rgb0 : Memory 16) (p : Nat → Nat → Pixel) (y x : Nat) (rgb : Memory 16) : Prop :=
  (∀ y' x' c, x' < ow → y' * ow + x' < y * ow + x → c < 3 →
    rgb.read (3 * (y' * ow + x') + c) = BitVec.ofNat 16 ((p y' x').channel c)) ∧
  ∀ k, 3 * (y * ow + x) ≤ k → rgb.read k = rgb0.read k

theorem StoredBefore.storePixel {ow y x : Nat} {rgb0 rgb : Memory 16} {p : Nat → Nat → Pixel} (hx : x < ow)
    (h : StoredBefore ow rgb0 p y x rgb) : StoredBefore ow rgb0 p y (x + 1) (storePixel (y * ow + x) (p y x) rgb) := by
  obtain ⟨stored, rest⟩ := h
  refine ⟨fun y' x' c hx' hlt hc => ?_, fun k hk => ?_⟩
  · by_cases heq : y' * ow + x' = y * ow + x
    · obtain ⟨rfl, rfl⟩ := index_inj hx' hx heq
      exact storePixel_read_channel _ _ _ hc
    · rw [storePixel_read_ne _ _ (by omega)]
      exact stored y' x' c hx' (by omega) hc
  · rw [storePixel_read_ne _ _ (by omega)]
    exact rest k (by omega)

/-- When every pixel is made, the image holds it, channel by channel, and nothing else changes. -/
theorem demosaicImage_ok {ow oh : Nat} (hsize : outputSize dmode s.regs.w s.regs.h = (ow, oh)) {p : Nat → Nat → Pixel}
    (h : ∀ y x, y < oh → x < ow → demosaicPixel s dmode y x = .ok (p y x)) :
    ∃ rgb, demosaicImage s dmode = .ok rgb ∧
      (∀ y x c, y < oh → x < ow → c < 3 → rgb.read (3 * (y * ow + x) + c) = BitVec.ofNat 16 ((p y x).channel c)) ∧
      ∀ k, 3 * (ow * oh) ≤ k → rgb.read k = s.mem.rgb.read k := by
  obtain ⟨rgb, hrgb, stored, rest⟩ := rows_total (P := StoredBefore ow s.mem.rgb p) (f := demosaicStep s dmode ow)
    (start := fun _ rgb => rgb) (s := s.mem.rgb) (w := ow) (h := oh)
    ⟨fun _ _ _ _ hlt => by omega, fun _ _ => rfl⟩
    (fun y rgb _ hp => by rwa [StoredBefore, Nat.add_mul, Nat.one_mul, Nat.add_zero])
    (fun y x rgb hy hx hp => ⟨_, by rw [demosaicStep, h y x hy hx], hp.storePixel hx⟩)
  refine ⟨rgb, ?_, fun y x c hy hx hc => stored y x c hx ?_ hc, fun k hk => rest k ?_⟩
  · rw [demosaicImage, hsize]
    exact hrgb
  · have := index_lt hy hx
    rwa [Nat.add_zero, Nat.mul_comm oh]
  · rwa [Nat.add_zero, Nat.mul_comm oh]

/-- When the pixels before `(y0, x0)` are made and that one raises, the loop raises the same. -/
theorem demosaicImage_error {ow oh y0 x0 : Nat} (hsize : outputSize dmode s.regs.w s.regs.h = (ow, oh)) {c : Cause}
    (hy : y0 < oh) (hx : x0 < ow)
    (before : ∀ y x, x < ow → y * ow + x < y0 * ow + x0 → ∃ p, demosaicPixel s dmode y x = .ok p)
    (raises : demosaicPixel s dmode y0 x0 = .error c) : demosaicImage s dmode = .error c := by
  rw [demosaicImage, hsize]
  show loop oh (fun y => loop ow (demosaicStep s dmode ow y)) s.mem.rgb = .error c
  refine rows_error (P := fun _ _ _ => True) (start := fun _ rgb => rgb) trivial hy hx (fun _ _ _ _ => trivial)
    (fun y x rgb hx' hlt _ => ?_) fun rgb _ => by rw [demosaicStep, raises]
  obtain ⟨p, hp⟩ := before y x hx' <| by
    rcases hlt with hlt | ⟨rfl, hlt⟩
    · have := index_lt hlt hx'
      rw [Nat.mul_comm ow] at this
      omega
    · omega
  exact ⟨_, by rw [demosaicStep, hp], trivial⟩

/-- A run whose every pixel is made (R240). -/
theorem dmRun_ok (hf : s.fault = false) (hr : DmRunReachesPixels s dmode) {ow oh : Nat}
    (hsize : outputSize dmode s.regs.w s.regs.h = (ow, oh)) {p : Nat → Nat → Pixel}
    (h : ∀ y x, y < oh → x < ow → demosaicPixel s dmode y x = .ok (p y x)) :
    ∃ t, exec (.dmRun dmode) s = .next t ∧
      t = { s.setRgb t.mem.rgb with
        regs := { s.regs with rgbWidth := BitVec.ofNat 32 ow, rgbHeight := BitVec.ofNat 32 oh } } ∧
      (∀ y x c, y < oh → x < ow → c < 3 →
        t.mem.rgb.readNat (3 * (y * ow + x) + c) = (BitVec.ofNat 16 ((p y x).channel c)).toNat) ∧
      ∀ k, 3 * (ow * oh) ≤ k → t.mem.rgb.read k = s.mem.rgb.read k := by
  obtain ⟨rgb, hrgb, stored, rest⟩ := demosaicImage_ok hsize h
  have hbody := hr.dmRunBody_eq.1 rgb hrgb
  rw [hsize] at hbody
  have hexec : exec (.dmRun dmode) s = .next (settle [.rgb] s (dmRunBody dmode s)) :=
    whenAccepting_of_ok hf fun s => settle [.rgb] s (dmRunBody dmode s)
  rw [hexec, hbody]
  exact ⟨_, rfl, rfl, fun y x c hy hx hc => congrArg BitVec.toNat (stored y x c hy hx hc), rest⟩

/-- A run that a pixel ends (R240, R334). -/
theorem dmRun_faultsWith (hf : s.fault = false) (hr : DmRunReachesPixels s dmode) {code : FaultCode} {info : Word}
    (h : demosaicImage s dmode = .error ⟨code, info⟩) : FaultsWith (.dmRun dmode) s code info s.br :=
  (dmRun_raises hf (hr.dmRunBody_eq.2 code info h)).1

end Sys2Proof.Machine
end

section
/-! The X-Trans patterns (R260 to R264): the pixel of mode None by the colour map, the rules of mode Linear, and what ends a
run. -/

namespace Sys2Proof.Machine

variable {s : State} {m : Mosaic}

/-- Modes None and Linear reach their pixels on an X-Trans pattern, and the image is as large as the mosaic (R242). -/
theorem dmRunReachesPixels_xtrans {dmode : DemosaicMode} (hm : dmode = .none ∨ dmode = .linear)
    (hcfa : s.regs.cfaCode = 4 ∨ s.regs.cfaCode = 5) (hfit : s.demosaicFits = true) : DmRunReachesPixels s dmode where
  mode := by rcases hm with rfl | rfl <;> nofun
  pattern := by omega
  fits := hfit
  binning := by rcases hm with rfl | rfl <;> exact nofun

/-! ### Mode None -/

/-- The pixel with `v` in channel `c` and 0 in the others (R261). -/
def Pixel.single (c v : Nat) : Pixel := ⟨if c = 0 then v else 0, if c = 1 then v else 0, if c = 2 then v else 0⟩

theorem Pixel.channel_single (c v : Nat) {c' : Nat} (h : c' < 3) : (single c v).channel c' = if c = c' then v else 0 := by
  match c', h with
  | 0, _ => rfl
  | 1, _ => rfl
  | 2, _ => rfl

/-- A colour of the map up to 2 names a channel, a greater one is illegal (R261). -/
theorem xtransNone_eq (m : Mosaic) (xtc : Memory 8) (cfa y x : Nat) :
    xtransNone m xtc cfa y x =
      if xtc.readNat (xtransColourIndex (cfa - 4) y x) ≤ 2 then
        .ok (.single (xtc.readNat (xtransColourIndex (cfa - 4) y x)) (m.at (y, x)))
      else .error ⟨.illegalCfg, infoNat (xtc.readNat (xtransColourIndex (cfa - 4) y x))⟩ := by
  unfold xtransNone
  generalize xtc.readNat (xtransColourIndex (cfa - 4) y x) = c
  match c with
  | 0 => rfl
  | 1 => rfl
  | 2 => rfl
  | c + 3 => exact (if_neg (by omega)).symm

theorem demosaicPixel_xtransNone (hcfa : s.regs.cfaCode = 4 ∨ s.regs.cfaCode = 5) (y x : Nat) :
    demosaicPixel s .none y x = xtransNone s.mosaic s.mem.xtc s.regs.cfaCode y x :=
  if_neg (by omega)

/-- A sample fits a channel of the image. -/
theorem toNat_ofNat_readNat (m : Memory 16) (i : Nat) : (BitVec.ofNat 16 (m.readNat i)).toNat = m.readNat i := by
  rw [Memory.readNat, BitVec.ofNat_toNat, BitVec.setWidth_eq]

/-- Settles O46: every pixel is made, with its one channel set. -/
theorem xTransNoneFollowsTheColourMap : Obligations.XTransNoneFollowsTheColourMap := by
  intro s hf hcfa hfit w h colour hcolour
  have hpixel : ∀ y x, y < h → x < w →
      demosaicPixel s .none y x = .ok (.single (colour y x) (s.mosaic.at (y, x))) := fun y x hy hx => by
    rw [demosaicPixel_xtransNone hcfa, xtransNone_eq]
    exact if_pos (hcolour y x hy hx)
  obtain ⟨t, hexec, ht, stored, rest⟩ := dmRun_ok hf (dmRunReachesPixels_xtrans (.inl rfl) hcfa hfit) rfl hpixel
  refine ⟨t, hexec, ?_, fun y x c hy hx hc => ?_, rest⟩
  · simpa only [Regs.w, Regs.h, BitVec.ofNat_toNat, BitVec.setWidth_eq] using ht
  · refine (stored y x c hy hx hc).trans ?_
    rw [Pixel.channel_single _ _ hc]
    split
    · exact toNat_ofNat_readNat _ _
    · rfl

/-! ### Mode Linear: one rule -/

section rule

variable {e y x : Nat} {w : Word}

/-- Code `j` of a channel rule (R101). -/
def neighbourCode (w : Word) (j : Nat) : Nat := w.toNat / 2 ^ (3 + 4 * j) % 16

/-- Neighbour code `d` names a position inside the image (R102). -/
def CodeInside (m : Mosaic) (y x d : Nat) : Prop := 1 ≤ y + d / 3 ∧ y + d / 3 ≤ m.h ∧ 1 ≤ x + d % 3 ∧ x + d % 3 ≤ m.w

/-- Neighbour `j` of the rule is a code, and lies inside the image. -/
def NeighbourLegal (m : Mosaic) (y x : Nat) (w : Word) (j : Nat) : Prop :=
  neighbourCode w j ≤ 8 ∧ CodeInside m y x (neighbourCode w j)

/-- The rule lists at most four neighbours, and every one of them is legal (R263). -/
def RuleLegal (m : Mosaic) (y x : Nat) (w : Word) : Prop :=
  w.toNat % 8 ≤ 4 ∧ ∀ j, j < w.toNat % 8 → NeighbourLegal m y x w j

theorem xtransNeighbour_ok {j : Nat} (h : NeighbourLegal m y x w j) (sum : Nat) :
    ∃ sum', xtransNeighbour m e y x w j sum = .ok sum' := by
  obtain ⟨hcode, hinside⟩ := h
  obtain ⟨p, hp⟩ := Option.isSome_iff_exists.mp ((m.neighbour_isSome_iff y x _).mpr hinside)
  rw [neighbourCode] at hcode hp
  rw [xtransNeighbour_eq, if_neg (Nat.not_lt.mpr hcode), hp]
  exact ⟨_, rfl⟩

theorem xtransNeighbour_of_code {j : Nat} (h : 8 < neighbourCode w j) (sum : Nat) :
    xtransNeighbour m e y x w j sum = .error ⟨.illegalCfg, w⟩ := by
  rw [xtransNeighbour_eq]
  exact if_pos h

theorem xtransNeighbour_of_outside {j : Nat} (hcode : neighbourCode w j ≤ 8) (h : ¬ CodeInside m y x (neighbourCode w j))
    (sum : Nat) : xtransNeighbour m e y x w j sum = .error ⟨.bounds, infoNat e⟩ := by
  have hnone : m.neighbour y x (neighbourCode w j) = none :=
    Option.not_isSome_iff_eq_none.mp (mt (m.neighbour_isSome_iff y x _).mp h)
  rw [neighbourCode] at hcode hnone
  rw [xtransNeighbour_eq, if_neg (Nat.not_lt.mpr hcode), hnone]

/-- The neighbours before the first bad one are added up. -/
theorem xtransNeighbours_ok {n : Nat} (h : ∀ j, j < n → NeighbourLegal m y x w j) :
    ∃ sum, loop n (xtransNeighbour m e y x w) 0 = .ok sum := by
  obtain ⟨sum, hsum, -⟩ := loop_total (P := fun _ _ => True) (f := xtransNeighbour m e y x w) (s := 0) trivial
    (n := n) fun j hj a _ => (xtransNeighbour_ok (h j hj) a).imp fun _ hb => ⟨hb, trivial⟩
  exact ⟨sum, hsum⟩

/-- How many neighbours a rule lists (R101). -/
theorem ruleCount_eq (w : Word) : bits w 2 0 = w.toNat % 8 := bits_zero w 2

theorem xtransChannel_ok (h : RuleLegal m y x w) : ∃ v, xtransChannel m e y x w = .ok v := by
  obtain ⟨hcount, hlegal⟩ := h
  obtain ⟨sum, hsum⟩ := xtransNeighbours_ok (e := e) hlegal
  unfold xtransChannel
  simp only [ruleCount_eq]
  rw [if_neg (Nat.not_lt.mpr hcount), hsum]
  exact ⟨_, rfl⟩

theorem xtransChannel_of_count (h : 4 < w.toNat % 8) : xtransChannel m e y x w = .error ⟨.illegalCfg, w⟩ := by
  unfold xtransChannel
  simp only [ruleCount_eq]
  exact if_pos h

/-- The first bad neighbour ends the rule. -/
theorem xtransChannel_of_neighbour {j : Nat} {c : Cause} (hcount : w.toNat % 8 ≤ 4) (hj : j < w.toNat % 8)
    (before : ∀ j', j' < j → NeighbourLegal m y x w j') (raises : ∀ sum, xtransNeighbour m e y x w j sum = .error c) :
    xtransChannel m e y x w = .error c := by
  obtain ⟨sum, hsum⟩ := xtransNeighbours_ok (e := e) before
  unfold xtransChannel
  simp only [ruleCount_eq]
  rw [if_neg (Nat.not_lt.mpr hcount), loop_error hsum hj (raises sum)]

end rule

/-! ### Mode Linear: one pixel -/

section pixel

variable {xtr : Memory 32} {cfa e y x : Nat}

/-- The entry of a position, its border class by the last row and column (R65, R262). -/
theorem xtransEntry_eq (m : Mosaic) (v y x : Nat) (hh : 0 < m.h) (hw : 0 < m.w) :
    xtransEntry m v y x = 4 * (((v * 6 + y % 6) * 6 + x % 6) * 9 +
      (3 * (if y = 0 then 1 else if y + 1 = m.h then 2 else 0) + (if x = 0 then 1 else if x + 1 = m.w then 2 else 0))) := by
  rw [xtransEntry, borderClass]
  simp only [show y = m.h - 1 ↔ y + 1 = m.h by omega, show x = m.w - 1 ↔ x + 1 = m.w by omega]

variable (he : xtransEntry m (cfa - 4) y x = e)

include he

/-- An entry that is not valid gives a pixel; so does a valid one with three legal rules (R263, R264). -/
theorem xtransLinear_ok (h : (xtr.readNat e % 2 == 1) = true → ∀ c, c < 3 → RuleLegal m y x (xtr.read (e + 1 + c))) :
    ∃ p, xtransLinear m xtr cfa y x = .ok p := by
  unfold xtransLinear
  simp only [he, bits_zero _ 0]
  split
  · exact ⟨_, rfl⟩
  rename_i hvalid
  have hlegal := h (beq_iff_eq.mpr (Nat.mod_two_ne_zero.mp hvalid))
  obtain ⟨r, hr⟩ := xtransChannel_ok (e := e) (hlegal 0 (by decide))
  obtain ⟨g, hg⟩ := xtransChannel_ok (e := e) (hlegal 1 (by decide))
  obtain ⟨b, hb⟩ := xtransChannel_ok (e := e) (hlegal 2 (by decide))
  rw [hr, hg, hb]
  exact ⟨_, rfl⟩

/-- The first bad rule of a valid entry ends the pixel (R263). -/
theorem xtransLinear_error {c : Nat} {cause : Cause} (hc : c < 3) (hvalid : (xtr.readNat e % 2 == 1) = true)
    (before : ∀ c', c' < c → RuleLegal m y x (xtr.read (e + 1 + c')))
    (raises : xtransChannel m e y x (xtr.read (e + 1 + c)) = .error cause) :
    xtransLinear m xtr cfa y x = .error cause := by
  have hne : ¬(xtr.read e).toNat % 2 ^ (0 + 1) = 0 := Nat.mod_two_ne_zero.mpr (beq_iff_eq.mp hvalid)
  unfold xtransLinear
  simp only [he, bits_zero _ 0]
  rw [if_neg hne]
  match c, hc with
  | 0, _ => rw [raises]
  | 1, _ =>
    obtain ⟨r, hr⟩ := xtransChannel_ok (e := e) (before 0 (by decide))
    rw [hr, raises]
  | 2, _ =>
    obtain ⟨r, hr⟩ := xtransChannel_ok (e := e) (before 0 (by decide))
    obtain ⟨g, hg⟩ := xtransChannel_ok (e := e) (before 1 (by decide))
    rw [hr, hg, raises]

end pixel

theorem demosaicPixel_xtransLinear (hcfa : s.regs.cfaCode = 4 ∨ s.regs.cfaCode = 5) (y x : Nat) :
    demosaicPixel s .linear y x = xtransLinear s.mosaic s.mem.xtr s.regs.cfaCode y x :=
  if_neg (by omega)

/-- Settles O60: the pixels before the first bad one are made, and that one raises what its first bad rule does. -/
theorem xTransFaultsAtTheFirstBadPixel : Obligations.XTransFaultsAtTheFirstBadPixel := by
  intro s y0 x0 hf hcfa hfit w h colour border e valid word k d inside legal hy hx
  refine ⟨fun before hbad => ?none, fun c hc before hvalid hlegal => ?linear⟩
  case none =>
    refine dmRun_faultsWith hf (dmRunReachesPixels_xtrans (.inl rfl) hcfa hfit)
      (demosaicImage_error (ow := w) (oh := h) rfl hy hx
        (fun y x hx' hlt => ⟨.single (colour y x) (s.mosaic.at (y, x)), ?_⟩) ?_)
    · rw [demosaicPixel_xtransNone hcfa, xtransNone_eq]
      exact if_pos (before y x hx' hlt)
    · rw [demosaicPixel_xtransNone hcfa, xtransNone_eq]
      exact if_neg (Nat.not_le.mpr hbad)
  case linear =>
    obtain ⟨hw2, hh2, -⟩ := s.demosaicFits_iff.mp hfit
    have he (y x : Nat) : xtransEntry s.mosaic (s.regs.cfaCode - 4) y x = e y x :=
      xtransEntry_eq s.mosaic _ y x (Nat.lt_of_lt_of_le Nat.zero_lt_two hh2) (Nat.lt_of_lt_of_le Nat.zero_lt_two hw2)
    have ends {code : FaultCode} {info : Word}
        (raises : xtransChannel s.mosaic (e y0 x0) y0 x0 (word y0 x0 c) = .error ⟨code, info⟩) :
        FaultsWith (.dmRun .linear) s code info s.br := by
      refine dmRun_faultsWith hf (dmRunReachesPixels_xtrans (.inr rfl) hcfa hfit)
        (demosaicImage_error (ow := w) (oh := h) rfl hy hx (fun y x hx' hlt => ?_) ?_)
      · rw [demosaicPixel_xtransLinear hcfa]
        exact xtransLinear_ok (he y x) fun hv c' hc' => before y x c' hx' hlt hc' hv
      · rw [demosaicPixel_xtransLinear hcfa]
        exact xtransLinear_error (he y0 x0) hc hvalid hlegal raises
    refine ⟨fun hcount => ends (xtransChannel_of_count hcount),
      fun j hcount hj hbefore => ⟨fun hcode => ?_, fun hcode hout => ?_⟩⟩
    · exact ends (xtransChannel_of_neighbour hcount hj hbefore (xtransNeighbour_of_code hcode))
    · exact ends (xtransChannel_of_neighbour hcount hj hbefore (xtransNeighbour_of_outside hcode hout))

end Sys2Proof.Machine
end

section
/-! The command table (R90 to R94): a row selects the words that are its match with an operand laid in at bit 8, and decoding is
the inverse of encoding on the well-formed commands. -/

namespace Sys2Proof

variable {c : Word} {i : Instr} {r : Row}

/-! ### The rows -/

/-- Bits of the operand field of a row, which starts at bit 8 (R92, R93). -/
def Row.operandWidth : Row → Nat
  | .sysReset => 0
  | .brInit => 2
  | .brRead => 6
  | .brPeek => 6
  | .brSkip => 6
  | .huBuild => 2
  | .huSym => 2
  | .huDec => 2
  | .dcRun => 0
  | .ppNorm => 1
  | .dmRun => 2
  | .cpWb => 0
  | .cpCc => 0
  | .cpGamma => 0

/-- The operand field of a word, as the row reads it. -/
def Row.operand (r : Row) (c : Word) : Nat := c.toNat / 2 ^ 8 % 2 ^ r.operandWidth

/-- A row compares every bit outside its operand field (R92). -/
theorem Row.not_mask (r : Row) : ~~~r.mask = BitVec.ofNat 32 ((2 ^ r.operandWidth - 1) <<< 8) := by cases r <;> rfl

theorem and_ones_shiftLeft (x w k : Nat) : x &&& (2 ^ w - 1) <<< k = 2 ^ k * (x / 2 ^ k % 2 ^ w) := by
  rw [Nat.mul_comm, ← Nat.shiftLeft_eq]
  apply Nat.eq_of_testBit_eq
  intro j
  by_cases hj : k ≤ j
  · simp [hj, Nat.testBit_mod_two_pow, Nat.testBit_div_two_pow, Bool.and_comm]
  · simp [hj]

theorem Row.operandWidth_le (r : Row) : r.operandWidth ≤ 6 := by cases r <;> decide

/-- The bits a row does not compare are its operand, in place. -/
theorem Row.toNat_and_not_mask (r : Row) (c : Word) : (c &&& ~~~r.mask).toNat = 2 ^ 8 * r.operand c := by
  have hw : (2 ^ r.operandWidth - 1) <<< 8 < 2 ^ 32 := by cases r <;> decide
  rw [r.not_mask, BitVec.toNat_and, BitVec.toNat_ofNat, Nat.mod_eq_of_lt hw, and_ones_shiftLeft, Row.operand]

/-- A word is the bits under a mask and the others. -/
theorem toNat_eq_and_add_and_not (c mask : Word) : c.toNat = (c &&& mask).toNat + (c &&& ~~~mask).toNat := by
  have hdisjoint : c &&& mask &&& (c &&& ~~~mask) = 0#32 := by
    rw [BitVec.and_assoc, BitVec.and_comm c (~~~mask), ← BitVec.and_assoc mask, BitVec.and_not_self]
    exact (congrArg (c &&& ·) BitVec.zero_and).trans BitVec.and_zero
  have hsum : (c &&& mask) + (c &&& ~~~mask) = c := by
    rw [BitVec.add_eq_or_of_and_eq_zero _ _ hdisjoint, ← BitVec.and_or_distrib_left, BitVec.or_not_self, BitVec.and_allOnes]
  rw [← BitVec.toNat_add_of_and_eq_zero hdisjoint, hsum]

/-- A row selects the words that are its match with an operand laid in at bit 8 (R90, R92). -/
theorem Row.selects_iff_toNat : r.selects c = true ↔ c.toNat = r.value.toNat + 2 ^ 8 * r.operand c := by
  have hsum := toNat_eq_and_add_and_not c r.mask
  rw [r.toNat_and_not_mask] at hsum
  rw [Row.selects, beq_iff_eq, ← BitVec.toNat_inj]
  omega

/-- Settles O3: every row compares the whole of `OP`, and no two rows have the same. -/
theorem atMostOneRowSelectsAWord : Obligations.AtMostOneRowSelectsAWord := fun _ _ _ h h' =>
  Row.value_inj ((Row.selects_opcode h).symm.trans (Row.selects_opcode h'))

/-! ### The operand fields -/

theorem decodeReaderMode_eq_ok_iff {m : ReaderMode} : decodeReaderMode c = .ok m ↔ wordField c 9 8 = encodeReaderMode m := by
  have h : wordField c 9 8 < 4 := Nat.mod_lt _ (by decide)
  unfold decodeReaderMode
  generalize wordField c 9 8 = f at *
  interval_cases f <;> cases m <;> decide

theorem legalCount_iff {n : Nat} : legalCount n = true ↔ 1 ≤ n ∧ n ≤ 32 := decide_eq_true_iff

theorem decodeCount_eq_ok_iff {n : Nat} : decodeCount c = .ok n ↔ legalCount n = true ∧ wordField c 13 8 = n := by
  unfold decodeCount
  constructor
  · intro h
    split at h <;> cases h
    exact ⟨‹_›, rfl⟩
  · rintro ⟨h, rfl⟩
    exact if_pos h

theorem decodeSlot_eq_iff {slot : Slot} : decodeSlot c = slot ↔ wordField c 9 8 = slot.val := by
  rw [Fin.ext_iff]
  show wordField c 9 8 % 4 = slot.val ↔ _
  rw [show wordField c 9 8 % 4 = wordField c 9 8 from Nat.mod_mod _ _]

theorem decodeNormMode_eq_iff {m : NormMode} : decodeNormMode c = m ↔ wordField c 8 8 = encodeNormMode m := by
  have h : wordField c 8 8 < 2 := Nat.mod_lt _ (by decide)
  unfold decodeNormMode
  split
  · cases m <;> simp_all [encodeNormMode]
  · cases m <;> simp_all [encodeNormMode]; omega

theorem decodeDemosaicMode_eq_iff {d : DemosaicMode} :
    decodeDemosaicMode c = d ↔ wordField c 9 8 = encodeDemosaicMode d := by
  have h : wordField c 9 8 < 4 := Nat.mod_lt _ (by decide)
  unfold decodeDemosaicMode
  generalize wordField c 9 8 = f at *
  interval_cases f <;> cases d <;> decide

/-! ### Decoding and encoding -/

theorem map_eq_ok_iff {α : Type} {f : α → Instr} {x : Except DecodeError α} :
    x.map f = .ok i ↔ ∃ a, x = .ok a ∧ f a = i := by
  cases x <;> simp [Except.map]

/-- A command a row's operand decodes to is one of the row, well formed, with that operand. -/
theorem decodeOperands_ok (h : decodeOperands r c = .ok i) : i.row = r ∧ i.wf = true ∧ r.operand c = i.operandField := by
  have hnone : c.toNat / 2 ^ 8 % 2 ^ 0 = 0 := Nat.mod_one _
  cases r with
  | sysReset => cases h; exact ⟨rfl, rfl, hnone⟩
  | brInit => obtain ⟨m, hm, rfl⟩ := map_eq_ok_iff.mp h; exact ⟨rfl, rfl, decodeReaderMode_eq_ok_iff.mp hm⟩
  | brRead => obtain ⟨n, hn, rfl⟩ := map_eq_ok_iff.mp h; exact ⟨rfl, decodeCount_eq_ok_iff.mp hn⟩
  | brPeek => obtain ⟨n, hn, rfl⟩ := map_eq_ok_iff.mp h; exact ⟨rfl, decodeCount_eq_ok_iff.mp hn⟩
  | brSkip => obtain ⟨n, hn, rfl⟩ := map_eq_ok_iff.mp h; exact ⟨rfl, decodeCount_eq_ok_iff.mp hn⟩
  | huBuild => cases h; exact ⟨rfl, rfl, decodeSlot_eq_iff.mp rfl⟩
  | huSym => cases h; exact ⟨rfl, rfl, decodeSlot_eq_iff.mp rfl⟩
  | huDec => cases h; exact ⟨rfl, rfl, decodeSlot_eq_iff.mp rfl⟩
  | dcRun => cases h; exact ⟨rfl, rfl, hnone⟩
  | ppNorm => cases h; exact ⟨rfl, rfl, decodeNormMode_eq_iff.mp rfl⟩
  | dmRun => cases h; exact ⟨rfl, rfl, decodeDemosaicMode_eq_iff.mp rfl⟩
  | cpWb => cases h; exact ⟨rfl, rfl, hnone⟩
  | cpCc => cases h; exact ⟨rfl, rfl, hnone⟩
  | cpGamma => cases h; exact ⟨rfl, rfl, hnone⟩

/-- A well-formed command is what its row's operand decodes to. -/
theorem decodeOperands_of_operand (hwf : i.wf = true) (h : i.row.operand c = i.operandField) :
    decodeOperands i.row c = .ok i := by
  cases i with
  | brInit m => exact map_eq_ok_iff.mpr ⟨m, decodeReaderMode_eq_ok_iff.mpr h, rfl⟩
  | brRead n => exact map_eq_ok_iff.mpr ⟨n, decodeCount_eq_ok_iff.mpr ⟨hwf, h⟩, rfl⟩
  | brPeek n => exact map_eq_ok_iff.mpr ⟨n, decodeCount_eq_ok_iff.mpr ⟨hwf, h⟩, rfl⟩
  | brSkip n => exact map_eq_ok_iff.mpr ⟨n, decodeCount_eq_ok_iff.mpr ⟨hwf, h⟩, rfl⟩
  | huBuild slot => exact congrArg (fun slot => Except.ok (Instr.huBuild slot)) (decodeSlot_eq_iff.mpr h)
  | huSym slot => exact congrArg (fun slot => Except.ok (Instr.huSym slot)) (decodeSlot_eq_iff.mpr h)
  | huDec slot => exact congrArg (fun slot => Except.ok (Instr.huDec slot)) (decodeSlot_eq_iff.mpr h)
  | ppNorm mul => exact congrArg (fun mul => Except.ok (Instr.ppNorm mul)) (decodeNormMode_eq_iff.mpr h)
  | dmRun dmode => exact congrArg (fun dmode => Except.ok (Instr.dmRun dmode)) (decodeDemosaicMode_eq_iff.mpr h)
  | _ => rfl

theorem Row.selects_of_find? (h : Row.all.find? (·.selects c) = some r) : r.selects c = true :=
  List.find?_some (p := fun r : Row => r.selects c) h

/-- The row found is the one that selects the word (R90). -/
theorem decode_of_selects (h : r.selects c = true) : decode c = decodeOperands r c := by
  have hfind : Row.all.find? (·.selects c) = some r := by
    cases hf : Row.all.find? (·.selects c) with
    | none => exact absurd h (List.find?_eq_none.mp hf r r.mem_all)
    | some r' => rw [atMostOneRowSelectsAWord c r' r (Row.selects_of_find? hf) h]
  rw [decode, hfind]

theorem decode_ok_selects (h : decode c = .ok i) : ∃ r : Row, r.selects c = true ∧ decodeOperands r c = .ok i := by
  unfold decode at h
  split at h
  · exact ⟨_, Row.selects_of_find? ‹_›, h⟩
  · cases h

/-- The law of rows and encodings, for every command. -/
theorem encode_rowMatch (i : Instr) : Laws.RowMatch.Statement i := by
  cases i with
  | sysReset => exact Laws.RowMatch.sysReset
  | brInit mode => exact Laws.RowMatch.brInit mode
  | brRead n => exact Laws.RowMatch.brRead n
  | brPeek n => exact Laws.RowMatch.brPeek n
  | brSkip n => exact Laws.RowMatch.brSkip n
  | huBuild slot => exact Laws.RowMatch.huBuild slot
  | huSym slot => exact Laws.RowMatch.huSym slot
  | huDec slot => exact Laws.RowMatch.huDec slot
  | dcRun => exact Laws.RowMatch.dcRun
  | ppNorm mul => exact Laws.RowMatch.ppNorm mul
  | dmRun dmode => exact Laws.RowMatch.dmRun dmode
  | cpWb => exact Laws.RowMatch.cpWb
  | cpCc => exact Laws.RowMatch.cpCc
  | cpGamma => exact Laws.RowMatch.cpGamma

theorem operandField_lt (hwf : i.wf = true) : i.operandField < 2 ^ i.row.operandWidth := by
  cases i with
  | brRead n => exact Nat.lt_of_le_of_lt (legalCount_iff.mp hwf).2 (show 32 < 2 ^ 6 by decide)
  | brPeek n => exact Nat.lt_of_le_of_lt (legalCount_iff.mp hwf).2 (show 32 < 2 ^ 6 by decide)
  | brSkip n => exact Nat.lt_of_le_of_lt (legalCount_iff.mp hwf).2 (show 32 < 2 ^ 6 by decide)
  | brInit m => cases m <;> decide
  | huBuild slot => exact slot.isLt
  | huSym slot => exact slot.isLt
  | huDec slot => exact slot.isLt
  | ppNorm m => cases m <;> decide
  | dmRun d => cases d <;> decide
  | _ => decide

/-- An encoding holds its command's operand where the row wants it (R92, R93). -/
theorem operand_encode (hwf : i.wf = true) : i.row.operand (encode i) = i.operandField := by
  have hmod : i.row.operand (encode i) = wordField (encode i) 13 8 % 2 ^ i.row.operandWidth :=
    (Nat.mod_mod_of_dvd _ (Nat.pow_dvd_pow 2 i.row.operandWidth_le)).symm
  rw [hmod, (encode_rowMatch i hwf).2, Nat.mod_eq_of_lt (operandField_lt hwf)]

theorem encode_toNat (hwf : i.wf = true) : (encode i).toNat = i.row.value.toNat + 2 ^ 8 * i.operandField := by
  rw [← operand_encode hwf]
  exact Row.selects_iff_toNat.mp (encode_rowMatch i hwf).1

/-- A word decodes to a command exactly when the command is well formed and the word its encoding (R90 to R93). -/
theorem decode_eq_ok_iff : decode c = .ok i ↔ i.wf = true ∧ encode i = c := by
  constructor
  · intro h
    obtain ⟨r, hsel, hops⟩ := decode_ok_selects h
    obtain ⟨rfl, hwf, hoperand⟩ := decodeOperands_ok hops
    rw [Row.selects_iff_toNat, hoperand] at hsel
    exact ⟨hwf, BitVec.eq_of_toNat_eq ((encode_toNat hwf).trans hsel.symm)⟩
  · rintro ⟨hwf, rfl⟩
    exact (decode_of_selects (encode_rowMatch i hwf).1).trans (decodeOperands_of_operand hwf (operand_encode hwf))

/-- Settles O1, by the law that relates decoding and encoding. -/
theorem decodeInvertsEncode : Obligations.DecodeInvertsEncode := fun _ hwf => decode_eq_ok_iff.mpr ⟨hwf, rfl⟩

/-- Settles O2, by the same law. -/
theorem encodeInvertsDecode : Obligations.EncodeInvertsDecode := fun _ _ h => decode_eq_ok_iff.mp h

/-- Settles O5: each command is well formed and its encoding is the word. -/
theorem sampleWordsDecode : Obligations.SampleWordsDecode := by
  refine ⟨?_, ?_, ?_, ?_, ?_, ?_, ?_, ?_, ?_, ?_⟩ <;> exact decode_eq_ok_iff.mpr ⟨rfl, rfl⟩

/-! ### The legal words -/

theorem Row.value_lt (r : Row) : r.value.toNat < 2 ^ 8 := by cases r <;> decide

/-- The operand of a well-formed command is legal for its opcode (R92, R93). -/
theorem legalOperand_of_wf (hwf : i.wf = true) : Machine.legalOperand i.row.value.toNat i.operandField := by
  unfold Machine.legalOperand
  cases i with
  | brRead n => have := legalCount_iff.mp hwf; simp [Instr.row, Row.value, Instr.operandField, this]
  | brPeek n => have := legalCount_iff.mp hwf; simp [Instr.row, Row.value, Instr.operandField, this]
  | brSkip n => have := legalCount_iff.mp hwf; simp [Instr.row, Row.value, Instr.operandField, this]
  | brInit m => cases m <;> decide
  | huBuild slot => revert slot; decide
  | huSym slot => revert slot; decide
  | huDec slot => revert slot; decide
  | ppNorm m => cases m <;> decide
  | dmRun d => cases d <;> decide
  | _ => decide

/-- Every legal operand is that of a well-formed command. -/
theorem exists_of_legalOperand {op a : Nat} (h : Machine.legalOperand op a) :
    ∃ i : Instr, i.wf = true ∧ i.row.value.toNat = op ∧ i.operandField = a := by
  rcases h with ⟨rfl, rfl⟩ | ⟨rfl, ha⟩ | ⟨hop, hcount⟩ | ⟨hop, ha⟩ | ⟨rfl, rfl⟩ | ⟨rfl, ha⟩ | ⟨rfl, ha⟩ | ⟨hop, rfl⟩
  · exact ⟨.sysReset, rfl, rfl, rfl⟩
  · match a, ha with
    | 0, _ => exact ⟨.brInit .msb, rfl, rfl, rfl⟩
    | 1, _ => exact ⟨.brInit .lsb, rfl, rfl, rfl⟩
    | 2, _ => exact ⟨.brInit .jpeg, rfl, rfl, rfl⟩
  · rcases hop with rfl | rfl | rfl
    · exact ⟨.brRead a, legalCount_iff.mpr hcount, rfl, rfl⟩
    · exact ⟨.brPeek a, legalCount_iff.mpr hcount, rfl, rfl⟩
    · exact ⟨.brSkip a, legalCount_iff.mpr hcount, rfl, rfl⟩
  · rcases hop with rfl | rfl | rfl
    · exact ⟨.huBuild ⟨a, ha⟩, rfl, rfl, rfl⟩
    · exact ⟨.huSym ⟨a, ha⟩, rfl, rfl, rfl⟩
    · exact ⟨.huDec ⟨a, ha⟩, rfl, rfl, rfl⟩
  · exact ⟨.dcRun, rfl, rfl, rfl⟩
  · match a, ha with
    | 0, _ => exact ⟨.ppNorm .shift, rfl, rfl, rfl⟩
    | 1, _ => exact ⟨.ppNorm .multiply, rfl, rfl, rfl⟩
  · match a, ha with
    | 0, _ => exact ⟨.dmRun .none, rfl, rfl, rfl⟩
    | 1, _ => exact ⟨.dmRun .superPixel, rfl, rfl, rfl⟩
    | 2, _ => exact ⟨.dmRun .linear, rfl, rfl, rfl⟩
    | 3, _ => exact ⟨.dmRun .enhancedLinear, rfl, rfl, rfl⟩
  · rcases hop with rfl | rfl | rfl
    · exact ⟨.cpWb, rfl, rfl, rfl⟩
    · exact ⟨.cpCc, rfl, rfl, rfl⟩
    · exact ⟨.cpGamma, rfl, rfl, rfl⟩

/-- The words that decode, by `OP` and `A` (R94). -/
theorem exists_decode_ok_iff :
    (∃ i, decode c = .ok i) ↔ c.toNat < 2 ^ 16 ∧ Machine.legalOperand (c.toNat % 256) (c.toNat / 256) := by
  constructor
  · rintro ⟨i, hdec⟩
    obtain ⟨hwf, rfl⟩ := decode_eq_ok_iff.mp hdec
    have hword := encode_toNat hwf
    have hop := i.row.value_lt
    have hwidth : 2 ^ i.row.operandWidth ≤ 2 ^ 6 := Nat.pow_le_pow_right (by decide) i.row.operandWidth_le
    have ha := operandField_lt hwf
    have hmod : (encode i).toNat % 256 = i.row.value.toNat := by omega
    have hdiv : (encode i).toNat / 256 = i.operandField := by omega
    rw [hmod, hdiv]
    exact ⟨by omega, legalOperand_of_wf hwf⟩
  · rintro ⟨-, hlegal⟩
    obtain ⟨i, hwf, hop, ha⟩ := exists_of_legalOperand hlegal
    refine ⟨i, decode_eq_ok_iff.mpr ⟨hwf, BitVec.eq_of_toNat_eq ?_⟩⟩
    rw [encode_toNat hwf, hop, ha]
    exact Nat.mod_add_div _ _

end Sys2Proof

namespace Sys2Proof.Machine

/-- Outside the fault state a word that is no command is taken for a fault (R90, R94). -/
theorem runCommand_of_illegal {c : Word} {s : State} (hf : s.fault = false) (h : ¬ ∃ i, decode c = .ok i) :
    runCommand c s = .next (takeFault [] ⟨.illegalCmd, c⟩ s) := by
  unfold runCommand
  cases hdec : decode c with
  | ok i => exact absurd ⟨i, hdec⟩ h
  | error _ => exact whenAccepting_of_ok hf _

/-- Settles O4: the legal words are the encodings of the well-formed commands. -/
theorem legalWordsAreExactlyThoseListed : Obligations.LegalWordsAreExactlyThoseListed := by
  refine ⟨fun _ => exists_decode_ok_iff, fun c s rest hf hport hillegal => ?_, decode_eq_ok_iff.mpr ⟨rfl, rfl⟩,
    fun s hf => (dmRun_raises hf (dmRunBody_of_enhanced rfl)).1⟩
  exact ⟨_, (step_of_port hport).trans (runCommand_of_illegal hf (mt exists_decode_ok_iff.mp hillegal)), rfl, rfl, rfl⟩

end Sys2Proof.Machine
end

section
/-! De-stuffing over a list of bytes (R98, R124). -/

namespace Sys2Proof.Machine

/-- De-stuffing looks only at what lies ahead. -/
theorem destuffFrom_shift (b : Nat → Byte) (len : Nat) :
    ∀ fuel k, destuffFrom b (len + 1) fuel (k + 1) = destuffFrom (fun j => b (j + 1)) len fuel k := by
  intro fuel
  induction fuel with
  | zero => intro k; rfl
  | succ fuel ih =>
    intro k
    simp only [destuffFrom, Nat.add_lt_add_iff_right, ih]

/-- De-stuffing a list from its first byte on. -/
def destuffList (fuel : Nat) (l : List Byte) : List Byte := destuffFrom (fun k => l.getD k 0) l.length fuel 0

theorem destuffList_nil (fuel : Nat) : destuffList fuel [] = [] := by cases fuel <;> rfl

theorem destuffList_cons_of_ne {d : Byte} (h : d ≠ 0xFF#8) (fuel : Nat) (l : List Byte) :
    destuffList (fuel + 1) (d :: l) = d :: destuffList fuel l := by
  simp [destuffList, destuffFrom, destuffFrom_shift, h]

theorem destuffList_stuffed (fuel : Nat) (l : List Byte) :
    destuffList (fuel + 1) (0xFF#8 :: 0x00#8 :: l) = 0xFF#8 :: destuffList fuel l := by
  simp [destuffList, destuffFrom, destuffFrom_shift]

/-- An `FF` that no `00` follows ends the data (R124). -/
theorem destuffList_marker {tail : List Byte} (h : tail.head? ≠ some 0x00#8) (fuel : Nat) :
    destuffList fuel (0xFF#8 :: tail) = [] := by
  cases fuel with
  | zero => rfl
  | succ fuel =>
    cases tail with
    | nil => rfl
    | cons d tail =>
      have hd : d ≠ 0x00#8 := by simpa using h
      simp [destuffList, destuffFrom, hd]

theorem length_le_length_stuff (data : List Byte) : data.length ≤ (stuff data).length := by
  induction data with
  | nil => exact Nat.le_refl _
  | cons d rest ih =>
    rw [stuff]
    split <;> simp only [List.length_cons] <;> omega

/-- Stuffed data before a list that holds none de-stuffs to the data: each byte of the data takes one turn. -/
theorem destuffList_stuff_append {l : List Byte} (hl : ∀ fuel, destuffList fuel l = []) (data : List Byte) :
    ∀ fuel, data.length ≤ fuel → destuffList fuel (stuff data ++ l) = data := by
  induction data with
  | nil => exact fun fuel _ => hl fuel
  | cons d rest ih =>
    intro fuel hfuel
    cases fuel with
    | zero => exact absurd hfuel (Nat.not_succ_le_zero _)
    | succ fuel =>
      have hrest := ih fuel (Nat.le_of_succ_le_succ hfuel)
      by_cases hd : d = 0xFF#8
      · rw [stuff, if_pos hd, hd]
        exact (destuffList_stuffed _ _).trans (congrArg _ hrest)
      · rw [stuff, if_neg hd]
        exact (destuffList_cons_of_ne hd _ _).trans (congrArg _ hrest)

/-- Settles O23: the end of the list ends the data, and so does an `FF` without its `00`. -/
theorem destuffUndoesStuffingAndStopsAtAMarker : Obligations.DestuffUndoesStuffingAndStopsAtAMarker := by
  intro data tail htail
  have hlength := length_le_length_stuff data
  refine ⟨?_, destuffList_stuff_append (destuffList_marker htail) data _ ?_⟩
  · have h := destuffList_stuff_append destuffList_nil data _ hlength
    rwa [List.append_nil] at h
  · exact Nat.le_trans hlength (by simp)

end Sys2Proof.Machine
end

section
/-! The differences of R158 and the difference decode `HU.DEC` (R157). -/

namespace Sys2Proof.Machine

/-! ### Signed differences -/

/-- Of 32 raw bits only one field has a difference that fits `i32` (R158). -/
theorem fitsI32_signedDifference_32 {v : Nat} (hv : v < 2 ^ 32) :
    fitsI32 (signedDifference 32 v) = true ↔ v = 0x7FFFFFFF := by
  rw [signedDifference_eq (by decide) hv, fitsI32, decide_eq_true_iff]
  split <;> omega

/-- Settles O31: a difference is its field, or its field less `2^t - 1` where the top bit is clear. -/
theorem signedDifferencesCoverTheirRange : Obligations.SignedDifferencesCoverTheirRange := by
  intro t v v' ht hv hv'
  have hpow : 2 ^ (t - 1) + 2 ^ (t - 1) = 2 ^ t := Nat.two_pow_pred_add_two_pow_pred ht
  have hint : (2 : Int) ^ t = ((2 ^ t : Nat) : Int) := (Nat.cast_pow 2 t).symm
  have hint' : (2 : Int) ^ (t - 1) = ((2 ^ (t - 1) : Nat) : Int) := (Nat.cast_pow 2 _).symm
  refine ⟨fun h => ?high, fun h => ?low, fun h => ?injective, fun h => fitsI32_signedDifference ht h hv, ?widest⟩
  case high => exact (signedDifference_eq ht hv).trans (if_pos h)
  case low =>
    rw [signedDifference_eq ht hv, if_neg (Nat.not_le.mpr h), hint, hint']
    omega
  case injective =>
    rw [signedDifference_eq ht hv, signedDifference_eq ht hv', hint] at h
    split at h <;> split at h <;> omega
  case widest => rintro rfl; exact fitsI32_signedDifference_32 hv

/-! ### A difference decode, by its symbol -/

section decode

variable {inp : Memory 8} {slot t : Nat} {h : HuffSlot} {br br1 : BitReader}

theorem huffDec_of_zero (hs : huffSym inp slot h br = .ok (0, br1)) : huffDec inp slot h br = .ok (0, br1) := by
  simp only [huffDec, hs, if_true]

theorem huffDec_of_long (hs : huffSym inp slot h br = .ok (t, br1)) (ht : 32 < t) :
    huffDec inp slot h br = .error ⟨⟨.decodeFormat, infoNat t⟩, br1⟩ := by
  simp only [huffDec, hs, if_neg (Nat.ne_zero_of_lt ht), if_pos ht]

/-- The raw bits are read as `Read` does. -/
theorem huffDec_of_short (hs : huffSym inp slot h br = .ok (t, br1)) (h1 : 1 ≤ t) (h32 : t ≤ 32) :
    huffDec inp slot h br = (readBits inp br1 t).bind fun x =>
      if fitsI32 (signedDifference t x.1) then .ok (signedDifference t x.1, x.2)
      else .error ⟨⟨.arithOverflow, infoNat t⟩, x.2⟩ := by
  simp only [huffDec, hs, if_neg (Nat.ne_zero_of_lt h1), if_neg (Nat.not_lt.mpr h32)]
  cases readBits inp br1 t <;> rfl

end decode

/-! ### HU.DEC -/

section command

variable {s : State} {slot : Slot}

/-- A command behind the guard whose body ends well ends as the body does. -/
theorem exec_of_body_ok {i : Instr} {body : State → Except Raised State} {t : State}
    (hexec : exec i s = whenAccepting s fun s => settle i.writes s (body s)) (hf : s.fault = false)
    (hbody : body s = .ok t) : exec i s = .next t := by
  rw [hexec, whenAccepting_of_ok hf, hbody, settle_ok]

theorem huDec_ok (hf : s.fault = false) {d : Int} {br : BitReader}
    (h : huffDec s.mem.inp slot.val s.hu[slot] s.br = .ok (d, br)) :
    exec (.huDec slot) s = .next ((s.setBr br).setRes (infoInt d)) :=
  exec_of_body_ok (body := huDecBody slot) rfl hf (by rw [huDecBody, h])

theorem huDec_faultsWith (hf : s.fault = false) {code : FaultCode} {info : Word} {br : BitReader}
    (h : huffDec s.mem.inp slot.val s.hu[slot] s.br = .error ⟨⟨code, info⟩, br⟩) : FaultsWith (.huDec slot) s code info br :=
  faultsWith_of_exec (exec_eq_takeFault rfl hf (body := huDecBody slot) (by rw [huDecBody, h]))

end command

/-- Settles O29: after the symbol the cursor stands behind its code, and the raw bits are read there or cannot be. -/
theorem huDecReturnsTheSignedDifference : Obligations.HuDecReturnsTheSignedDifference := by
  intro s slot e hf hbound hmode hbuilt hwf he hread hcode t v d
  have hsym : huffSym s.mem.inp slot.val s.hu[slot] s.br = .ok (t, s.br.advance e.len) :=
    huffSym_of_mem hbuilt hwf hbound hmode he hread hcode
  have hlen : e.len ≤ s.hu[slot].maxlen := (((HuffSlot.wf_iff hbuilt).mp hwf).2.2.2.1 e he).2.1
  have hpos : (s.br.advance e.len).pos.toNat = s.br.pos.toNat + e.len := BitReader.advance_pos (hread.mono hlen)
  have hv : v < 2 ^ t := streamValue_lt _ _ _ _
  have hdec (h1 : 1 ≤ t) (h32 : t ≤ 32) (hr : CanRead s.br (s.br.pos.toNat + e.len) t) :
      huffDec s.mem.inp slot.val s.hu[slot] s.br =
        if fitsI32 (signedDifference t v) then .ok (signedDifference t v, s.br.advance (e.len + t))
        else .error ⟨⟨.arithOverflow, infoNat t⟩, s.br.advance (e.len + t)⟩ := by
    rw [← hpos] at hr
    rw [huffDec_of_short hsym h1 h32, readBits_of_canRead hr, hpos, BitReader.advance_advance]
    rfl
  refine ⟨fun ht => ?zero, fun h1 h31 hr => ?short, fun ht hr hmax => ?widest, fun ht hr hmax => ?overflow, fun ht => ?long,
    fun h1 h32 hr => ?exhausted⟩
  case zero => exact huDec_ok hf (huffDec_of_zero (ht ▸ hsym))
  case short =>
    have hd : signedDifference t v = d := signedDifference_eq h1 hv
    exact hd ▸ huDec_ok hf ((hdec h1 (by omega) hr).trans (if_pos (fitsI32_signedDifference h1 h31 hv)))
  case widest =>
    have h := hdec (by omega) (by omega) hr
    rw [ht, hmax] at h
    rw [ht]
    exact huDec_ok hf h
  case overflow =>
    have hover : ¬ fitsI32 (signedDifference t v) = true := by
      rw [ht] at hv ⊢
      exact mt (fitsI32_signedDifference_32 hv).mp hmax
    refine huDec_faultsWith hf ((hdec (by omega) (by omega) hr).trans ((if_neg hover).trans ?_))
    rw [ht]
    rfl
  case long => exact huDec_faultsWith hf (huffDec_of_long hsym ht)
  case exhausted =>
    rw [← hpos] at hr ⊢
    refine huDec_faultsWith hf ((huffDec_of_short hsym h1 h32).trans ?_)
    rw [readBits_of_not_canRead (Nat.ne_zero_of_lt h1) hr]
    rfl

end Sys2Proof.Machine
end

section
/-! The runs of `DC.RUN` that unpack words (R186) and Sony half-groups (R190 to R194). -/

namespace Sys2Proof.Machine

variable {s : State}

/-- When its codec answers a mosaic, `DC.RUN` stores it and leaves the codec's cursor unbound (R180). -/
theorem dcRun_ok {codec : State → BitReader → Except Raised (Memory 16 × BitReader)}
    (hc : codecOf s.regs.compression.toNat = some codec) (hf : s.fault = false) (hfit : s.mosaicFits = true)
    (hin : s.regionInside = true) {m : Memory 16} {br : BitReader} (h : codec s s.br.unbind = .ok (m, br)) :
    exec .dcRun s = .next ((s.setMos m).setBr br.unbind) := by
  refine exec_of_body_ok (body := dcRunBody) rfl hf ?_
  simp only [dcRunBody, hc, hfit, hin, h, Bool.not_true, Bool.false_eq_true, if_false]

/-! ### Word-aligned samples -/

/-- A word is not cut off: two bytes fit it (R100, R186). -/
theorem unpackWord_toNat (s : State) (k : Nat) : (unpackWord s k).toNat =
    if s.regs.unpackLittle then (s.regionBytes (2 * k)).toNat + 256 * (s.regionBytes (2 * k + 1)).toNat
    else 256 * (s.regionBytes (2 * k)).toNat + (s.regionBytes (2 * k + 1)).toNat := by
  have h0 : s.mem.inp.readNat (s.regs.inOff.toNat + 2 * k) < 256 := BitVec.isLt _
  have h1 : s.mem.inp.readNat (s.regs.inOff.toNat + 2 * k + 1) < 256 := BitVec.isLt _
  unfold unpackWord
  split
  · exact (BitVec.toNat_ofNat _ _).trans (Nat.mod_eq_of_lt (by omega))
  · exact (BitVec.toNat_ofNat _ _).trans (Nat.mod_eq_of_lt (by omega))

/-- A word-aligned region of the right size. -/
theorem unpack_words_ok (hb : s.regs.unpackBits = 12 ∨ s.regs.unpackBits = 14 ∨ s.regs.unpackBits = 16)
    (ha : s.regs.unpackWordAligned = true) (hl : s.regs.inLen.toNat = 2 * (s.regs.w * s.regs.h)) (br : BitReader) :
    unpack s br = .ok (repeatTimes (s.regs.w * s.regs.h) (fun k m => m.write k (unpackWord s k)) s.mem.mos, br) :=
  (if_neg (by omega)).trans ((if_pos ha).trans (if_neg (by rwa [Nat.mul_assoc, not_not])))

/-- Settles O35: the words are written one after the other, and `DC.RUN` keeps the mosaic they make. -/
theorem wordAlignedSamplesAreTheRegionsWords : Obligations.WordAlignedSamplesAreTheRegionsWords := by
  intro s hf hcode hfit hin g n hb ha hl
  have hc : codecOf s.regs.compression.toNat = some unpack := by rw [hcode]; rfl
  refine ⟨_, dcRun_ok hc hf hfit hin (unpack_words_ok hb ha hl _), rfl, fun k hk => ?_, fun k hk => ?_⟩
  · refine (congrArg BitVec.toNat ((read_repeatTimes_write _ _ k _).trans (if_pos hk))).trans ?_
    exact unpackWord_toNat s k
  · exact (read_repeatTimes_write _ _ k _).trans (if_neg (Nat.not_lt.mpr hk))

/-! ### Sony -/

section sony

variable {br : BitReader}

/-- The number of the half-group that column `x` of row `r` is a sample of, in rows of `groups` groups (R190, R191). -/
def halfGroupOf (groups r x : Nat) : Nat := (r * groups + x / 32) * 2 + x % 2

/-- Two half-groups of sixteen samples to every 32 columns (R190). -/
theorem halfGroups_eq {w : Nat} (hw : w % 32 = 0) (h : Nat) : w / 16 * h = w / 32 * h * 2 := by
  rw [show w / 16 = w / 32 * 2 by omega, Nat.mul_right_comm]

theorem halfGroupOf_lt {w h r x : Nat} (hw : w % 32 = 0) (hr : r < h) (hx : x < w) : halfGroupOf (w / 32) r x < w / 16 * h := by
  have := index_lt hr (show x / 32 < w / 32 by omega)
  rw [halfGroups_eq hw, halfGroupOf]
  omega

/-- The mosaic after the first `n` half-groups: their samples stored, nothing beyond the image changed. -/
def SonyStored (s : State) (br : BitReader) (n : Nat) (m : Memory 16) : Prop :=
  (∀ r x, x < s.regs.w → halfGroupOf (s.regs.w / 32) r x < n → m.read (r * s.regs.w + x) =
    s.mem.curve.read (2 * sonyValue (streamValue s.mem.inp br) (halfGroupOf (s.regs.w / 32) r x) (x % 32 / 2))) ∧
  ∀ j, s.regs.w * s.regs.h ≤ j → m.read j = s.mem.mos.read j

/-- A half-group is good and looks up what the curve has (R192, R194). -/
def SonyLegal (s : State) (br : BitReader) (k : Nat) : Prop :=
  sonyGood (streamValue s.mem.inp br) k ∧
    ∀ i, i < 16 → 2 * sonyValue (streamValue s.mem.inp br) k i < s.regs.curveEntries

/-- The columns of half-group `half` of group `g` of a row. -/
theorem halfGroupOf_eq_iff {groups r g half r' x : Nat} (hg : g < groups) (hh : half < 2) (hx : x / 32 < groups) :
    halfGroupOf groups r' x = (r * groups + g) * 2 + half ↔ r' = r ∧ x = 32 * g + 2 * (x % 32 / 2) + half := by
  unfold halfGroupOf
  constructor
  · intro h
    obtain ⟨rfl, hgroup⟩ := index_inj (w := groups) hx hg (show r' * groups + x / 32 = r * groups + g by omega)
    exact ⟨rfl, by omega⟩
  · rintro ⟨rfl, h⟩
    rw [show x / 32 = g by omega]
    omega

/-- One more half-group. -/
theorem SonyStored.halfGroup (hw : s.regs.w % 32 = 0) {r g half : Nat} (hr : r < s.regs.h) (hg : g < s.regs.w / 32)
    (hh : half < 2) {m : Memory 16} (h : SonyStored s br ((r * (s.regs.w / 32) + g) * 2 + half) m)
    (hlegal : SonyLegal s br ((r * (s.regs.w / 32) + g) * 2 + half)) :
    ∃ m', sonyHalfGroup s br (s.regs.w / 32) r g half m = .ok m' ∧
      SonyStored s br ((r * (s.regs.w / 32) + g) * 2 + (half + 1)) m' := by
  obtain ⟨stored, beyond⟩ := h
  obtain ⟨m', hm', here, elsewhere⟩ := sonyHalfGroup_ok rfl hlegal.1 hlegal.2 m
  refine ⟨m', hm', fun r' x hx hk => ?_, fun j hj => ?_⟩
  · have hiff := halfGroupOf_eq_iff (r := r) (r' := r') hg hh (show x / 32 < s.regs.w / 32 by omega)
    by_cases heq : halfGroupOf (s.regs.w / 32) r' x = (r * (s.regs.w / 32) + g) * 2 + half
    · obtain ⟨rfl, hcol⟩ := hiff.mp heq
      have := here (x % 32 / 2) (by omega)
      rwa [← hcol, ← heq] at this
    · rw [elsewhere _ fun i hi hpos => heq (hiff.mpr ?_)]
      · exact stored r' x hx (by omega)
      · obtain ⟨rfl, rfl⟩ := index_inj hx (by omega) hpos
        exact ⟨rfl, by omega⟩
  · rw [elsewhere j fun i hi => ?_]
    · exact beyond j hj
    · have := index_lt hr (show 32 * g + 2 * i + half < s.regs.w by omega)
      omega

/-- One more group: its two half-groups. -/
theorem SonyStored.group (hw : s.regs.w % 32 = 0) {r g : Nat} (hr : r < s.regs.h) (hg : g < s.regs.w / 32)
    {m : Memory 16} (h : SonyStored s br ((r * (s.regs.w / 32) + g) * 2) m)
    (hlegal : ∀ half, half < 2 → SonyLegal s br ((r * (s.regs.w / 32) + g) * 2 + half)) :
    ∃ m', loop 2 (sonyHalfGroup s br (s.regs.w / 32) r g) m = .ok m' ∧
      SonyStored s br ((r * (s.regs.w / 32) + (g + 1)) * 2) m' := by
  obtain ⟨m', hm', hstored⟩ := loop_total (P := fun half => SonyStored s br ((r * (s.regs.w / 32) + g) * 2 + half)) h
    fun half hh m hm => hm.halfGroup hw hr hg hh (hlegal half hh)
  exact ⟨m', hm', by rwa [← Nat.add_assoc, Nat.succ_mul]⟩

/-- Good half-groups that look up what the curve has are all stored. -/
theorem sonyLoop_ok (hw : s.regs.w % 32 = 0) (hlegal : ∀ k, k < s.regs.w / 16 * s.regs.h → SonyLegal s br k) :
    ∃ m, loop s.regs.h (fun r => loop (s.regs.w / 32) fun g => loop 2 (sonyHalfGroup s br (s.regs.w / 32) r g)) s.mem.mos =
        .ok m ∧ SonyStored s br (s.regs.w / 16 * s.regs.h) m := by
  have hcount := halfGroups_eq hw s.regs.h
  obtain ⟨m, hm, hstored⟩ := rows_total (P := fun r g => SonyStored s br ((r * (s.regs.w / 32) + g) * 2))
    (f := fun r g => loop 2 (sonyHalfGroup s br (s.regs.w / 32) r g)) (start := fun _ m => m) (s := s.mem.mos)
    (w := s.regs.w / 32) (h := s.regs.h) ⟨fun _ _ _ h => by omega, fun _ _ => rfl⟩
    (fun r m _ h => by rwa [Nat.succ_mul, Nat.add_zero])
    (fun r g m hr hg h => h.group hw hr hg fun half hh => hlegal _ (by have := index_lt hr hg; omega))
  exact ⟨m, hm, by rwa [hcount, Nat.mul_comm (s.regs.w / 32)]⟩

/-- `Sony` past its checks (R190). -/
theorem sony_ok (hw : s.regs.w % 32 = 0) (hl : s.regs.inLen.toNat = s.regs.w * s.regs.h)
    (hc : s.regs.curveEntries ≤ Config.curveSize)
    (hlegal : ∀ k, k < s.regs.w / 16 * s.regs.h → SonyLegal s (bindCursor .lsb s.regs) k) (br : BitReader) :
    ∃ m, sony s br = .ok (m, bindCursor .lsb s.regs) ∧
      SonyStored s (bindCursor .lsb s.regs) (s.regs.w / 16 * s.regs.h) m := by
  obtain ⟨m, hm, hstored⟩ := sonyLoop_ok hw hlegal
  refine ⟨m, (if_neg (not_not.mpr hw)).trans ((if_neg (not_not.mpr hl)).trans ((if_neg (Nat.not_lt.mpr hc)).trans ?_)), hstored⟩
  exact congrArg (Except.map fun m => (m, bindCursor .lsb s.regs)) hm

end sony

/-- Settles O36: the half-groups are stored one after the other, and every position is in one of them. -/
theorem sonySamplesByPosition : Obligations.SonySamplesByPosition := by
  intro s hf hcode hfit hin g w h br val hw hl hcurve hgood hindex
  have hc : codecOf s.regs.compression.toNat = some sony := by rw [hcode]; rfl
  have hlegal (k : Nat) (hk : k < w / 16 * h) : SonyLegal s br k := by
    refine ⟨hgood k hk, fun i hi => ?_⟩
    rcases hindex with hlong | hshort
    · have : sonyValue val k i ≤ 2047 := sonyValue_le s.mem.inp br k i
      exact Nat.lt_of_lt_of_le (show 2 * sonyValue val k i < 4095 by omega) hlong
    · exact hshort k i hk hi
  obtain ⟨m, hm, stored, beyond⟩ := sony_ok hw hl hcurve hlegal s.br.unbind
  exact ⟨_, dcRun_ok hc hf hfit hin hm, rfl, fun r x hr hx => stored r x hx (halfGroupOf_lt hw hr hx), beyond⟩

end Sys2Proof.Machine
end

section
/-! Mode Linear on an X-Trans pattern (R263, R264): the value of a rule, and the image. -/

namespace Sys2Proof.Machine

variable {s : State} {m : Mosaic} {e y x : Nat} {w : Word}

/-- A mean is no greater than what it is of. -/
theorem mean_le {l : List Nat} {b : Nat} (h : ∀ v ∈ l, v ≤ b) : mean l ≤ b :=
  Nat.div_le_of_le_mul (by simpa only [smul_eq_mul] using List.sum_le_card_nsmul l b h)

theorem Mosaic.at_lt (m : Mosaic) (p : Nat × Nat) : m.at p < 2 ^ 16 := BitVec.isLt _

/-- The sample neighbour `j` of a rule names (R101, R102). -/
def neighbourSample (m : Mosaic) (y x : Nat) (w : Word) (j : Nat) : Nat :=
  m.at (y + neighbourCode w j / 3 - 1, x + neighbourCode w j % 3 - 1)

/-- The value of a rule: the mean of the samples it lists, 0 when it lists none (R263). -/
def ruleMean (m : Mosaic) (y x : Nat) (w : Word) : Nat := mean ((List.range (w.toNat % 8)).map (neighbourSample m y x w))

theorem ruleMean_eq_div (m : Mosaic) (y x : Nat) (w : Word) : ruleMean m y x w =
    ((List.range (w.toNat % 8)).map (neighbourSample m y x w)).sum / (w.toNat % 8) := by
  rw [ruleMean, mean, List.length_map, List.length_range]

theorem ruleMean_lt (m : Mosaic) (y x : Nat) (w : Word) : ruleMean m y x w < 2 ^ 16 := by
  refine Nat.lt_of_le_of_lt (mean_le (b := 2 ^ 16 - 1) fun v hv => ?_) (by decide)
  obtain ⟨j, -, rfl⟩ := List.mem_map.mp hv
  exact Nat.le_sub_one_of_lt (m.at_lt _)

/-- The value of a rule fits a channel of the image. -/
theorem toNat_ofNat_ruleMean (m : Mosaic) (y x : Nat) (w : Word) :
    (BitVec.ofNat 16 (ruleMean m y x w)).toNat = ruleMean m y x w :=
  (BitVec.toNat_ofNat _ _).trans (Nat.mod_eq_of_lt (ruleMean_lt m y x w))

theorem xtransNeighbour_eq_ok {j : Nat} (h : NeighbourLegal m y x w j) (sum : Nat) :
    xtransNeighbour m e y x w j sum = .ok (sum + neighbourSample m y x w j) := by
  obtain ⟨hcode, hinside⟩ := h
  have hsome : m.neighbour y x (neighbourCode w j) = some (y + neighbourCode w j / 3 - 1, x + neighbourCode w j % 3 - 1) :=
    if_pos (by unfold CodeInside at hinside; omega)
  unfold neighbourSample
  rw [neighbourCode] at hcode hsome ⊢
  rw [xtransNeighbour_eq, if_neg (Nat.not_lt.mpr hcode), hsome]

/-- The samples of legal neighbours are added up. -/
theorem xtransNeighbours_eq_ok {n : Nat} (h : ∀ j, j < n → NeighbourLegal m y x w j) :
    loop n (xtransNeighbour m e y x w) 0 = .ok ((List.range n).map (neighbourSample m y x w)).sum := by
  induction n with
  | zero => rfl
  | succ n ih =>
    rw [loop_succ, ih fun j hj => h j (Nat.lt_succ_of_lt hj), List.range_succ, List.map_append, List.sum_append]
    simpa [Except.bind] using xtransNeighbour_eq_ok (h n (Nat.lt_succ_self n)) _

theorem xtransChannel_eq_ok (h : RuleLegal m y x w) : xtransChannel m e y x w = .ok (ruleMean m y x w) := by
  obtain ⟨hcount, hlegal⟩ := h
  unfold xtransChannel
  simp only [ruleCount_eq]
  rw [if_neg (Nat.not_lt.mpr hcount), xtransNeighbours_eq_ok hlegal, ruleMean_eq_div]
  exact congrArg Except.ok (ite_eq_right_iff.mpr fun hnone => by rw [hnone, Nat.div_zero])

/-- The pixel of a rule table's entry: the means of its three rules, or (0, 0, 0) when it is not valid (R263, R264). -/
def xtransPixel (m : Mosaic) (xtr : Memory 32) (e y x : Nat) : Pixel :=
  if xtr.readNat e % 2 == 1 then
    ⟨ruleMean m y x (xtr.read (e + 1)), ruleMean m y x (xtr.read (e + 2)), ruleMean m y x (xtr.read (e + 3))⟩
  else ⟨0, 0, 0⟩

theorem xtransPixel_channel (m : Mosaic) (xtr : Memory 32) (e y x : Nat) {c : Nat} (hc : c < 3) :
    (xtransPixel m xtr e y x).channel c =
      if xtr.readNat e % 2 == 1 then ruleMean m y x (xtr.read (e + 1 + c)) else 0 := by
  unfold xtransPixel
  match c, hc with
  | 0, _ => split <;> rfl
  | 1, _ => split <;> rfl
  | 2, _ => split <;> rfl

theorem xtransLinear_eq_ok {xtr : Memory 32} {cfa : Nat} (he : xtransEntry m (cfa - 4) y x = e)
    (h : (xtr.readNat e % 2 == 1) = true → ∀ c, c < 3 → RuleLegal m y x (xtr.read (e + 1 + c))) :
    xtransLinear m xtr cfa y x = .ok (xtransPixel m xtr e y x) := by
  unfold xtransLinear xtransPixel
  simp only [he, bits_zero _ 0]
  by_cases hvalid : (xtr.readNat e % 2 == 1) = true
  · have hlegal := h hvalid
    have h0 := xtransChannel_eq_ok (e := e) (hlegal 0 (by decide))
    have h1 := xtransChannel_eq_ok (e := e) (hlegal 1 (by decide))
    have h2 := xtransChannel_eq_ok (e := e) (hlegal 2 (by decide))
    have hbit : ¬(xtr.read e).toNat % 2 ^ (0 + 1) = 0 := Nat.mod_two_ne_zero.mpr (beq_iff_eq.mp hvalid)
    rw [if_pos hvalid, if_neg hbit, h0, h1, h2]
  · rw [if_neg hvalid]
    exact if_pos (Nat.mod_two_ne_one.mp (mt beq_iff_eq.mpr hvalid))

/-- Settles O47: every pixel is made, each channel the mean of its rule. -/
theorem xTransLinearFollowsTheRuleTable : Obligations.XTransLinearFollowsTheRuleTable := by
  intro s hf hcfa hfit w h border e valid k d hrules
  obtain ⟨hw2, hh2, -⟩ := s.demosaicFits_iff.mp hfit
  have hpixel (y x : Nat) (hy : y < h) (hx : x < w) :
      demosaicPixel s .linear y x = .ok (xtransPixel s.mosaic s.mem.xtr (e y x) y x) := by
    rw [demosaicPixel_xtransLinear hcfa]
    exact xtransLinear_eq_ok (xtransEntry_eq s.mosaic _ y x (Nat.zero_lt_of_lt hh2) (Nat.zero_lt_of_lt hw2))
      fun hv c hc => hrules y x c hy hx hc hv
  obtain ⟨t, hexec, ht, stored, rest⟩ := dmRun_ok hf (dmRunReachesPixels_xtrans (.inr rfl) hcfa hfit) rfl hpixel
  refine ⟨t, hexec, ?_, fun y x c hy hx hc => ?_, rest⟩
  · simpa only [Regs.w, Regs.h, BitVec.ofNat_toNat, BitVec.setWidth_eq] using ht
  · refine (stored y x c hy hx hc).trans ?_
    rw [xtransPixel_channel _ _ _ _ _ hc]
    by_cases hvalid : valid y x = true
    · rw [if_pos hvalid, toNat_ofNat_ruleMean, ruleMean_eq_div]
      by_cases hk : k y x c = 0
      · rw [if_neg fun h => h.2 hk]
        exact (congrArg _ hk).trans (Nat.div_zero _)
      · exact (if_pos ⟨hvalid, hk⟩).symm
    · rw [if_neg hvalid, if_neg fun h => hvalid h.1]
      rfl

end Sys2Proof.Machine
end

section
/-! The bit reader (R121 to R131): the value of a stream as a slice of one integer, and the commands `BR.INIT`, `BR.READ`,
`BR.PEEK` and `BR.SKIP`. -/

namespace Sys2Proof.Machine

/-! ### The bits of a region read as one integer -/

section stream

variable {b : Nat → Byte}

theorem testBit_bigEndian {m j : Nat} (hj : j < 8 * m) :
    (bigEndian b m).testBit (8 * m - 1 - j) = (b (j / 8)).getLsbD (7 - j % 8) := by
  induction m with
  | zero => omega
  | succ m ih =>
    rw [bigEndian, show (256 : Nat) = 2 ^ 8 from rfl, Nat.testBit_two_pow_mul_add _ (b m).isLt]
    by_cases hlast : 8 * m ≤ j
    · rw [if_pos (by omega), show j / 8 = m by omega, show 8 * (m + 1) - 1 - j = 7 - j % 8 by omega]
      rfl
    · rw [if_neg (by omega), ← ih (by omega)]
      congr 1
      omega

theorem littleEndian_lt (b : Nat → Byte) (m : Nat) : littleEndian b m < 2 ^ (8 * m) := by
  induction m with
  | zero => exact Nat.one_pos
  | succ m ih =>
    rw [littleEndian, show (256 : Nat) = 2 ^ 8 from rfl, ← Nat.pow_mul, Nat.mul_comm, Nat.mul_succ, Nat.pow_add]
    have := Nat.mul_le_mul_left (2 ^ (8 * m)) (Nat.le_sub_one_of_lt (b m).isLt)
    omega

theorem testBit_littleEndian {m j : Nat} (hj : j < 8 * m) :
    (littleEndian b m).testBit j = (b (j / 8)).getLsbD (j % 8) := by
  induction m with
  | zero => omega
  | succ m ih =>
    rw [littleEndian, show (256 : Nat) = 2 ^ 8 from rfl, ← Nat.pow_mul, Nat.add_comm, Nat.mul_comm,
      Nat.testBit_two_pow_mul_add _ (littleEndian_lt b m)]
    by_cases hlast : 8 * m ≤ j
    · rw [if_neg (by omega), show j / 8 = m by omega, show j - 8 * m = j % 8 by omega]
      rfl
    · rw [if_pos (by omega), ih (by omega)]

variable {inp : Memory 8} {br : BitReader} {p n : Nat} {data : List Byte}

/-- R131 for an MSB stream. -/
theorem streamValue_msb (hm : br.mode = .msb) (h : p + n ≤ 8 * br.len.toNat) :
    streamValue inp br p n =
      bigEndian (regionByte inp br) br.len.toNat / 2 ^ (8 * br.len.toNat - (p + n)) % 2 ^ n := by
  rw [← bitsMsbFirst_eq_slice _ _ h]
  simp only [streamValue, hm]
  refine bitsMsbFirst_congr fun j _ hj => ?_
  simp only [streamBit, hm]
  exact (testBit_bigEndian (by omega)).symm

/-- R131 for an LSB stream. -/
theorem streamValue_lsb (hm : br.mode = .lsb) (h : p + n ≤ 8 * br.len.toNat) :
    streamValue inp br p n = littleEndian (regionByte inp br) br.len.toNat / 2 ^ p % 2 ^ n := by
  rw [← bitsLsbFirst_eq_slice]
  simp only [streamValue, hm]
  refine bitsLsbFirst_congr fun j _ hj => ?_
  simp only [streamBit, hm]
  exact (testBit_littleEndian (by omega)).symm

/-- A JPEG stream is the data bytes followed by zero bits (R124), here the first `m` of them. -/
theorem streamBit_jpeg (hm : br.mode = .jpeg) (hdata : destuff (regionByte inp br) br.len.toNat = data) {m j : Nat}
    (hj : j < 8 * data.length + m) :
    streamBit inp br j = (bigEndianList data * 2 ^ m).testBit (8 * data.length + m - 1 - j) := by
  simp only [streamBit, hm, hdata]
  rw [Nat.testBit_mul_two_pow]
  by_cases hbyte : j < 8 * data.length
  · rw [List.getElem?_eq_getElem (show j / 8 < data.length by omega), decide_eq_true (by omega), bigEndianList,
      show 8 * data.length + m - 1 - j - m = 8 * data.length - 1 - j by omega, testBit_bigEndian hbyte,
      List.getD_eq_getElem _ _ (show j / 8 < data.length by omega)]
    rfl
  · rw [List.getElem?_eq_none (show data.length ≤ j / 8 by omega), decide_eq_false (by omega)]
    rfl

/-- The slice of a JPEG stream, of the data followed by as many zero bits as the slice may reach into. -/
theorem streamValue_jpeg (hm : br.mode = .jpeg) (hdata : destuff (regionByte inp br) br.len.toNat = data) :
    streamValue inp br p n = bigEndianList data * 2 ^ (p + n) / 2 ^ (8 * data.length) % 2 ^ n := by
  have hslice := bitsMsbFirst_eq_slice (bigEndianList data * 2 ^ (p + n)) (8 * data.length + (p + n))
    (Nat.le_add_left (p + n) _)
  rw [Nat.add_sub_cancel] at hslice
  rw [← hslice]
  simp only [streamValue, hm]
  exact bitsMsbFirst_congr fun j _ hj => streamBit_jpeg hm hdata (Nat.lt_add_left _ hj)

end stream

/-! ### The commands on a bound cursor whose bits may be read -/

section command

variable {s : State} {n : Nat}

theorem brRead_ok (hf : s.fault = false) (hb : s.br.bound = true) (hr : CanRead s.br s.br.pos.toNat n) :
    exec (.brRead n) s = .next ((s.advance n).setRes (infoNat (streamValue s.mem.inp s.br s.br.pos.toNat n))) :=
  exec_of_body_ok (body := brReadBody n) rfl hf (by rw [brReadBody, if_pos hb, readBits_of_canRead hr]; rfl)

theorem brPeek_ok (hf : s.fault = false) (hb : s.br.bound = true) (hr : CanRead s.br s.br.pos.toNat n) :
    exec (.brPeek n) s = .next (s.setRes (infoNat (streamValue s.mem.inp s.br s.br.pos.toNat n))) :=
  exec_of_body_ok (body := brPeekBody n) rfl hf (by rw [brPeekBody, if_pos hb, peek_of_canRead hr])

theorem brSkip_ok (hf : s.fault = false) (hb : s.br.bound = true) (hr : CanRead s.br s.br.pos.toNat n) :
    exec (.brSkip n) s = .next (s.advance n) :=
  exec_of_body_ok (body := brSkipBody n) rfl hf (by rw [brSkipBody, if_pos hb, consume_of_canRead hr]; rfl)

/-- What the three commands do once the value at the cursor is known (R126 to R128). -/
theorem cursorCommands_ok (hf : s.fault = false) (hb : s.br.bound = true) (hr : CanRead s.br s.br.pos.toNat n) {v : Nat}
    (hv : streamValue s.mem.inp s.br s.br.pos.toNat n = v) :
    exec (.brRead n) s = .next ((s.advance n).setRes (BitVec.ofNat 32 v)) ∧
    exec (.brPeek n) s = .next (s.setRes (BitVec.ofNat 32 v)) ∧
    exec (.brSkip n) s = .next (s.advance n) ∧
    (s.advance n).br.pos.toNat = s.br.pos.toNat + n :=
  hv ▸ ⟨brRead_ok hf hb hr, brPeek_ok hf hb hr, brSkip_ok hf hb hr, BitReader.advance_pos hr⟩

end command

/-- Settles O20: bit `j` of the stream is bit `8 * len - 1 - j` of the region's integer. -/
theorem msbReadsSliceTheBigEndianRegion : Obligations.MsbReadsSliceTheBigEndianRegion := by
  intro s n hf hb hm _ _ h
  exact cursorCommands_ok hf hb (.inr ⟨by simp [hm], h⟩) (streamValue_msb hm h)

/-- Settles O21: bit `j` of the stream is bit `j` of the region's integer. -/
theorem lsbReadsSliceTheLittleEndianRegion : Obligations.LsbReadsSliceTheLittleEndianRegion := by
  intro s n hf hb hm _ _ h
  exact cursorCommands_ok hf hb (.inr ⟨by simp [hm], h⟩) (streamValue_lsb hm h)

/-- Settles O22: the stream up to the end of the read is the data followed by `pos + n` zero bits. -/
theorem jpegReadsSliceTheDataBytesThenZeros : Obligations.JpegReadsSliceTheDataBytesThenZeros := by
  intro s n hf hb hm _ _ h
  exact cursorCommands_ok hf hb (.inl ⟨hm, h⟩) (streamValue_jpeg hm rfl)

/-- Settles O25: the value is written and the cursor advanced, in either order. -/
theorem peekThenSkipIsRead : Obligations.PeekThenSkipIsRead := by
  intro s n hf hb hr
  have hskip (v : Word) : exec (.brSkip n) (s.setRes v) = .next ((s.advance n).setRes v) :=
    brSkip_ok (s := s.setRes v) hf hb hr
  exact ⟨_, _, brPeek_ok hf hb hr, hskip _, brRead_ok hf hb hr, hf⟩

/-! ### The faults -/

/-- What the bodies of `BR.READ`, `BR.PEEK` and `BR.SKIP` share: each raises on an unbound cursor, and where its bits may
not be read (R126 to R129). -/
theorem exists_cursorBody {i : Instr} {n : Nat} (hi : i = .brRead n ∨ i = .brPeek n ∨ i = .brSkip n) (s : State) :
    ∃ body : State → Except Raised State,
      (exec i s = whenAccepting s fun s => settle i.writes s (body s)) ∧
      (s.br.bound = false → body s = raiseAt s .readerUnbound 0) ∧
      (s.br.bound = true → n ≠ 0 → ¬ CanRead s.br s.br.pos.toNat n → body s = .error (bitsExhausted s.br)) := by
  rcases hi with rfl | rfl | rfl
  · refine ⟨brReadBody n, rfl, fun hb => if_neg (by simp [hb]), fun hb hn hr => ?_⟩
    rw [brReadBody, if_pos hb, readBits_of_not_canRead hn hr]
  · refine ⟨brPeekBody n, rfl, fun hb => if_neg (by simp [hb]), fun hb hn hr => ?_⟩
    rw [brPeekBody, if_pos hb, peek_of_not_canRead hn hr]
  · refine ⟨brSkipBody n, rfl, fun hb => if_neg (by simp [hb]), fun hb hn hr => ?_⟩
    rw [brSkipBody, if_pos hb, consume_of_not_canRead hn hr]

/-- Settles O24: each of the three raises at the cursor as it stands. -/
theorem cursorCommandsFaultWithoutAdvancing : Obligations.CursorCommandsFaultWithoutAdvancing := by
  intro s n i hf hn _ hi
  obtain ⟨body, hexec, hunbound, hexhausted⟩ := exists_cursorBody hi s
  exact ⟨fun hb => faultsWith_of_exec (exec_eq_takeFault hexec hf (hunbound hb)),
    fun hb hr => faultsWith_of_exec (exec_eq_takeFault hexec hf (hexhausted hb (Nat.ne_zero_of_lt hn) hr))⟩

/-- Settles O19: the region is inside `IN`, or it is not. -/
theorem brInitBindsOrFaults : Obligations.BrInitBindsOrFaults := by
  intro s mode hf
  have hinside := s.regionInside_iff
  refine ⟨fun h => ?inside, fun h => ?outside⟩
  case inside => exact exec_of_body_ok (body := brInitBody mode) rfl hf (if_pos (hinside.mpr h))
  case outside =>
    have houtside : ¬ s.regionInside = true := mt hinside.mp (Nat.not_le.mpr h)
    exact faultsWith_of_exec (exec_eq_takeFault (body := brInitBody mode) rfl hf (if_neg houtside))

end Sys2Proof.Machine
end

section
/-! The Huffman unit: the table `HU.BUILD` makes and its faults (R151 to R155), the symbol decode `HU.SYM` and the faults it
shares with `HU.DEC` (R154, R156). -/

namespace Sys2Proof.Machine

/-! ### The canonical table, seen through its entries -/

section table

variable {count : Nat → Nat} {value : Nat → Byte} {w l k : Nat}

/-- What `HU.BUILD` puts into its slot: all canonical codes, behind the longest of them (R155). -/
def canonicalSlot (count : Nat → Nat) (value : Nat → Byte) : HuffSlot :=
  { built := true, maxlen := longestCode count 16, lut := canonicalCodes count value 16 }

/-- A code claims every index it leads (R153): no code leads another. -/
theorem canonicalSlot_entry_of_code (hn : countSum count 16 ≠ 0) (hfits : ∀ l, 1 ≤ l → l ≤ 16 → lengthFits count l = true)
    (h1 : 1 ≤ l) (h16 : l ≤ 16) (hk : k < count (l - 1)) (hw : w >>> (longestCode count 16 - l) = firstCode count l + k) :
    (canonicalSlot count value).entry w = some ⟨firstCode count l + k, l, value (countSum count (l - 1) + k)⟩ := by
  have hmem : ⟨firstCode count l + k, l, value (countSum count (l - 1) + k)⟩ ∈ canonicalCodes count value 16 :=
    (mem_canonicalCodes ..).mpr ⟨l - 1, k, by omega, hk, by rw [Nat.sub_add_cancel h1]⟩
  exact HuffSlot.entry_of_mem rfl (canonical_wf count value hn hfits) hmem hw

/-- An index that no code leads is `INVALID` (R153). -/
theorem canonicalSlot_entry_of_no_code
    (hw : ∀ l k, 1 ≤ l → l ≤ 16 → k < count (l - 1) → w >>> (longestCode count 16 - l) ≠ firstCode count l + k) :
    (canonicalSlot count value).entry w = none := by
  refine Option.eq_none_iff_forall_ne_some.mpr fun e he => ?_
  obtain ⟨hmem, hlead⟩ := HuffSlot.entry_some he
  obtain ⟨l, k, hl, hk, rfl⟩ := (mem_canonicalCodes ..).mp hmem
  exact hw (l + 1) k (Nat.le_add_left 1 l) hl hk hlead

/-- The first code of the shortest length is 0. -/
theorem firstCode_of_counts_zero (h : ∀ i, i < l → count i = 0) : firstCode count (l + 1) = 0 := by
  induction l with
  | zero => exact firstCode_one count
  | succ l ih => rw [firstCode_succ, ih fun i hi => h i (by omega), h l (Nat.lt_succ_self l)]

/-- A specification with a code has a longest one. -/
theorem longestCode_of_countSum (hn : countSum count 16 ≠ 0) :
    1 ≤ longestCode count 16 ∧ longestCode count 16 ≤ 16 ∧ count (longestCode count 16 - 1) ≠ 0 ∧
      ∀ i, i < 16 → count i ≠ 0 → i + 1 ≤ longestCode count 16 := by
  obtain ⟨hle, hall, hsum, hlast⟩ := longestCode_spec count 16
  have h0 : longestCode count 16 ≠ 0 := mt hsum hn
  exact ⟨Nat.one_le_iff_ne_zero.mpr h0, hle, hlast h0, hall⟩

/-- The first code of all, which is 0, claims index 0. -/
theorem canonicalSlot_entry_zero (hn : countSum count 16 ≠ 0) (hfits : ∀ l, 1 ≤ l → l ≤ 16 → lengthFits count l = true) :
    (canonicalSlot count value).entry 0 ≠ none := by
  obtain ⟨h1, h16, hlast, -⟩ := longestCode_of_countSum hn
  have hex : ∃ i, count i ≠ 0 := ⟨_, hlast⟩
  have hshort : Nat.find hex ≤ longestCode count 16 - 1 := Nat.find_min' hex hlast
  have hfirst : firstCode count (Nat.find hex + 1) = 0 :=
    firstCode_of_counts_zero fun i hi => not_not.mp (Nat.find_min hex hi)
  have hentry := canonicalSlot_entry_of_code (value := value) (w := 0) hn hfits (Nat.le_add_left 1 (Nat.find hex)) (by omega)
    (Nat.pos_of_ne_zero (Nat.find_spec hex)) (by rw [hfirst, Nat.zero_shiftRight])
  simp [hentry]

end table

/-! ### HU.BUILD -/

section build

variable {s : State} {slot : Slot}

/-- A slot replaced holds what it is replaced by; that the others stay is `getElem_set_slot`. -/
theorem getElem_set_slot_self (hu : Vector HuffSlot Config.nSlot) (x : HuffSlot) : (hu.set slot.val x)[slot] = x :=
  Vector.getElem_set_self _

theorem not_anyShift {shift : Nat → Byte} {n : Nat} (h : ∀ k, k < n → shift k = 0#8) : ¬ anyShift shift n = true := by
  rw [anyShift_iff]
  rintro ⟨k, hk, hne⟩
  exact hne (h k hk)

theorem huBuildBody_of_empty (hn : countSum (codeCount s.mem.hts slot.val) 16 = 0) :
    huBuildBody slot s = raiseAt s .huffEmptyTable (infoNat slot.val) := if_pos hn

theorem huBuildBody_of_large (hn : 256 < countSum (codeCount s.mem.hts slot.val) 16) :
    huBuildBody slot s = raiseAt s .huffBadTable 0 :=
  (if_neg (Nat.ne_zero_of_lt hn)).trans (if_pos hn)

section counted

variable (hn : countSum (codeCount s.mem.hts slot.val) 16 ≠ 0) (hle : countSum (codeCount s.mem.hts slot.val) 16 ≤ 256)
include hn hle

theorem huBuildBody_of_shift
    (hshift : anyShift (codeShift s.mem.hts slot.val) (countSum (codeCount s.mem.hts slot.val) 16) = true) :
    huBuildBody slot s = raiseAt s .unsupported 2 :=
  (if_neg hn).trans ((if_neg (Nat.not_lt.mpr hle)).trans (if_pos hshift))

variable (hshift : ¬ anyShift (codeShift s.mem.hts slot.val) (countSum (codeCount s.mem.hts slot.val) 16) = true)
include hshift

theorem huBuildBody_of_misfit {l : Nat} (h1 : 1 ≤ l) (h16 : l ≤ 16)
    (hl : lengthFits (codeCount s.mem.hts slot.val) l = false)
    (hfirst : ∀ l', 1 ≤ l' → l' < l → lengthFits (codeCount s.mem.hts slot.val) l' = true) :
    huBuildBody slot s = raiseAt s .huffBadTable (infoNat l) := by
  simp only [huBuildBody, if_neg hn, if_neg (Nat.not_lt.mpr hle), if_neg hshift, assignCodes_error _ h1 h16 hl hfirst]

theorem huBuildBody_ok (hfits : ∀ l, 1 ≤ l → l ≤ 16 → lengthFits (codeCount s.mem.hts slot.val) l = true) :
    huBuildBody slot s = .ok
      { s with hu := s.hu.set slot.val (canonicalSlot (codeCount s.mem.hts slot.val) (codeSymbol s.mem.hts slot.val)) } := by
  simp only [huBuildBody, if_neg hn, if_neg (Nat.not_lt.mpr hle), if_neg hshift, assignCodes_ok _ hfits]
  rfl

end counted

/-- `HU.BUILD` clears the slot first, also for a build that faults (R155, R334). -/
theorem huBuild_eq_settle (hf : s.fault = false) :
    exec (.huBuild slot) s = .next (settle [] (s.unbuildSlot slot) (huBuildBody slot (s.unbuildSlot slot))) :=
  whenAccepting_of_ok hf fun s => settle [] (s.unbuildSlot slot) (huBuildBody slot (s.unbuildSlot slot))

/-- A build that ends well replaces its slot alone: that the slot was cleared first no longer shows. -/
theorem huBuild_ok (hf : s.fault = false) {x : HuffSlot}
    (hbody : huBuildBody slot (s.unbuildSlot slot) =
      .ok { (s.unbuildSlot slot) with hu := (s.unbuildSlot slot).hu.set slot.val x }) :
    exec (.huBuild slot) s = .next { s with hu := s.hu.set slot.val x } := by
  rw [huBuild_eq_settle hf, hbody, settle_ok, State.unbuildSlot_hu, Vector.set_set]
  rfl

/-- A build that raises leaves its slot not built (R334). -/
theorem huBuild_faults (hf : s.fault = false) {code : FaultCode} {info : Word}
    (hbody : huBuildBody slot (s.unbuildSlot slot) = raiseAt (s.unbuildSlot slot) code info) :
    FaultsWith (.huBuild slot) s code info s.br ∧
      ∀ t, exec (.huBuild slot) s = .next t → t.hu[slot].built = false := by
  have hexec : exec (.huBuild slot) s = .next (takeFault [] ⟨code, info⟩ (s.unbuildSlot slot)) := by
    rw [huBuild_eq_settle hf, hbody]
    rfl
  refine ⟨⟨_, hexec, rfl, rfl, rfl, rfl⟩, fun t ht => ?_⟩
  cases hexec.symm.trans ht
  rw [takeFault_hu, State.unbuildSlot_hu, getElem_set_slot_self, HuffSlot.unbuild_built]

end build

/-- Settles O27: the body of `HU.BUILD` makes its checks in this order, the slot already cleared. -/
theorem huBuildFaultsInOrder : Obligations.HuBuildFaultsInOrder := by
  intro s slot hf count n faults
  refine ⟨fun hn => ?empty, fun hn => ?large, fun hn hle ⟨k, hk, hne⟩ => ?shift,
    fun l hn hle hzero h1 h16 hl hfirst => ?misfit⟩
  case empty => exact huBuild_faults hf (huBuildBody_of_empty hn)
  case large => exact huBuild_faults hf (huBuildBody_of_large hn)
  case shift => exact huBuild_faults hf (huBuildBody_of_shift hn hle ((anyShift_iff ..).mpr ⟨k, hk, hne⟩))
  case misfit =>
    exact huBuild_faults hf (huBuildBody_of_misfit (s := s.unbuildSlot slot) hn hle (not_anyShift hzero) h1 h16 hl hfirst)

/-- Settles O26: the slot holds all canonical codes, none of which leads another. -/
theorem huBuildMakesTheCanonicalTable : Obligations.HuBuildMakesTheCanonicalTable := by
  intro s slot hf count n hn hle hzero hfits
  obtain ⟨h1, h16, hlast, hall⟩ := longestCode_of_countSum hn
  refine ⟨_, huBuild_ok hf (huBuildBody_ok (s := s.unbuildSlot slot) hn hle (not_anyShift hzero) hfits), ?_⟩
  dsimp only
  rw [getElem_set_slot_self]
  refine ⟨rfl, rfl, h1, h16, hlast, hall, fun w l k _ hl1 hl16 hk hw => ?code, fun w _ hw => ?invalid, ?zero⟩
  case code => exact ⟨_, canonicalSlot_entry_of_code hn hfits hl1 hl16 hk hw, rfl, rfl⟩
  case invalid => exact canonicalSlot_entry_of_no_code hw
  case zero => exact canonicalSlot_entry_zero hn hfits

/-! ### A symbol decode -/

section decode

variable {inp : Memory 8} {slot : Nat} {h : HuffSlot} {br : BitReader}

theorem huffSym_of_not_built (hb : h.built = false) : huffSym inp slot h br = .error ⟨⟨.huffNotBuilt, infoNat slot⟩, br⟩ := by
  simp [huffSym, hb]

theorem huffSym_of_unbound (hb : h.built = true) (hbd : br.bound = false) :
    huffSym inp slot h br = .error ⟨⟨.readerUnbound, 0⟩, br⟩ := by
  simp [huffSym, hb, hbd]

theorem huffSym_of_lsb (hb : h.built = true) (hbd : br.bound = true) (hm : br.mode = .lsb) :
    huffSym inp slot h br = .error ⟨⟨.unsupported, 1⟩, br⟩ := by
  simp [huffSym, hb, hbd, hm]

theorem huffSym_of_exhausted (hb : h.built = true) (hbd : br.bound = true) (hm : br.mode ≠ .lsb) (h1 : 1 ≤ h.maxlen)
    (hr : ¬ CanRead br br.pos.toNat h.maxlen) : huffSym inp slot h br = .error (bitsExhausted br) := by
  simp [huffSym, hb, hbd, hm, peek_of_not_canRead (Nat.ne_zero_of_lt h1) hr]

theorem huffSym_of_invalid (hb : h.built = true) (hbd : br.bound = true) (hm : br.mode ≠ .lsb)
    (hr : CanRead br br.pos.toNat h.maxlen) (he : h.entry (streamValue inp br br.pos.toNat h.maxlen) = none) :
    huffSym inp slot h br =
      .error ⟨⟨.huffInvalidCode, infoNat (streamValue inp br br.pos.toNat h.maxlen)⟩, br⟩ := by
  simp [huffSym, hb, hbd, hm, peek_of_canRead hr, he]

theorem huffDec_of_error {e : Raised} (hs : huffSym inp slot h br = .error e) : huffDec inp slot h br = .error e := by
  simp only [huffDec, hs]

end decode

/-! ### HU.SYM, and what it shares with HU.DEC -/

section command

variable {s : State} {slot : Slot}

theorem huSym_ok (hf : s.fault = false) {t : Nat} {br : BitReader}
    (h : huffSym s.mem.inp slot.val s.hu[slot] s.br = .ok (t, br)) :
    exec (.huSym slot) s = .next ((s.setBr br).setRes (infoNat t)) :=
  exec_of_body_ok (body := huSymBody slot) rfl hf (by rw [huSymBody, h])

/-- Both commands take the fault their symbol decode raises. -/
theorem symbolDecode_faultsWith {i : Instr} (hi : i = .huSym slot ∨ i = .huDec slot) (hf : s.fault = false)
    {code : FaultCode} {info : Word} {br : BitReader}
    (h : huffSym s.mem.inp slot.val s.hu[slot] s.br = .error ⟨⟨code, info⟩, br⟩) : FaultsWith i s code info br := by
  rcases hi with rfl | rfl
  · exact faultsWith_of_exec (exec_eq_takeFault rfl hf (body := huSymBody slot) (by rw [huSymBody, h]))
  · exact huDec_faultsWith hf (huffDec_of_error h)

end command

/-- Settles O28: the code is the only one that leads the bits at the cursor. -/
theorem huSymReturnsTheSymbolOfTheCode : Obligations.HuSymReturnsTheSymbolOfTheCode := by
  intro s slot e hf hbound hmode hbuilt hwf he hread hcode
  exact huSym_ok hf (huffSym_of_mem hbuilt hwf hbound hmode he hread hcode)

/-- Settles O30: a symbol decode makes its checks in this order, at the cursor as it stands. -/
theorem huffmanDecodesFaultInOrder : Obligations.HuffmanDecodesFaultInOrder := by
  intro s slot i hf hi w
  exact ⟨fun hb => symbolDecode_faultsWith hi hf (huffSym_of_not_built hb),
    fun hb hbd => symbolDecode_faultsWith hi hf (huffSym_of_unbound hb hbd),
    fun hb hbd hm => symbolDecode_faultsWith hi hf (huffSym_of_lsb hb hbd hm),
    fun hb hbd hm h1 hr => symbolDecode_faultsWith hi hf (huffSym_of_exhausted hb hbd hm h1 hr),
    fun hb hbd hm hr he => symbolDecode_faultsWith hi hf (huffSym_of_invalid hb hbd hm hr he)⟩

end Sys2Proof.Machine
end

section
/-! The runs of `DC.RUN` that unpack packed samples (R185), and what ends a run over Sony half-groups (R192, R194, R195). -/

namespace Sys2Proof.Machine

variable {s : State}

/-! ### Packed samples -/

section packed

variable {inp : Memory 8} {br0 : BitReader} {n b : Nat}

/-- The cursor bound at the start of its region stands `p` bits on, and `b` more may be read there (R129, R185). -/
theorem canRead_advance (hpos : br0.pos = 0) (hm : br0.mode ≠ .jpeg) {p : Nat} (h : p + b ≤ 8 * br0.len.toNat) :
    (br0.advance p).pos.toNat = p ∧ CanRead (br0.advance p) p b := by
  have hzero : br0.pos.toNat = 0 := by rw [hpos]; rfl
  have hread : CanRead br0 br0.pos.toNat p := .inr ⟨hm, by omega⟩
  exact ⟨by rw [BitReader.advance_pos hread, hzero, Nat.zero_add], .inr ⟨hm, h⟩⟩

/-- One packed sample: the bits at the cursor, not cut off, and the cursor behind them (R185). -/
theorem unpackPackedSample_ok (hpos : br0.pos = 0) (hm : br0.mode ≠ .jpeg) {k : Nat} (h : k * b + b ≤ 8 * br0.len.toNat)
    (m : Memory 16) :
    unpackPackedSample inp b k (m, br0.advance (k * b)) =
      .ok (m.write k (BitVec.ofNat 16 (streamValue inp br0 (k * b) b)), br0.advance ((k + 1) * b)) := by
  obtain ⟨hp, hread⟩ := canRead_advance hpos hm h
  have hread' : readBits inp (br0.advance (k * b)) b =
      .ok (streamValue inp br0 (k * b) b, (br0.advance (k * b)).advance b) := by
    rw [readBits_of_canRead (by rwa [hp]), hp]
    rfl
  simp only [unpackPackedSample, hread', BitReader.advance_advance, Nat.succ_mul]

/-- A run of packed samples inside the region: slice after slice, the cursor behind the last (R185). -/
theorem unpackPackedLoop_ok (hpos : br0.pos = 0) (hm : br0.mode ≠ .jpeg) (h : n * b ≤ 8 * br0.len.toNat) (m0 : Memory 16) :
    loop n (unpackPackedSample inp b) (m0, br0) =
      .ok (repeatTimes n (fun k m => m.write k (BitVec.ofNat 16 (streamValue inp br0 (k * b) b))) m0, br0.advance (n * b)) := by
  induction n with
  | zero => rw [Nat.zero_mul, BitReader.advance_zero]; rfl
  | succ n ih =>
    rw [Nat.succ_mul] at h
    rw [loop_succ, ih (by omega), repeatTimes_succ]
    exact unpackPackedSample_ok hpos hm h _

end packed

/-- The cursor a packed run is made with: bound to the region, in the order `UNPACK_CFG` chooses (R182, R185). -/
def packedCursor (g : Regs) : BitReader := bindCursor (if g.unpackLittle then .lsb else .msb) g

theorem packedCursor_mode_ne (g : Regs) : (packedCursor g).mode ≠ .jpeg := by
  unfold packedCursor
  split <;> simp

/-- The cursor a packed run of `p` bits leaves, unbound (R180, R185). -/
theorem packedCursor_advance_unbind (g : Regs) (p : Nat) :
    ((packedCursor g).advance p).unbind =
      { bound := false, mode := if g.unpackLittle then .lsb else .msb, base := g.inOff, len := g.inLen
        pos := BitVec.ofNat 64 p } := by
  simp [packedCursor, BitReader.advance, BitReader.unbind, bindCursor]

/-- `Unpack` on a packed region of the right size (R185). -/
theorem unpack_packed_ok (hb : s.regs.unpackBits = 12 ∨ s.regs.unpackBits = 14 ∨ s.regs.unpackBits = 16)
    (ha : s.regs.unpackWordAligned = false) (hl : 8 * s.regs.inLen.toNat = s.regs.w * s.regs.h * s.regs.unpackBits)
    (br : BitReader) :
    unpack s br = .ok (repeatTimes (s.regs.w * s.regs.h) (fun k m => m.write k
        (BitVec.ofNat 16 (streamValue s.mem.inp (packedCursor s.regs) (k * s.regs.unpackBits) s.regs.unpackBits))) s.mem.mos,
      (packedCursor s.regs).advance (s.regs.w * s.regs.h * s.regs.unpackBits)) :=
  calc unpack s br
    _ = unpackPacked s br := (if_neg (by omega)).trans (if_neg (by simp [ha]))
    _ = loop (s.regs.w * s.regs.h) (unpackPackedSample s.mem.inp s.regs.unpackBits) (s.mem.mos, packedCursor s.regs) :=
      if_neg (not_not.mpr hl)
    _ = _ := unpackPackedLoop_ok rfl (packedCursor_mode_ne _) (Nat.le_of_eq hl.symm) _

/-- The value of a packed sample as a slice of the region read as one integer (R131, R185). -/
theorem streamValue_packedCursor {p b : Nat} (h : p + b ≤ 8 * s.regs.inLen.toNat) :
    streamValue s.mem.inp (packedCursor s.regs) p b =
      if s.regs.unpackLittle then littleEndian s.regionBytes s.regs.inLen.toNat / 2 ^ p % 2 ^ b
      else bigEndian s.regionBytes s.regs.inLen.toNat / 2 ^ (8 * s.regs.inLen.toNat - (p + b)) % 2 ^ b := by
  unfold packedCursor
  split
  · exact streamValue_lsb rfl h
  · exact streamValue_msb rfl h

/-- Settles O34: the slices are written one after the other, sample `k` from bit `k * b` on, and none is cut off. -/
theorem packedSamplesAreSlicesOfTheRegion : Obligations.PackedSamplesAreSlicesOfTheRegion := by
  intro s hf hcode hfit hin g n b hb ha hl
  have hc : codecOf s.regs.compression.toNat = some unpack := by rw [hcode]; rfl
  refine ⟨_, dcRun_ok hc hf hfit hin (unpack_packed_ok hb ha hl _), ?_, fun k hk => ?_, fun k hk => ?_⟩
  · exact congrArg (fun br => State.setBr br _) (packedCursor_advance_unbind g (n * b))
  · have hbits : k * b + b ≤ n * b := by rw [← Nat.succ_mul]; exact Nat.mul_le_mul_right b hk
    have hwide : 2 ^ b ≤ 2 ^ 16 := Nat.pow_le_pow_right Nat.two_pos (by omega)
    have hv := streamValue_lt s.mem.inp (packedCursor s.regs) (k * b) b
    refine (congrArg BitVec.toNat ((read_repeatTimes_write _ _ k _).trans (if_pos hk))).trans ?_
    rw [Nat.succ_mul, ← hl]
    refine (BitVec.toNat_ofNat _ _).trans ((Nat.mod_eq_of_lt (Nat.lt_of_lt_of_le hv hwide)).trans ?_)
    exact streamValue_packedCursor (hbits.trans_eq hl.symm)
  · exact (read_repeatTimes_write _ _ k _).trans (if_neg (Nat.not_lt.mpr hk))

/-! ### Sony -/

section sony

variable {br : BitReader} {k : Nat} {e : Raised}

/-- The first `n` half-groups of a group, when they are good and look up what the curve has, raise nothing. -/
theorem halfGroups_ok {groups r g n : Nat} (h : ∀ half, half < n → SonyLegal s br ((r * groups + g) * 2 + half))
    (m : Memory 16) : ∃ m', loop n (sonyHalfGroup s br groups r g) m = .ok m' := by
  refine (loop_total (P := fun _ _ => True) trivial fun half hh m _ => ?_).imp fun _ h => h.1
  obtain ⟨m', hm', -⟩ := sonyHalfGroup_ok rfl (h half hh).1 (h half hh).2 m
  exact ⟨m', hm', trivial⟩

/-- The half-groups come in the order of their numbers: the first that raises ends the run (R190, R191). -/
theorem sonyLoop_error (hw : s.regs.w % 32 = 0) (hk : k < s.regs.w / 16 * s.regs.h) (hlegal : ∀ k', k' < k → SonyLegal s br k')
    (hraise : ∀ r g half m, k = (r * (s.regs.w / 32) + g) * 2 + half →
      sonyHalfGroup s br (s.regs.w / 32) r g half m = .error e) :
    loop s.regs.h (fun r => loop (s.regs.w / 32) fun g => loop 2 (sonyHalfGroup s br (s.regs.w / 32) r g)) s.mem.mos =
      .error e := by
  rw [halfGroups_eq hw, Nat.mul_comm (s.regs.w / 32)] at hk
  obtain ⟨groups, hgroups⟩ : ∃ groups, s.regs.w / 32 = groups := ⟨_, rfl⟩
  rw [hgroups] at hk hraise ⊢
  have hpos : 0 < groups := Nat.pos_of_ne_zero (by rintro rfl; omega)
  have hr : k / 2 / groups < s.regs.h := Nat.div_lt_of_lt_mul (by rw [Nat.mul_comm]; omega)
  have hg : k / 2 % groups < groups := Nat.mod_lt _ hpos
  have hsplit : k / 2 / groups * groups + k / 2 % groups = k / 2 := Nat.div_add_mod' _ _
  refine rows_error (P := fun _ _ _ => True) (f := fun r g => loop 2 (sonyHalfGroup s br groups r g)) (start := fun _ m => m)
    trivial hr hg (fun _ _ _ _ => trivial) (fun r g m hg' hbefore _ => ?before) fun m _ => ?here
  case before =>
    have hlt : r * groups + g < k / 2 := by
      rcases hbefore with hrow | ⟨rfl, hcol⟩
      · have := index_lt hrow hg'
        rw [Nat.mul_comm groups] at this
        omega
      · omega
    exact (halfGroups_ok (fun half hh => hlegal _ (by omega)) m).imp fun _ h => ⟨h, trivial⟩
  case here =>
    obtain ⟨m', hm'⟩ := halfGroups_ok (groups := groups) (r := k / 2 / groups) (g := k / 2 % groups) (n := k % 2)
      (fun half hh => hlegal _ (by omega)) m
    exact loop_error hm' (Nat.mod_lt k Nat.two_pos) (hraise _ _ _ m' (by omega))

/-- `Sony` past its checks, when a half-group raises (R190). -/
theorem sony_error (hw : s.regs.w % 32 = 0) (hl : s.regs.inLen.toNat = s.regs.w * s.regs.h)
    (hc : s.regs.curveEntries ≤ Config.curveSize) (hk : k < s.regs.w / 16 * s.regs.h)
    (hlegal : ∀ k', k' < k → SonyLegal s (bindCursor .lsb s.regs) k')
    (hraise : ∀ r g half m, k = (r * (s.regs.w / 32) + g) * 2 + half →
      sonyHalfGroup s (bindCursor .lsb s.regs) (s.regs.w / 32) r g half m = .error e) (br : BitReader) :
    sony s br = .error e :=
  (if_neg (not_not.mpr hw)).trans ((if_neg (not_not.mpr hl)).trans ((if_neg (Nat.not_lt.mpr hc)).trans
    (congrArg (Except.map fun m => (m, bindCursor .lsb s.regs)) (sonyLoop_error hw hk hlegal hraise))))

end sony

/-- Settles O37: a bad header raises before any sample, and the first index beyond the curve raises at its sample. -/
theorem badSonyHalfGroupsFault : Obligations.BadSonyHalfGroupsFault := by
  intro s k hf hcode hfit hin g w h br val hw hl hcurve hk hlegal
  have hc : codecOf s.regs.compression.toNat = some sony := by rw [hcode]; rfl
  have raises {code : FaultCode} {info : Word} (hraise : ∀ r gr half m, k = (r * (w / 32) + gr) * 2 + half →
      sonyHalfGroup s br (w / 32) r gr half m = .error ⟨⟨code, info⟩, br⟩) : FaultsWith .dcRun s code info br :=
    dcRun_faultsWith hf (dcRunBody_of_codec_error hc hfit hin (sony_error hw hl hcurve hk hlegal hraise _))
  exact ⟨fun hbad => raises fun _ _ _ m hn => sonyHalfGroup_bad hn hbad m,
    fun hgood i hi hbeyond hinside => raises fun _ _ _ m hn => sonyHalfGroup_bounds hn hgood hi hbeyond hinside m⟩

end Sys2Proof.Machine
end

section
/-! The runs of `DC.RUN` over Nikon samples (R200 to R206): the working state that a recurrence describes, sample by sample,
to the end of the mosaic or to the first sample that raises. -/

namespace Sys2Proof.Machine

/-! ### The predictors -/

/-- The predictor of a sample (R204): the vertical one in the first two columns, else the horizontal one. -/
def NikonRun.predictor (st : NikonRun) (row col : Nat) : Int :=
  if col < 2 then st.vertical row col else st.horizontal col

/-- A predicted value kept for the samples it predicts (R204). -/
def NikonRun.setPredictors (st : NikonRun) (row col : Nat) (t : Int) : NikonRun :=
  (if col < 2 then st.setVertical row col t else st).setHorizontal col t

theorem fitsI32_iff {v : Int} : fitsI32 v = true ↔ -(2 ^ 31) ≤ v ∧ v < 2 ^ 31 := by
  rw [fitsI32, decide_eq_true_iff, Int.le_sub_one_iff]

theorem nikonPredict_eq (row col : Nat) (d : Int) (st : NikonRun) :
    nikonPredict row col d st =
      if fitsI32 (st.predictor row col + d) then .ok (st.setPredictors row col (st.predictor row col + d))
      else .error ⟨⟨.arithOverflow, 0⟩, st.br⟩ := by
  unfold nikonPredict NikonRun.predictor NikonRun.setPredictors
  split <;> rfl

section setPredictors

variable (st : NikonRun) (row col : Nat) (t : Int)

@[simp] theorem NikonRun.setPredictors_mos : (st.setPredictors row col t).mos = st.mos := by
  unfold setPredictors; split <;> simp
@[simp] theorem NikonRun.setPredictors_br : (st.setPredictors row col t).br = st.br := by
  unfold setPredictors; split <;> simp
@[simp] theorem NikonRun.setPredictors_cur : (st.setPredictors row col t).cur = st.cur := by
  unfold setPredictors; split <;> simp
@[simp] theorem NikonRun.setPredictors_rng : (st.setPredictors row col t).rng = st.rng := by
  unfold setPredictors; split <;> simp

@[simp] theorem NikonRun.setPredictors_horizontal (col' : Nat) :
    (st.setPredictors row col t).horizontal col' = if col' % 2 = col % 2 then t else st.horizontal col' := by
  unfold setPredictors; split <;> simp [setHorizontal_horizontal']

theorem NikonRun.setPredictors_vertical (row' : Nat) {col' : Nat} (hc : col' < 2) :
    (st.setPredictors row col t).vertical row' col' =
      if row' % 2 = row % 2 ∧ col' = col then t else st.vertical row' col' := by
  unfold setPredictors
  split
  · rw [setHorizontal_vertical, setVertical_vertical _ _ _ _ ‹_› hc]
  · rw [setHorizontal_vertical, if_neg (by omega)]

end setPredictors

/-- There are two horizontal predictors, for the even and the odd columns (R204). -/
theorem NikonRun.horizontal_congr (st : NikonRun) {col col' : Nat} (h : col' % 2 = col % 2) :
    st.horizontal col' = st.horizontal col := by
  unfold horizontal; rw [h]

/-! ### The recurrence -/

/-- The slot in use in a row (R203). -/
def Regs.nikonSlotAt (g : Regs) (row : Nat) : Slot :=
  if g.nikonSplitEnabled ∧ g.nikonSplit.toNat ≤ row then g.nikonSlotB else g.nikonSlotA

/-- The register that predicts a sample of the first two rows and columns (R200). -/
def Regs.nikonSeed (g : Regs) (row col : Nat) : Int :=
  if row = 0 then (if col = 0 then g.vpred00.toInt else g.vpred01.toInt)
  else (if col = 0 then g.vpred10.toInt else g.vpred11.toInt)

/-- What a recurrence says of every sample of a run: by row and column its difference and its predicted value, by its index
the cursor before it, the value stored, and the dither state before it. -/
structure NikonTrace where
  diff : Nat → Nat → Int
  pred : Nat → Nat → Int
  br : Nat → BitReader
  out : Nat → Sample
  rng : Nat → Word

namespace NikonTrace

/-- What predicts a sample from above: the value two rows before, else a `VPRED` register (R204). -/
def above (T : NikonTrace) (g : Regs) (row col : Nat) : Int :=
  if 2 ≤ row then T.pred (row - 2) col else g.nikonSeed row col

/-- What predicts a sample: the value two columns before, else the one from above (R204). -/
def base (T : NikonTrace) (g : Regs) (row col : Nat) : Int :=
  if 2 ≤ col then T.pred row (col - 2) else T.above g row col

/-- The sample at a position follows the recurrence, and its predicted value lies inside the curve (R202 to R205). -/
def Follows (T : NikonTrace) (s : State) (row col : Nat) : Prop :=
  huffDec s.mem.inp (s.regs.nikonSlotAt row).val s.hu[s.regs.nikonSlotAt row] (T.br (row * s.regs.w + col)) =
    .ok (T.diff row col, T.br (row * s.regs.w + col + 1)) ∧
  T.pred row col = T.diff row col + T.base s.regs row col ∧
  0 ≤ T.pred row col ∧ T.pred row col < s.regs.curveEntries ∧
  ditherStep s.params.dither s.mem.curve s.regs.curveEntries (T.pred row col).toNat (T.rng (row * s.regs.w + col)) =
    (T.out (row * s.regs.w + col), T.rng (row * s.regs.w + col + 1))

/-- The trace begins as a run does (R200). -/
def Starts (T : NikonTrace) (s : State) : Prop :=
  T.br 0 = bindCursor .msb s.regs ∧ T.rng 0 = ditherSeed s.params.dither

/-- A run stands before the sample at a position, as the trace says: of its own row and the next the vertical predictors, of
the last two samples the horizontal ones. -/
structure Reaches (T : NikonTrace) (s : State) (row col : Nat) (st : NikonRun) : Prop where
  cur : st.cur = s.regs.nikonSlotAt row
  br : st.br = T.br (row * s.regs.w + col)
  rng : st.rng = T.rng (row * s.regs.w + col)
  stored : ∀ k, k < row * s.regs.w + col → st.mos.read k = T.out k
  beyond : ∀ k, s.regs.w * s.regs.h ≤ k → st.mos.read k = s.mem.mos.read k
  vertical : ∀ c, c < 2 → c < s.regs.w → st.vertical row c = if c < col then T.pred row c else T.above s.regs row c
  verticalNext : ∀ c, c < 2 → c < s.regs.w → st.vertical (row + 1) c = T.above s.regs (row + 1) c
  horizontal : ∀ c, c < col → col ≤ c + 2 → st.horizontal c = T.pred row c

end NikonTrace

section run

variable {s : State} {T : NikonTrace} {row col : Nat} {st : NikonRun}

/-! ### One sample -/

theorem NikonTrace.Reaches.predictor_eq (h : T.Reaches s row col st) (hc : col < s.regs.w) :
    st.predictor row col = T.base s.regs row col := by
  unfold NikonRun.predictor NikonTrace.base
  by_cases hcol : col < 2
  · rw [if_pos hcol, if_neg (by omega), h.vertical col hcol hc, if_neg (Nat.lt_irrefl col)]
  · rw [if_neg hcol, if_pos (by omega), ← h.horizontal (col - 2) (by omega) (by omega)]
    exact st.horizontal_congr (by omega)

/-- A sample whose difference cannot be decoded (R202). -/
theorem NikonTrace.Reaches.sample_of_huffDec_error (h : T.Reaches s row col st) {e : Raised}
    (hd : huffDec s.mem.inp (s.regs.nikonSlotAt row).val s.hu[s.regs.nikonSlotAt row] (T.br (row * s.regs.w + col)) = .error e) :
    nikonSample s row col st = .error e := by
  rw [nikonSample_eq h.cur h.br, hd]

/-- A sample whose difference is decoded: the predicted value must fit `i32`, and is looked up (R202, R204). -/
theorem NikonTrace.Reaches.sample_eq (h : T.Reaches s row col st) (hc : col < s.regs.w) {d : Int} {br : BitReader}
    (hd : huffDec s.mem.inp (s.regs.nikonSlotAt row).val s.hu[s.regs.nikonSlotAt row] (T.br (row * s.regs.w + col)) =
      .ok (d, br)) :
    nikonSample s row col st =
      if fitsI32 (d + T.base s.regs row col) then
        nikonLinearize s (row * s.regs.w + col) (d + T.base s.regs row col)
          (NikonRun.setPredictors { st with br := br } row col (d + T.base s.regs row col))
      else .error ⟨⟨.arithOverflow, 0⟩, br⟩ := by
  have hp : NikonRun.predictor { st with br := br } row col + d = d + T.base s.regs row col := by
    rw [← h.predictor_eq hc, Int.add_comm]; rfl
  rw [nikonSample_eq h.cur h.br, hd]
  simp only [nikonPredict_eq, hp]
  by_cases hfit : fitsI32 (d + T.base s.regs row col) = true
  · simp only [hfit, if_true, NikonRun.setPredictors_horizontal]
  · simp only [hfit, Bool.false_eq_true, if_false]

/-- The working state after a sample: its value stored and kept for the samples it predicts, the cursor and the dither state
moved on. -/
def NikonTrace.next (T : NikonTrace) (s : State) (row col : Nat) (st : NikonRun) : NikonRun :=
  { NikonRun.setPredictors { st with br := T.br (row * s.regs.w + col + 1) } row col (T.pred row col) with
    mos := st.mos.write (row * s.regs.w + col) (T.out (row * s.regs.w + col))
    rng := T.rng (row * s.regs.w + col + 1) }

theorem NikonTrace.Reaches.sample_ok (h : T.Reaches s row col st) (hc : col < s.regs.w)
    (hcurve : s.regs.curveEntries ≤ Config.curveSize) (hf : T.Follows s row col) :
    nikonSample s row col st = .ok (T.next s row col st) := by
  obtain ⟨hdec, hpred, hnonneg, hbelow, hdither⟩ := hf
  have hsize : s.regs.curveEntries ≤ 65536 := hcurve
  have hfit : fitsI32 (T.pred row col) = true := fitsI32_iff.mpr ⟨by omega, by omega⟩
  rw [h.sample_eq hc hdec, ← hpred, if_pos hfit]
  refine (if_neg (by omega)).trans ?_
  rw [← h.rng] at hdither
  simp only [NikonRun.setPredictors_mos, NikonRun.setPredictors_rng, hdither]
  rfl

theorem NikonTrace.next_vertical (row' : Nat) {c : Nat} (hc : c < 2) : (T.next s row col st).vertical row' c =
    if row' % 2 = row % 2 ∧ c = col then T.pred row col else st.vertical row' c :=
  NikonRun.setPredictors_vertical { st with br := T.br (row * s.regs.w + col + 1) } row col (T.pred row col) row' hc

theorem NikonTrace.next_horizontal (c : Nat) : (T.next s row col st).horizontal c =
    if c % 2 = col % 2 then T.pred row col else st.horizontal c :=
  NikonRun.setPredictors_horizontal { st with br := T.br (row * s.regs.w + col + 1) } row col (T.pred row col) c

theorem NikonTrace.Reaches.next (h : T.Reaches s row col st) (hr : row < s.regs.h) (hc : col < s.regs.w) :
    T.Reaches s row (col + 1) (T.next s row col st) where
  cur := (NikonRun.setPredictors_cur _ row col _).trans h.cur
  br := NikonRun.setPredictors_br _ row col _
  rng := rfl
  stored k hk := by
    refine (Memory.read_write _ _ _ _).trans ?_
    split
    · rw [‹k = _›]
    · exact h.stored k (by omega)
  beyond k hk := by
    have := index_lt hr hc
    exact (Memory.read_write_ne _ _ (by omega)).trans (h.beyond k hk)
  vertical c hc2 hcw := by
    rw [NikonTrace.next_vertical row hc2, h.vertical c hc2 hcw]
    by_cases heq : c = col
    · subst heq; simp
    · rw [if_neg (by simp [heq])]
      exact if_congr (by omega) rfl rfl
  verticalNext c hc2 hcw := by
    rw [NikonTrace.next_vertical _ hc2, if_neg (by omega), h.verticalNext c hc2 hcw]
  horizontal c hlt hle := by
    rw [NikonTrace.next_horizontal]
    by_cases heq : c = col
    · subst heq; simp
    · rw [if_neg (by omega), h.horizontal c (by omega) (by omega)]

/-! ### Rows -/

/-- The switch of slots at the start of a row (R203). -/
def nikonSwitch (s : State) (row : Nat) (st : NikonRun) : NikonRun :=
  if s.regs.nikonSplitEnabled && row == s.regs.nikonSplit.toNat then { st with cur := s.regs.nikonSlotB } else st

theorem nikonRow_eq (s : State) :
    nikonRow s = fun row st => loop s.regs.w (nikonSample s row) (nikonSwitch s row st) := rfl

/-- The switch changes the slot in use and nothing else. -/
theorem nikonSwitch_eq (s : State) (row : Nat) (st : NikonRun) :
    nikonSwitch s row st = { st with cur := (nikonSwitch s row st).cur } := by
  unfold nikonSwitch; split <;> rfl

theorem nikonSwitch_cur : (nikonSwitch s row st).cur =
    if s.regs.nikonSplitEnabled ∧ s.regs.nikonSplit.toNat = row then s.regs.nikonSlotB else st.cur := by
  unfold nikonSwitch
  simp only [Bool.and_eq_true, beq_iff_eq, eq_comm (a := row)]
  split <;> rfl

theorem nikonSwitch_cur_zero (h : st.cur = s.regs.nikonSlotA) : (nikonSwitch s 0 st).cur = s.regs.nikonSlotAt 0 := by
  rw [nikonSwitch_cur, h, Regs.nikonSlotAt]
  exact if_congr (by rw [Nat.le_zero]) rfl rfl

theorem nikonSwitch_cur_succ (h : st.cur = s.regs.nikonSlotAt row) :
    (nikonSwitch s (row + 1) st).cur = s.regs.nikonSlotAt (row + 1) := by
  rw [nikonSwitch_cur, h]
  unfold Regs.nikonSlotAt
  by_cases hsplit : s.regs.nikonSplitEnabled ∧ s.regs.nikonSplit.toNat ≤ row + 1
  · rw [if_pos hsplit]
    by_cases hnow : s.regs.nikonSplit.toNat = row + 1
    · rw [if_pos ⟨hsplit.1, hnow⟩]
    · rw [if_neg fun h => hnow h.2, if_pos ⟨hsplit.1, by omega⟩]
  · rw [if_neg hsplit, if_neg fun h => hsplit ⟨h.1, h.2.le⟩, if_neg fun h => hsplit ⟨h.1, Nat.le_succ_of_le h.2⟩]

theorem NikonTrace.Reaches.start (h : T.Starts s) : T.Reaches s 0 0 (nikonSwitch s 0 (nikonStart s)) := by
  obtain ⟨hbr, hrng⟩ := h
  have hcur := nikonSwitch_cur_zero (s := s) (st := nikonStart s) rfl
  rw [nikonSwitch_eq] at hcur ⊢
  refine ⟨hcur, ?_, ?_, fun k hk => ?_, fun _ _ => rfl, fun c hc _ => ?_, fun c hc _ => ?_, fun c hc => ?_⟩
  · rw [Nat.zero_mul]; exact hbr.symm
  · rw [Nat.zero_mul]; exact hrng.symm
  · omega
  · obtain rfl | rfl : c = 0 ∨ c = 1 := by omega
    · rfl
    · rfl
  · obtain rfl | rfl : c = 0 ∨ c = 1 := by omega
    · rfl
    · rfl
  · omega

theorem NikonTrace.Reaches.newRow (h : T.Reaches s row s.regs.w st) :
    T.Reaches s (row + 1) 0 (nikonSwitch s (row + 1) st) := by
  have hcur := nikonSwitch_cur_succ h.cur
  have hindex : (row + 1) * s.regs.w + 0 = row * s.regs.w + s.regs.w := Nat.succ_mul _ _
  rw [nikonSwitch_eq] at hcur ⊢
  refine ⟨hcur, ?_, ?_, fun k hk => ?_, h.beyond, fun c hc hcw => ?_, fun c hc hcw => ?_, fun c hc => ?_⟩
  · rw [hindex]; exact h.br
  · rw [hindex]; exact h.rng
  · exact h.stored k (by omega)
  · rw [if_neg (Nat.not_lt_zero c)]
    exact h.verticalNext c hc hcw
  · rw [NikonTrace.above, if_pos (by omega), show row + 1 + 1 - 2 = row by omega]
    refine Eq.trans ?_ ((h.vertical c hc hcw).trans (if_pos hcw))
    unfold NikonRun.vertical
    rw [show (row + 1 + 1) % 2 = row % 2 by omega]
  · omega

/-! ### The run -/

/-- `Nikon` past its checks (R202). -/
theorem nikon_of_checks (ha : s.hu[s.regs.nikonSlotA].built = true)
    (hb : s.regs.nikonSplitEnabled = true → s.hu[s.regs.nikonSlotB].built = true)
    (hcurve : s.regs.curveEntries ≤ Config.curveSize) (br : BitReader) :
    nikon s br = (loop s.regs.h (nikonRow s) (nikonStart s)).map fun st => (st.mos, st.br) := by
  have hb' : ¬(s.regs.nikonSplitEnabled && !s.hu[s.regs.nikonSlotB].built) = true := by simpa using hb
  simp only [nikon, ha, Bool.not_true, Bool.false_eq_true, if_false, if_neg hb', if_neg (Nat.not_lt.mpr hcurve)]

/-- A run whose every sample follows the trace. -/
theorem nikonLoop_ok (h0 : T.Starts s) (hcurve : s.regs.curveEntries ≤ Config.curveSize)
    (hf : ∀ row col, row < s.regs.h → col < s.regs.w → T.Follows s row col) :
    ∃ st, loop s.regs.h (nikonRow s) (nikonStart s) = .ok st ∧ T.Reaches s s.regs.h 0 (nikonSwitch s s.regs.h st) := by
  rw [nikonRow_eq]
  exact rows_total (NikonTrace.Reaches.start h0) (fun _ _ _ h => h.newRow) fun row col st hr hc h =>
    ⟨_, h.sample_ok hc hcurve (hf row col hr hc), h.next hr hc⟩

/-- A run whose samples follow the trace up to one that raises. -/
theorem nikonLoop_error (h0 : T.Starts s) (hcurve : s.regs.curveEntries ≤ Config.curveSize) {row0 col0 : Nat}
    (hr : row0 < s.regs.h) (hc : col0 < s.regs.w)
    (hf : ∀ row col, col < s.regs.w → row * s.regs.w + col < row0 * s.regs.w + col0 → T.Follows s row col) {e : Raised}
    (hraise : ∀ st, T.Reaches s row0 col0 st → nikonSample s row0 col0 st = .error e) :
    loop s.regs.h (nikonRow s) (nikonStart s) = .error e := by
  rw [nikonRow_eq]
  refine rows_error (NikonTrace.Reaches.start h0) hr hc (fun _ _ _ h => h.newRow) (fun row col st hcol hbefore h => ?_) hraise
  have hindex : row * s.regs.w + col < row0 * s.regs.w + col0 := by
    rcases hbefore with hrow | ⟨rfl, hlt⟩
    · have := index_lt hrow hcol
      rw [Nat.mul_comm s.regs.w] at this
      omega
    · omega
  exact ⟨_, h.sample_ok hcol hcurve (hf row col hcol hindex), h.next (by omega) hcol⟩

end run

/-- Settles O38: a run that follows the recurrence stands before every sample as the trace says, and at last past them all. -/
theorem nikonSamplesFollowTheRecurrence : Obligations.NikonSamplesFollowTheRecurrence := by
  intro s d p br out rng hf hcode hfit hin g w h slot seed ha hb hcurve hbr hrng hfollow
  have hc : codecOf s.regs.compression.toNat = some nikon := by rw [hcode]; rfl
  obtain ⟨st, hst, hend⟩ := nikonLoop_ok (T := ⟨d, p, br, out, rng⟩) ⟨hbr, hrng⟩ hcurve hfollow
  have hrun : nikon s s.br.unbind = .ok (st.mos, st.br) := by rw [nikon_of_checks ha hb hcurve, hst]; rfl
  rw [nikonSwitch_eq] at hend
  have hlast : st.br = br (w * h) := hend.br.trans (by rw [Nat.add_zero, Nat.mul_comm]; rfl)
  refine ⟨_, dcRun_ok hc hf hfit hin hrun, by rw [hlast]; rfl, fun row col hr hcol => ?_, hend.beyond⟩
  have hread : st.mos.read (row * w + col) = out (row * w + col) :=
    hend.stored _ ((index_lt hr hcol).trans_eq (Nat.mul_comm _ _))
  obtain ⟨-, -, -, -, hdither⟩ := hfollow row col hr hcol
  refine ⟨hread, fun hoff => hread.trans ?_⟩
  rw [hoff] at hdither
  exact (congrArg Prod.fst hdither).symm

/-- A fault of `HU.DEC` is the one its difference decode raises (R157). -/
theorem huffDec_error_of_faultsWith {s : State} {slot : Slot} (hf : s.fault = false) {code : FaultCode} {info : Word}
    {br : BitReader} (h : FaultsWith (.huDec slot) s code info br) :
    ∃ c : FaultCode, c.number = code.number ∧ huffDec s.mem.inp slot.val s.hu[slot] s.br = .error ⟨⟨c, info⟩, br⟩ := by
  obtain ⟨t, hexec, hfault, hcode, hinfo, hbr⟩ := h
  cases hd : huffDec s.mem.inp slot.val s.hu[slot] s.br with
  | ok x =>
    rw [huDec_ok hf hd] at hexec
    cases hexec
    exact absurd (hf.symm.trans hfault) Bool.false_ne_true
  | error e =>
    rw [exec_eq_takeFault (body := huDecBody slot) rfl hf (by rw [huDecBody, hd])] at hexec
    cases hexec
    subst hinfo hbr
    exact ⟨e.cause.code, hcode, rfl⟩

/-- Settles O59: the run stands before the sample as the recurrence says, and the sample's first check that fails raises. -/
theorem nikonFaultsAtTheFirstBadSample : Obligations.NikonFaultsAtTheFirstBadSample := by
  intro s d p br out rng row0 col0 hf hcode hfit hin g w h slot seed base here ha hb hcurve hbr hrng hr hcol hfollow
  have hc : codecOf s.regs.compression.toNat = some nikon := by rw [hcode]; rfl
  let T : NikonTrace := ⟨d, p, br, out, rng⟩
  have raises {code : FaultCode} {info : Word} {br' : BitReader}
      (hraise : ∀ st, T.Reaches s row0 col0 st → nikonSample s row0 col0 st = .error ⟨⟨code, info⟩, br'⟩) :
      FaultsWith .dcRun s code info br' := by
    refine dcRun_faultsWith hf (dcRunBody_of_codec_error hc hfit hin ?_)
    rw [nikon_of_checks ha hb hcurve, nikonLoop_error (T := T) ⟨hbr, hrng⟩ hcurve hr hcol hfollow hraise]
    rfl
  refine ⟨fun code info br' hdec => ?decode, fun d0 br' hdec => ⟨fun hover => ?overflow, fun hlo hhi hout => ?beyond⟩⟩
  case decode =>
    obtain ⟨c, hnumber, herr⟩ := huffDec_error_of_faultsWith (s := s.setBr here) hf hdec
    have := raises fun st hst => hst.sample_of_huffDec_error herr
    unfold FaultsWith at this ⊢
    rwa [hnumber] at this
  case overflow =>
    refine raises fun st hst => (hst.sample_eq hcol hdec).trans (if_neg fun hfit => ?_)
    obtain ⟨hlo, hhi⟩ := fitsI32_iff.mp hfit
    exact hover.elim (Int.not_lt.mpr hlo) (Int.not_le.mpr hhi)
  case beyond =>
    refine raises fun st hst => (hst.sample_eq hcol hdec).trans ((if_pos (fitsI32_iff.mpr ⟨hlo, hhi⟩)).trans ?_)
    refine (if_pos hout).trans ?_
    rw [NikonRun.setPredictors_br]
    rfl

end Sys2Proof.Machine
end

section
/-! `PP.NORM` (R230, R231): a pass that replaces each element by a function of itself, `Normalize` in closed form, and the
two checks before the pass. -/

namespace Sys2Proof.Machine

variable {s : State} {mul : NormMode}

/-- Replacing the first `n` elements one after the other, each by a function of itself: a turn reads what no earlier turn
wrote. -/
theorem read_repeatTimes_update {w : Nat} (f : BitVec w → BitVec w) (m : Memory w) (n j : Nat) :
    (repeatTimes n (fun k a => a.write k (f (a.read k))) m).read j = if j < n then f (m.read j) else m.read j := by
  refine repeatTimes_induct (P := fun n (a : Memory w) => ∀ j, a.read j = if j < n then f (m.read j) else m.read j)
    (fun j => (if_neg (Nat.not_lt_zero j)).symm) (fun i _ a ih j => ?_) j
  rw [Memory.read_write]
  by_cases hj : j = i
  · subst hj
    rw [if_pos rfl, if_pos (Nat.lt_succ_self j), ih j, if_neg (Nat.lt_irrefl j)]
  · rw [if_neg hj, ih j, if_congr (show j < i ↔ j < i + 1 by omega) rfl rfl]

/-- `Normalize` of both modes: they differ in the factor alone (R231). -/
theorem normalize_eq (mul : NormMode) (black scale sample : Nat) :
    normalize mul black scale sample = Nat.min ((sample - black) * (if mul = .shift then 2 ^ scale else scale)) 65535 := by
  cases mul <;> rfl

/-- A normalized sample fits its element, so storing it cuts nothing off. -/
theorem normalize_lt (mul : NormMode) (black scale sample : Nat) : normalize mul black scale sample < 2 ^ 16 := by
  rw [normalize_eq]
  exact Nat.lt_succ_of_le (Nat.min_le_right _ _)

theorem scaleLegal_iff {scale : Nat} : scaleLegal mul scale = true ↔ (mul = .shift → scale ≤ 31) := by
  cases mul <;> simp [scaleLegal]

theorem blackLevel_eq (g : Regs) : g.blackLevel = g.black.toNat % 2 ^ 16 := bits_zero g.black 15

theorem scaleFactor_eq (g : Regs) : g.scaleFactor = g.scale.toNat % 2 ^ 16 := bits_zero g.scale 15

/-- What `PP.NORM` leaves in an element of the mosaic. -/
theorem read_normSample (mul : NormMode) (g : Regs) (m : Memory 16) (n j : Nat) :
    (repeatTimes n (normSample mul g) m).read j =
      if j < n then BitVec.ofNat 16 (normalize mul g.blackLevel g.scaleFactor (m.readNat j)) else m.read j :=
  read_repeatTimes_update (fun v => BitVec.ofNat 16 (normalize mul g.blackLevel g.scaleFactor v.toNat)) m n j

theorem ppNorm_ok (hf : s.fault = false) (hfit : s.mosaicFits = true) (hscale : scaleLegal mul s.regs.scaleFactor = true) :
    exec (.ppNorm mul) s = .next (s.setMos (repeatTimes (s.regs.w * s.regs.h) (normSample mul s.regs) s.mem.mos)) :=
  exec_of_body_ok (body := ppNormBody mul) rfl hf ((if_neg (by simp [hfit])).trans (if_neg (by simp [hscale])))

theorem ppNorm_faultsWith (hf : s.fault = false) {code : FaultCode} {info : Word}
    (h : ppNormBody mul s = raiseAt s code info) : FaultsWith (.ppNorm mul) s code info s.br :=
  faultsWith_of_exec (exec_eq_takeFault rfl hf h)

/-- Settles O39: the pass stores `Normalize` of each sample, which is below 2^16, and `PP.NORM` keeps the mosaic it makes. -/
theorem ppNormNormalizesEverySample : Obligations.PpNormNormalizesEverySample := by
  intro s mul hf hfit hscale black scale
  have hlegal : scaleLegal mul s.regs.scaleFactor = true := scaleLegal_iff.mpr (by rwa [scaleFactor_eq])
  refine ⟨_, ppNorm_ok hf hfit hlegal, rfl, fun k hk => ?_, fun k hk => ?_⟩
  · refine (congrArg BitVec.toNat ((read_normSample mul s.regs s.mem.mos _ k).trans (if_pos hk))).trans ?_
    rw [BitVec.toNat_ofNat, Nat.mod_eq_of_lt (normalize_lt _ _ _ _), normalize_eq, blackLevel_eq, scaleFactor_eq]
    rfl
  · exact (read_normSample mul s.regs s.mem.mos _ k).trans (if_neg (Nat.not_lt.mpr hk))

/-- Settles O40: the size is checked first, and the scale when the size is legal. -/
theorem ppNormFaultsInOrder : Obligations.PpNormFaultsInOrder := by
  intro s mul hf scale
  refine ⟨fun hfit => ppNorm_faultsWith hf ?size, fun hfit hmul hlarge => ppNorm_faultsWith hf ?scale⟩
  case size => exact if_pos (by simp [hfit])
  case scale =>
    have hillegal : scaleLegal mul s.regs.scaleFactor = false := by
      rw [Bool.eq_false_iff, Ne, scaleLegal_iff, scaleFactor_eq]
      exact fun h => Nat.not_le.mpr hlarge (h hmul)
    refine (if_neg (by simp [hfit])).trans ((if_pos (by simp [hillegal])).trans ?_)
    rw [infoNat, scaleFactor_eq]

end Sys2Proof.Machine
end

section
/-! The Bayer patterns (R243 to R249): the tile and the parities that select in it, the run over a pattern, and the pixels of
modes None, SuperPixel and Linear. -/

namespace Sys2Proof.Machine

variable {s : State} {m : Mosaic} {cfa y x : Nat}

/-! ### The tile -/

theorem bayerColour_of_parities {i j : Nat} (hy : y % 2 = i) (hx : x % 2 = j) :
    bayerColour cfa y x = (bayerTile cfa).getD (i * 2 + j) .green := by
  subst hy hx
  rfl

/-- The colour of a position depends on its parities only (R243). -/
theorem bayerColour_congr {y' x' : Nat} (hy : y % 2 = y' % 2) (hx : x % 2 = x' % 2) :
    bayerColour cfa y x = bayerColour cfa y' x' :=
  bayerColour_of_parities hy hx

theorem bayerColour_parities (cfa y x : Nat) : bayerColour cfa y x = bayerColour cfa (Fin.ofNat 2 y) (Fin.ofNat 2 x) :=
  bayerColour_congr (Nat.mod_mod y 2).symm (Nat.mod_mod x 2).symm

/-- Every colour has a place in the tile. -/
theorem exists_bayerColour_eq (hcfa : cfa < 4) (c : Colour) : ∃ i j, bayerColour cfa i j = c := by
  have places : ∀ cfa : Fin 4, ∀ c ∈ [Colour.red, .green, .blue], ∃ i j : Fin 2, bayerColour cfa i j = c := by decide
  obtain ⟨i, j, h⟩ := places ⟨cfa, hcfa⟩ c (by cases c <;> decide)
  exact ⟨i, j, h⟩

/-- Settles O42: the parities select the entry of each tile. -/
theorem bayerTilesReadRowMajor : Obligations.BayerTilesReadRowMajor := by
  intro y x tile
  have entry {i j : Nat} (hy : y % 2 = i) (hx : x % 2 = j) (cfa : Nat) :
      tile cfa = (bayerTile cfa).getD (i * 2 + j) .green := bayerColour_of_parities hy hx
  refine ⟨fun hy hx => ?_, fun hy hx => ?_, fun hy hx => ?_, fun hy hx => ?_⟩ <;>
    simp only [entry hy hx] <;> rfl

/-! ### A run over a Bayer pattern -/

/-- The pixel with the channels `v` lists by colour. -/
def Pixel.ofChannels (v : Colour → Nat) : Pixel := ⟨v .red, v .green, v .blue⟩

@[simp] theorem Pixel.ofChannels_channel (v : Colour → Nat) (c : Colour) : (ofChannels v).channel c.number = v c := by
  cases c <;> rfl

theorem Colour.number_lt (c : Colour) : c.number < 3 := by cases c <;> decide

/-- A value below 2^16 fits a channel of the image. -/
theorem toNat_ofNat_of_lt {v : Nat} (h : v < 2 ^ 16) : (BitVec.ofNat 16 v).toNat = v :=
  (BitVec.toNat_ofNat _ _).trans (Nat.mod_eq_of_lt h)

/-- Every mode with a formula reaches its pixels on a Bayer pattern (R240). -/
theorem dmRunReachesPixels_bayer {dmode : DemosaicMode} (hm : dmode ≠ .enhancedLinear) (hcfa : s.regs.cfaCode < 4)
    (hfit : s.demosaicFits = true) : DmRunReachesPixels s dmode where
  mode := hm
  pattern := by omega
  fits := hfit
  binning h := Nat.not_le.mpr hcfa h.1

/-- A run whose image is as large as the mosaic, from the channels of its pixels. -/
theorem dmRun_bayer_ok {dmode : DemosaicMode} (hm : dmode = .none ∨ dmode = .linear) (hf : s.fault = false)
    (hcfa : s.regs.cfaCode < 4) (hfit : s.demosaicFits = true) {v : Nat → Nat → Colour → Nat}
    (hpixel : ∀ y x, demosaicPixel s dmode y x = .ok (.ofChannels (v y x))) (hv : ∀ y x c, v y x c < 2 ^ 16) :
    ∃ t, exec (.dmRun dmode) s = .next t ∧
      t = { s.setRgb t.mem.rgb with regs := { s.regs with rgbWidth := s.regs.width, rgbHeight := s.regs.height } } ∧
      (∀ y x (c : Colour), y < s.regs.h → x < s.regs.w →
        t.mem.rgb.readNat (3 * (y * s.regs.w + x) + c.number) = v y x c) ∧
      ∀ k, 3 * (s.regs.w * s.regs.h) ≤ k → t.mem.rgb.read k = s.mem.rgb.read k := by
  have hreach : DmRunReachesPixels s dmode :=
    dmRunReachesPixels_bayer (by rcases hm with rfl | rfl <;> nofun) hcfa hfit
  have hsize : outputSize dmode s.regs.w s.regs.h = (s.regs.w, s.regs.h) := by rcases hm with rfl | rfl <;> rfl
  obtain ⟨t, hexec, ht, stored, rest⟩ := dmRun_ok hf hreach hsize fun y x _ _ => hpixel y x
  refine ⟨t, hexec, ?_, fun y x c hy hx => ?_, rest⟩
  · simpa only [Regs.w, Regs.h, BitVec.ofNat_toNat, BitVec.setWidth_eq] using ht
  · rw [stored y x _ hy hx c.number_lt, Pixel.ofChannels_channel, toNat_ofNat_of_lt (hv y x c)]

/-! ### Mode None -/

theorem bayerNone_eq (m : Mosaic) (cfa y x : Nat) :
    bayerNone m cfa y x = .ofChannels fun c => if bayerColour cfa y x = c then m.at (y, x) else 0 := by
  unfold bayerNone
  cases bayerColour cfa y x <;> rfl

theorem demosaicPixel_bayerNone (hcfa : s.regs.cfaCode < 4) (y x : Nat) :
    demosaicPixel s .none y x = .ok (bayerNone s.mosaic s.regs.cfaCode y x) :=
  if_pos hcfa

/-- Settles O41: every pixel is made, with its own channel set. -/
theorem bayerNoneReplicatesEachSample : Obligations.BayerNoneReplicatesEachSample := by
  intro s hf hcfa hfit w h
  refine dmRun_bayer_ok (.inl rfl) hf hcfa hfit
    (v := fun y x c => if bayerColour s.regs.cfaCode y x = c then s.mosaic.at (y, x) else 0) (fun y x => ?_) fun y x c => ?_
  · rw [demosaicPixel_bayerNone hcfa, bayerNone_eq]
  · split
    · exact s.mosaic.at_lt (y, x)
    · decide

/-! ### Mode SuperPixel -/

/-- The places of colour `c` in the tile, row-major. -/
def tilePlaces (cfa : Nat) (c : Colour) : List (Nat × Nat) :=
  [(0, 0), (0, 1), (1, 0), (1, 1)].filter fun p => bayerColour cfa p.1 p.2 == c

/-- A block lies on the tile: its samples of a colour are those at the places of that colour (R243, R245). -/
theorem blockSamples_eq (m : Mosaic) (cfa y x : Nat) (c : Colour) :
    blockSamples m cfa y x c = (tilePlaces cfa c).map fun p => m.at (2 * y + p.1, 2 * x + p.2) := by
  have hblock : [(2 * y, 2 * x), (2 * y, 2 * x + 1), (2 * y + 1, 2 * x), (2 * y + 1, 2 * x + 1)] =
      [(0, 0), (0, 1), (1, 0), (1, 1)].map fun p : Nat × Nat => (2 * y + p.1, 2 * x + p.2) := rfl
  have hcolour (p : Nat × Nat) : bayerColour cfa (2 * y + p.1) (2 * x + p.2) = bayerColour cfa p.1 p.2 :=
    bayerColour_congr (Nat.mul_add_mod 2 y p.1) (Nat.mul_add_mod 2 x p.2)
  rw [blockSamples, tilePlaces, hblock, List.filter_map, List.map_map]
  simp only [Function.comp_def, hcolour]

/-- A tile has one red and one blue (R243). -/
theorem tilePlaces_of_ne_green : ∀ (cfa : Fin 4) (i j : Fin 2), bayerColour cfa i j ≠ .green →
    tilePlaces cfa (bayerColour cfa i j) = [(i.val, j.val)] := by
  decide

/-- A tile has two greens (R243). -/
theorem tilePlaces_green_perm : ∀ (cfa : Fin 4) (i j i' j' : Fin 2), (i, j) ≠ (i', j') →
    bayerColour cfa i j = .green → bayerColour cfa i' j' = .green →
    (tilePlaces cfa .green).Perm [(i.val, j.val), (i'.val, j'.val)] := by
  decide

/-- The pixel of a block, from any two positions of it: red and blue are the sample of that colour, green the mean of the
two greens (R245). -/
theorem bayerSuperPixel_eq (m : Mosaic) (hcfa : cfa < 4) {p q : Nat × Nat} (hpy : p.1 / 2 = y) (hpx : p.2 / 2 = x)
    (hqy : q.1 / 2 = y) (hqx : q.2 / 2 = x) (hpq : p ≠ q) :
    (bayerColour cfa p.1 p.2 = .red → (bayerSuperPixel m cfa y x).r = m.at p) ∧
    (bayerColour cfa p.1 p.2 = .blue → (bayerSuperPixel m cfa y x).b = m.at p) ∧
    (bayerColour cfa p.1 p.2 = .green → bayerColour cfa q.1 q.2 = .green →
      (bayerSuperPixel m cfa y x).g = (m.at p + m.at q) / 2) := by
  have place {p : Nat × Nat} (hy : p.1 / 2 = y) (hx : p.2 / 2 = x) :
      (2 * y + (Fin.ofNat 2 p.1).val, 2 * x + (Fin.ofNat 2 p.2).val) = p := by
    rw [← hy, ← hx, Fin.val_ofNat, Fin.val_ofNat, Nat.div_add_mod, Nat.div_add_mod]
  have hplaces : (Fin.ofNat 2 p.1, Fin.ofNat 2 p.2) ≠ (Fin.ofNat 2 q.1, Fin.ofNat 2 q.2) := fun h => hpq <| by
    obtain ⟨hi, hj⟩ := Prod.mk.inj h
    rw [← place hpy hpx, ← place hqy hqx, hi, hj]
  have single {c : Colour} (hc : bayerColour cfa p.1 p.2 = c) (hne : c ≠ .green) : blockSamples m cfa y x c = [m.at p] := by
    rw [bayerColour_parities] at hc
    have h := tilePlaces_of_ne_green ⟨cfa, hcfa⟩ _ _ (hc ▸ hne)
    rw [blockSamples_eq, ← hc, h, List.map_singleton, place hpy hpx]
  refine ⟨fun hp => ?_, fun hp => ?_, fun hp hq => ?_⟩
  · rw [bayerSuperPixel, single hp (by decide), List.headD_cons]
  · rw [bayerSuperPixel, single hp (by decide), List.headD_cons]
  · rw [bayerColour_parities] at hp hq
    have h := tilePlaces_green_perm ⟨cfa, hcfa⟩ _ _ _ _ hplaces hp hq
    have hsum : (blockSamples m cfa y x .green).sum = m.at p + m.at q := by
      rw [blockSamples_eq, (h.map _).sum_eq]
      simp only [List.map_cons, List.map_nil, place hpy hpx, place hqy hqx, List.sum_cons, List.sum_nil, Nat.add_zero]
    rw [bayerSuperPixel, hsum]

theorem demosaicPixel_bayerSuperPixel (hcfa : s.regs.cfaCode < 4) (y x : Nat) :
    demosaicPixel s .superPixel y x = .ok (bayerSuperPixel s.mosaic s.regs.cfaCode y x) :=
  if_pos hcfa

/-- Settles O43: every block is binned, and the values of its pixel fit their channels. -/
theorem superPixelBinsEveryBlock : Obligations.SuperPixelBinsEveryBlock := by
  intro s hf hcfa hfit w h m colour
  obtain ⟨t, hexec, ht, stored, rest⟩ := dmRun_ok hf (dmRunReachesPixels_bayer (dmode := .superPixel) nofun hcfa hfit) rfl
    fun y x _ _ => demosaicPixel_bayerSuperPixel hcfa y x
  refine ⟨t, hexec, ht, fun y x p q hy hx hpy hpx hqy hqx hpq => ?_, rest⟩
  obtain ⟨red, blue, green⟩ := bayerSuperPixel_eq s.mosaic hcfa hpy hpx hqy hqx hpq
  have hp : m p < 2 ^ 16 := s.mosaic.at_lt p
  have hq : m q < 2 ^ 16 := s.mosaic.at_lt q
  have value (c : Nat) (hc : c < 3) {v : Nat} (hv : v < 2 ^ 16)
      (h : (bayerSuperPixel s.mosaic s.regs.cfaCode y x).channel c = v) :
      t.mem.rgb.readNat (3 * (y * (w / 2) + x) + c) = v :=
    (stored y x c hy hx hc).trans <| by rw [h, toNat_ofNat_of_lt hv]
  exact ⟨fun hred => value 0 (by decide) hp (red hred), fun hblue => value 2 (by decide) hp (blue hblue),
    fun hgreen hgreen' => value 1 (by decide) (by omega) (green hgreen hgreen')⟩

/-! ### Mode Linear -/

/-- The neighbour codes that name a position of colour `c`. The tile repeats after two rows and columns, so that the codes'
offset of -1 may be taken as +1. -/
def colourCodes (cfa y x : Nat) (c : Colour) : List Nat :=
  (List.range 9).filter fun d => bayerColour cfa (y + d / 3 + 1) (x + d % 3 + 1) == c

theorem Mosaic.neighbour_eq_some_iff {d : Nat} {p : Nat × Nat} : m.neighbour y x d = some p ↔
    (1 ≤ y + d / 3 ∧ y + d / 3 - 1 < m.h ∧ 1 ≤ x + d % 3 ∧ x + d % 3 - 1 < m.w) ∧ (y + d / 3 - 1, x + d % 3 - 1) = p := by
  rw [Mosaic.neighbour, Option.ite_none_right_eq_some, Option.some_inj]

theorem bayerColour_neighbour {d : Nat} {p : Nat × Nat} (h : m.neighbour y x d = some p) :
    bayerColour cfa p.1 p.2 = bayerColour cfa (y + d / 3 + 1) (x + d % 3 + 1) := by
  obtain ⟨⟨hy, -, hx, -⟩, rfl⟩ := Mosaic.neighbour_eq_some_iff.mp h
  exact bayerColour_congr (by omega) (by omega)

/-- The neighbours of a colour are the codes of that colour that lie inside the image. -/
theorem inside_colourCodes (m : Mosaic) (cfa y x : Nat) (c : Colour) : m.inside y x (colourCodes cfa y x c) =
    ((List.range 9).filterMap (m.neighbour y x)).filter fun p => bayerColour cfa p.1 p.2 == c := by
  rw [Mosaic.inside, colourCodes, List.filterMap_filter, List.filter_filterMap]
  refine List.filterMap_congr fun d _ => ?_
  cases h : m.neighbour y x d with
  | none => simp
  | some p => simp [Option.filter_some, bayerColour_neighbour h]

theorem avg_colourCodes (m : Mosaic) (cfa y x : Nat) (c : Colour) :
    m.avg y x (colourCodes cfa y x c) = mean (m.sameColour cfa y x c) := by
  rw [Mosaic.avg, mean, Mosaic.sameColour, inside_colourCodes, List.length_map]

theorem colourCodes_parities (cfa y x : Nat) (c : Colour) :
    colourCodes cfa y x c = colourCodes cfa (Fin.ofNat 2 y) (Fin.ofNat 2 x) c := by
  refine List.filter_congr fun d _ => ?_
  rw [bayerColour_congr (y' := y % 2 + d / 3 + 1) (x' := x % 2 + d % 3 + 1) (by omega) (by omega)]
  rfl

theorem bayerColour_xor_one (cfa y x : Nat) : 
    bayerColour cfa y (x ^^^ 1) = bayerColour cfa (Fin.ofNat 2 y) ((Fin.ofNat 2 x).val + 1) :=
  bayerColour_congr (Nat.mod_mod y 2).symm (by rw [Nat.xor_mod_two_eq, Fin.val_ofNat, Nat.mod_add_mod])

/-- The sets of R247, on the tile. -/
theorem colourCodes_of_ne_green : ∀ (cfa : Fin 4) (i j : Fin 2),
    (bayerColour cfa i j = .red → colourCodes cfa i j .green = plusCodes ∧ colourCodes cfa i j .blue = diagCodes) ∧
    (bayerColour cfa i j = .blue → colourCodes cfa i j .green = plusCodes ∧ colourCodes cfa i j .red = diagCodes) := by
  decide

/-- The sets of R248, on the tile. -/
theorem colourCodes_of_green : ∀ (cfa : Fin 4) (i j : Fin 2), bayerColour cfa i j = .green →
    (bayerColour cfa i (j + 1) = .red → colourCodes cfa i j .red = horizCodes ∧ colourCodes cfa i j .blue = vertCodes) ∧
    (bayerColour cfa i (j + 1) ≠ .red → colourCodes cfa i j .red = vertCodes ∧ colourCodes cfa i j .blue = horizCodes) := by
  decide

/-- Linear keeps the sample in its own channel and averages the neighbours of each other colour (R247, R248). -/
theorem bayerLinear_eq (m : Mosaic) (hcfa : cfa < 4) (y x : Nat) : bayerLinear m cfa y x = .ofChannels fun c =>
    if bayerColour cfa y x = c then m.at (y, x) else m.avg y x (colourCodes cfa y x c) := by
  have atRedBlue := colourCodes_of_ne_green ⟨cfa, hcfa⟩ (Fin.ofNat 2 y) (Fin.ofNat 2 x)
  have atGreen := colourCodes_of_green ⟨cfa, hcfa⟩ (Fin.ofNat 2 y) (Fin.ofNat 2 x)
  simp only [← colourCodes_parities, ← bayerColour_parities, ← bayerColour_xor_one] at atRedBlue atGreen
  unfold bayerLinear
  cases hown : bayerColour cfa y x with
  | red => simp [Pixel.ofChannels, atRedBlue.1 hown]
  | blue => simp [Pixel.ofChannels, atRedBlue.2 hown]
  | green =>
    by_cases hrow : bayerColour cfa y (x ^^^ 1) = .red
    · simp [Pixel.ofChannels, hrow, (atGreen hown).1 hrow]
    · simp [Pixel.ofChannels, hrow, (atGreen hown).2 hrow]

theorem mean_sameColour_lt (m : Mosaic) (cfa y x : Nat) (c : Colour) : mean (m.sameColour cfa y x c) < 2 ^ 16 := by
  refine Nat.lt_of_le_of_lt (mean_le (b := 2 ^ 16 - 1) fun v hv => ?_) (by decide)
  obtain ⟨p, -, rfl⟩ := List.mem_map.mp hv
  exact Nat.le_sub_one_of_lt (m.at_lt p)

theorem demosaicPixel_bayerLinear (hcfa : s.regs.cfaCode < 4) (y x : Nat) :
    demosaicPixel s .linear y x = .ok (bayerLinear s.mosaic s.regs.cfaCode y x) :=
  if_pos hcfa

/-- Settles O44: every pixel is made, its sets being those of the neighbours of each colour. -/
theorem bayerLinearAveragesSameColourNeighbours : Obligations.BayerLinearAveragesSameColourNeighbours := by
  intro s hf hcfa hfit w h
  refine dmRun_bayer_ok (.inr rfl) hf hcfa hfit (v := fun y x c => if bayerColour s.regs.cfaCode y x = c
    then s.mosaic.at (y, x) else mean (s.mosaic.sameColour s.regs.cfaCode y x c)) (fun y x => ?_) fun y x c => ?_
  · simp only [demosaicPixel_bayerLinear hcfa, bayerLinear_eq _ hcfa, avg_colourCodes]
  · split
    · exact s.mosaic.at_lt (y, x)
    · exact mean_sameColour_lt _ _ _ _ _

/-! ### Mode Linear on a constant mosaic -/

theorem mem_sameColour_iff {c : Colour} {v : Nat} : v ∈ m.sameColour cfa y x c ↔
    ∃ d, d < 9 ∧ ∃ p, m.neighbour y x d = some p ∧ bayerColour cfa p.1 p.2 = c ∧ m.at p = v := by
  simp only [Mosaic.sameColour, List.mem_map, List.mem_filter, List.mem_filterMap, List.mem_range, beq_iff_eq]
  constructor
  · rintro ⟨p, ⟨⟨d, hd, hp⟩, hc⟩, hv⟩
    exact ⟨d, hd, p, hp, hc, hv⟩
  · rintro ⟨d, hd, p, hp, hc, hv⟩
    exact ⟨p, ⟨⟨d, hd, hp⟩, hc⟩, hv⟩

/-- On an axis of two or more places, one of each parity lies within distance 1 of any. -/
theorem exists_offset_of_parity {n z : Nat} (hn : 2 ≤ n) (hz : z < n) (i : Nat) :
    ∃ a, a < 3 ∧ 1 ≤ z + a ∧ z + a - 1 < n ∧ (z + a - 1) % 2 = i % 2 := by
  by_cases hsame : z % 2 = i % 2
  · exact ⟨1, by omega⟩
  · by_cases hfirst : z = 0
    · exact ⟨2, by omega⟩
    · exact ⟨0, by omega⟩

/-- In an image of two or more rows and columns, every colour is found next to every position (R240, R249). -/
theorem sameColour_ne_nil (hcfa : cfa < 4) (hw : 2 ≤ m.w) (hh : 2 ≤ m.h) (hy : y < m.h) (hx : x < m.w) (c : Colour) :
    m.sameColour cfa y x c ≠ [] := by
  obtain ⟨i, j, hc⟩ := exists_bayerColour_eq hcfa c
  obtain ⟨a, ha, hya, hyh, hyi⟩ := exists_offset_of_parity hh hy i
  obtain ⟨b, hb, hxb, hxw, hxj⟩ := exists_offset_of_parity hw hx j
  have hdiv : (3 * a + b) / 3 = a := by omega
  have hmod : (3 * a + b) % 3 = b := by omega
  refine List.ne_nil_of_mem (a := m.at (y + a - 1, x + b - 1)) (mem_sameColour_iff.mpr ⟨3 * a + b, by omega, _, ?_, ?_, rfl⟩)
  · exact Mosaic.neighbour_eq_some_iff.mpr (by rw [hdiv, hmod]; exact ⟨⟨hya, hyh, hxb, hxw⟩, rfl⟩)
  · rw [bayerColour_congr hyi hxj, hc]

/-- The mean of a constant is the constant. -/
theorem mean_eq_of_forall_eq {l : List Nat} {v : Nat} (hne : l ≠ []) (h : ∀ u ∈ l, u = v) : mean l = v := by
  rw [mean, List.sum_eq_card_nsmul l v h, smul_eq_mul, Nat.mul_div_cancel_left v (List.length_pos_iff.mpr hne)]

/-- Settles O45: each mean is of samples of one colour, of which there is at least one. -/
theorem constantMosaicsStayConstant : Obligations.ConstantMosaicsStayConstant := by
  intro s level hf hcfa hfit w h hlevel
  obtain ⟨hw, hh, -⟩ := s.demosaicFits_iff.mp hfit
  obtain ⟨t, hexec, ht, hvalue, -⟩ := bayerLinearAveragesSameColourNeighbours s hf hcfa hfit
  refine ⟨t, hexec, by rw [ht]; exact hf, fun y x c hy hx => (hvalue y x c hy hx).trans ?_⟩
  by_cases hown : bayerColour s.regs.cfaCode y x = c
  · rw [if_pos hown, hlevel y x hy hx, hown]
  · rw [if_neg hown]
    refine mean_eq_of_forall_eq (sameColour_ne_nil hcfa hw hh hy hx c) fun u hu => ?_
    obtain ⟨d, -, p, hp, hc, rfl⟩ := mem_sameColour_iff.mp hu
    obtain ⟨⟨-, hpy, -, hpx⟩, rfl⟩ := Mosaic.neighbour_eq_some_iff.mp hp
    exact (hlevel _ _ hpy hpx).trans (congrArg level hc)

end Sys2Proof.Machine
end

section
/-! The colour pipeline (R290 to R298): the frame its three commands share, and the stages channel by channel. -/

namespace Sys2Proof.Machine

variable {s : State} {i : Instr}

/-! ### Channels -/

theorem Memory.readNat_lt {w : Nat} (m : Memory w) (k : Nat) : m.readNat k < 2 ^ w := BitVec.isLt _

/-- Every channel number is that of a colour (R12). -/
theorem Colour.exists_number_eq (i : Fin 3) : ∃ c : Colour, c.number = i.val := by
  match i with
  | 0 => exact ⟨.red, rfl⟩
  | 1 => exact ⟨.green, rfl⟩
  | 2 => exact ⟨.blue, rfl⟩

/-- Every element of an image of `n` pixels is a channel of one of them (R12). -/
theorem forall_element {n : Nat} {P : Nat → Prop} (h : ∀ k (c : Colour), k < n → P (3 * k + c.number)) :
    ∀ j, j < 3 * n → P j := by
  intro j hj
  obtain ⟨c, hc⟩ := Colour.exists_number_eq ⟨j % 3, Nat.mod_lt j (by decide)⟩
  have heq : 3 * (j / 3) + c.number = j := by rw [hc]; exact Nat.div_add_mod j 3
  exact heq ▸ h (j / 3) c (by omega)

@[simp] theorem loadPixel_channel (rgb : Memory 16) (k : Nat) (c : Colour) :
    (loadPixel rgb k).channel c.number = rgb.readNat (3 * k + c.number) := by
  cases c <;> rfl

/-- A pixel is loaded from its own three elements. -/
theorem loadPixel_congr {a b : Memory 16} {k : Nat} (h : ∀ j, 3 * k ≤ j → a.read j = b.read j) :
    loadPixel a k = loadPixel b k := by
  simp only [loadPixel, Memory.readNat, h (3 * k) (Nat.le_refl _), h (3 * k + 1) (by omega), h (3 * k + 2) (by omega)]

/-- The pixel of three channels, each of which may fail. -/
def Pixel.ofOptions (f : Colour → Option Nat) : Option Pixel :=
  match f .red with
  | none => none
  | some r =>
    match f .green with
    | none => none
    | some g =>
      match f .blue with
      | none => none
      | some b => some ⟨r, g, b⟩

theorem Pixel.ofOptions_of_some {f : Colour → Option Nat} {v : Colour → Nat} (h : ∀ c, f c = some (v c)) :
    ofOptions f = some (ofChannels v) := by
  simp only [ofOptions, h]
  rfl

theorem Pixel.ofOptions_of_none {f : Colour → Option Nat} {c : Colour} (h : f c = none) : ofOptions f = none := by
  cases c with
  | red => simp only [ofOptions, h]
  | green => cases hr : f .red <;> simp only [ofOptions, h, hr]
  | blue => cases hr : f .red <;> cases hg : f .green <;> simp only [ofOptions, h, hr, hg]

/-! ### The frame -/

/-- Command `i` runs the frame of R297 over this stage. -/
def RunsStage (i : Instr) (stage : State → Pixel → Option Pixel) : Prop :=
  ∀ s, exec i s = whenAccepting s fun s => settle i.writes s (pipelineBody (stage s) s)

theorem cpWb_runsStage : RunsStage .cpWb fun s => whiteBalanceFix s.regs := fun _ => rfl
theorem cpCc_runsStage : RunsStage .cpCc fun s => colorConvert s.regs := fun _ => rfl
theorem cpGamma_runsStage : RunsStage .cpGamma fun s => gammaCorrect s.mem.glut := fun _ => rfl

/-- The frame's loop over pixels none of which fails: an image of one row. -/
theorem stageLoop_total {stage : Pixel → Option Pixel} {rgb0 : Memory 16} {q : Nat → Pixel} {n : Nat}
    (h : ∀ k, k < n → stage (loadPixel rgb0 k) = some (q k)) :
    ∃ rgb, loop n (stagePixel stage) rgb0 = .ok rgb ∧ StoredBefore n rgb0 (fun _ => q) 0 n rgb := by
  refine loop_total (P := StoredBefore n rgb0 (fun _ => q) 0)
    ⟨fun _ _ _ _ hlt => by omega, fun _ _ => rfl⟩ fun k hk rgb hp => ⟨storePixel k (q k) rgb, ?_, ?_⟩
  · have hload : loadPixel rgb k = loadPixel rgb0 k := loadPixel_congr fun j hj => hp.2 j (by omega)
    rw [stagePixel, hload, h k hk]
  · simpa only [Nat.zero_mul, Nat.zero_add] using hp.storePixel hk

/-- The frame's loop raises at the first pixel that fails (R298). -/
theorem stageLoop_error {stage : Pixel → Option Pixel} {rgb0 : Memory 16} {q : Nat → Pixel} {n k : Nat} (hk : k < n)
    (before : ∀ j, j < k → stage (loadPixel rgb0 j) = some (q j)) (fails : stage (loadPixel rgb0 k) = none) :
    loop n (stagePixel stage) rgb0 = .error ⟨.arithOverflow, infoNat k⟩ := by
  obtain ⟨rgb, hrgb, -, rest⟩ := stageLoop_total before
  have hload : loadPixel rgb k = loadPixel rgb0 k := loadPixel_congr fun j hj => rest j (by omega)
  exact loop_error hrgb hk (by rw [stagePixel, hload, fails])

theorem pipelineBody_of_loop_ok (hfit : s.imageFits = true) {stage : Pixel → Option Pixel} {rgb : Memory 16}
    (h : loop s.regs.imagePixels (stagePixel stage) s.mem.rgb = .ok rgb) : pipelineBody stage s = .ok (s.setRgb rgb) := by
  rw [pipelineBody, if_neg (by simp [hfit]), h]

theorem pipelineBody_of_loop_error (hfit : s.imageFits = true) {stage : Pixel → Option Pixel} {c : Cause}
    (h : loop s.regs.imagePixels (stagePixel stage) s.mem.rgb = .error c) :
    pipelineBody stage s = raiseAt s c.code c.info := by
  rw [pipelineBody, if_neg (by simp [hfit]), h, raiseAt]

section frame

variable {stage : State → Pixel → Option Pixel} (hi : RunsStage i stage) (hf : s.fault = false)
include hi hf

/-- A run none of whose pixels fails: the image holds what the stage makes of each, and nothing else changes (R297). -/
theorem RunsStage.ok (hfit : s.imageFits = true) {v : Nat → Colour → Nat}
    (hstage : ∀ k, k < s.regs.imagePixels → stage s (loadPixel s.mem.rgb k) = some (.ofChannels (v k)))
    (hv : ∀ k c, v k c < 2 ^ 16) :
    ∃ t, exec i s = .next t ∧ t = s.setRgb t.mem.rgb ∧
      (∀ k (c : Colour), k < s.regs.imagePixels → t.mem.rgb.readNat (3 * k + c.number) = v k c) ∧
      ∀ k, 3 * s.regs.imagePixels ≤ k → t.mem.rgb.read k = s.mem.rgb.read k := by
  obtain ⟨rgb, hrgb, stored, rest⟩ := stageLoop_total hstage
  have hexec := exec_of_body_ok (body := fun s => pipelineBody (stage s) s) (hi s) hf (pipelineBody_of_loop_ok hfit hrgb)
  refine ⟨_, hexec, rfl, fun k c hk => ?_, fun k hk => rest k (by omega)⟩
  have hread := stored 0 k c.number hk (by omega) c.number_lt
  rw [Nat.zero_mul, Nat.zero_add, Pixel.ofChannels_channel] at hread
  rw [State.setRgb_rgb, Memory.readNat, hread, toNat_ofNat_of_lt (hv k c)]

theorem RunsStage.faultsWith {code : FaultCode} {info : Word} (h : pipelineBody (stage s) s = raiseAt s code info) :
    FaultsWith i s code info s.br :=
  faultsWith_of_exec (exec_eq_takeFault (body := fun s => pipelineBody (stage s) s) (hi s) hf h)

/-- The image is empty or too large (R297). -/
theorem RunsStage.faultsWith_geometry (hfit : ¬ s.imageFits = true) : FaultsWith i s .geometry 3 s.br :=
  hi.faultsWith hf (if_pos (by simpa using hfit))

/-- Pixel `k` is the first that leaves `i32` (R298). -/
theorem RunsStage.faultsWith_overflow (hfit : s.imageFits = true) {k : Nat} (hk : k < s.regs.imagePixels)
    {v : Nat → Colour → Nat} (before : ∀ j, j < k → stage s (loadPixel s.mem.rgb j) = some (.ofChannels (v j)))
    (fails : stage s (loadPixel s.mem.rgb k) = none) : FaultsWith i s .arithOverflow (infoNat k) s.br :=
  hi.faultsWith hf (pipelineBody_of_loop_error hfit (stageLoop_error hk before fails))

end frame

/-! ### White balance -/

/-- The gain of a channel (R38). -/
def Regs.gain (g : Regs) : Colour → Nat
  | .red => wbGain g.wbR
  | .green => wbGain g.wbG
  | .blue => wbGain g.wbB

theorem wbGain_eq (w : Word) : wbGain w = w.toNat % 2 ^ 31 := bits_zero w 30

theorem wbShiftAmount_eq (g : Regs) : g.wbShiftAmount = g.wbShift.toNat % 2 ^ 5 := bits_zero g.wbShift 4

/-- `v * gain` shifted and clamped (R291). -/
def balanced (gain shift v : Nat) : Nat := Nat.min (v * gain / 2 ^ shift) 65535

theorem balanced_lt (gain shift v : Nat) : balanced gain shift v < 2 ^ 16 := Nat.lt_succ_of_le (Nat.min_le_right _ _)

theorem whiteBalanceChannel_of_lt {gain v : Nat} (h : v * gain < 2 ^ 31) (shift : Nat) :
    whiteBalanceChannel gain shift v = some (balanced gain shift v) := by
  rw [whiteBalanceChannel, if_pos (Nat.le_sub_one_of_lt h), Nat.shiftRight_eq_div_pow, balanced]

theorem whiteBalanceChannel_of_ge {gain v : Nat} (h : 2 ^ 31 ≤ v * gain) (shift : Nat) :
    whiteBalanceChannel gain shift v = none :=
  if_neg (by omega)

theorem whiteBalanceFix_eq (g : Regs) (p : Pixel) :
    whiteBalanceFix g p = Pixel.ofOptions fun c => whiteBalanceChannel (g.gain c) g.wbShiftAmount (p.channel c.number) := by
  rfl

/-- A pixel whose products all fit (R291). -/
theorem whiteBalanceFix_of_lt {g : Regs} {rgb : Memory 16} {k : Nat}
    (h : ∀ c : Colour, rgb.readNat (3 * k + c.number) * g.gain c < 2 ^ 31) :
    whiteBalanceFix g (loadPixel rgb k) =
      some (.ofChannels fun c => balanced (g.gain c) g.wbShiftAmount (rgb.readNat (3 * k + c.number))) := by
  rw [whiteBalanceFix_eq]
  refine Pixel.ofOptions_of_some fun c => ?_
  rw [loadPixel_channel]
  exact whiteBalanceChannel_of_lt (h c) _

theorem whiteBalanceFix_of_ge {g : Regs} {rgb : Memory 16} {k : Nat} {c : Colour}
    (h : 2 ^ 31 ≤ rgb.readNat (3 * k + c.number) * g.gain c) : whiteBalanceFix g (loadPixel rgb k) = none := by
  rw [whiteBalanceFix_eq]
  refine Pixel.ofOptions_of_none (c := c) ?_
  rw [loadPixel_channel]
  exact whiteBalanceChannel_of_ge h _

/-- Settles O49: no product leaves `i32`, so every pixel is made, channel by channel. -/
theorem cpWbScalesEveryChannel : Obligations.CpWbScalesEveryChannel := by
  intro s hf hfit n gain shift hlt
  have hgain (c : Colour) : s.regs.gain c = gain c := by cases c <;> exact wbGain_eq _
  obtain ⟨t, hexec, ht, stored, rest⟩ := cpWb_runsStage.ok hf hfit
    (fun k hk => whiteBalanceFix_of_lt fun c => hgain c ▸ hlt k c hk) fun k c => balanced_lt _ _ _
  refine ⟨t, hexec, ht, fun k c hk => (stored k c hk).trans ?_, rest⟩
  rw [balanced, hgain, wbShiftAmount_eq]

/-! ### The colour matrix -/

/-- The sum of row `i` of the matrix times the pixel (R294). -/
def Regs.rowSum (g : Regs) (p : Pixel) (i : Nat) : Int :=
  g.matrixEntry i 0 * p.r + g.matrixEntry i 1 * p.g + g.matrixEntry i 2 * p.b

/-- The values row `i` passes through, all of which must fit `i32` (R294). -/
def Regs.rowTerms (g : Regs) (p : Pixel) (i : Nat) : List Int :=
  [g.matrixEntry i 0 * p.r, g.matrixEntry i 1 * p.g, g.matrixEntry i 2 * p.b,
    g.matrixEntry i 0 * p.r + g.matrixEntry i 1 * p.g, g.rowSum p i]

/-- A row's sum divided by 2^13 rounding down, and clamped (R294). -/
theorem clampSample_shift (a : Int) : (clampSample (a >>> Config.bitShift) : Int) = max 0 (min (a / 2 ^ 13) 65535) := by
  rw [Int.shiftRight_eq_div_pow]
  show ((min (a / 2 ^ 13).toNat 65535 : Nat) : Int) = max 0 (min (a / 2 ^ 13) 65535)
  omega

theorem clampSample_lt (a : Int) : clampSample a < 2 ^ 16 := Nat.lt_succ_of_le (Nat.min_le_right _ _)

theorem colorConvertRow_eq (g : Regs) (p : Pixel) (i : Nat) : colorConvertRow g p i =
    if (g.rowTerms p i).all fitsI32 then some (clampSample (g.rowSum p i >>> Config.bitShift)) else none := by
  simp [colorConvertRow, Regs.rowTerms, Regs.rowSum, and_assoc]

theorem colorConvert_eq (g : Regs) (p : Pixel) :
    colorConvert g p = Pixel.ofOptions fun c => colorConvertRow g p c.number := by
  rfl

/-- A pixel whose products and partial sums all fit (R294). -/
theorem colorConvert_of_fits {g : Regs} {p : Pixel}
    (h : ∀ i : Fin 3, ∀ a ∈ g.rowTerms p i, -(2 ^ 31) ≤ a ∧ a < 2 ^ 31) :
    colorConvert g p = some (.ofChannels fun c => clampSample (g.rowSum p c.number >>> Config.bitShift)) := by
  rw [colorConvert_eq]
  refine Pixel.ofOptions_of_some fun c => ?_
  rw [colorConvertRow_eq, if_pos]
  exact List.all_eq_true.mpr fun a ha => fitsI32_iff.mpr (h ⟨c.number, c.number_lt⟩ a ha)

theorem colorConvert_of_leaves {g : Regs} {p : Pixel} {i : Fin 3} {a : Int} (ha : a ∈ g.rowTerms p i)
    (h : a < -(2 ^ 31) ∨ 2 ^ 31 ≤ a) : colorConvert g p = none := by
  obtain ⟨c, hc⟩ := Colour.exists_number_eq i
  rw [colorConvert_eq]
  refine Pixel.ofOptions_of_none (c := c) ?_
  rw [colorConvertRow_eq, hc, if_neg]
  intro hall
  have := fitsI32_iff.mp (List.all_eq_true.mp hall a ha)
  omega

theorem matrixEntry_eq (g : Regs) (i j : Fin 3) :
    g.matrixEntry i j = (g.cm[3 * i.val + j.val]'(by omega)).toInt := by
  have hindex : 3 * i.val + j.val < 9 := by omega
  simp [Regs.matrixEntry, Vector.getD, hindex]

/-- The sum of a row at pixel `k`, with the matrix and the image as the statements index them. -/
theorem rowSum_loadPixel (g : Regs) (rgb : Memory 16) (k : Nat) (i : Fin 3) :
    let m (i j : Fin 3) : Int := (g.cm[3 * i.val + j.val]'(by omega)).toInt
    let v (j : Fin 3) : Int := rgb.readNat (3 * k + j.val)
    g.rowSum (loadPixel rgb k) i = m i 0 * v 0 + m i 1 * v 1 + m i 2 * v 2 := by
  intro m v
  have hm (j : Fin 3) : g.matrixEntry i j = m i j := matrixEntry_eq g i j
  rw [← hm 0, ← hm 1, ← hm 2]
  rfl

/-- The values of that row, likewise. -/
theorem rowTerms_loadPixel (g : Regs) (rgb : Memory 16) (k : Nat) (i : Fin 3) :
    let m (i j : Fin 3) : Int := (g.cm[3 * i.val + j.val]'(by omega)).toInt
    let v (j : Fin 3) : Int := rgb.readNat (3 * k + j.val)
    g.rowTerms (loadPixel rgb k) i = [m i 0 * v 0, m i 1 * v 1, m i 2 * v 2, m i 0 * v 0 + m i 1 * v 1,
      m i 0 * v 0 + m i 1 * v 1 + m i 2 * v 2] := by
  intro m v
  have hm (j : Fin 3) : g.matrixEntry i j = m i j := matrixEntry_eq g i j
  rw [← hm 0, ← hm 1, ← hm 2]
  rfl

/-- Settles O50: no value leaves `i32`, so every pixel is made, row by row from its old channels. -/
theorem cpCcAppliesTheMatrix : Obligations.CpCcAppliesTheMatrix := by
  intro s hf hfit n m v fits hfits
  have hterms (k : Nat) (hk : k < n) (i : Fin 3) :
      ∀ a ∈ s.regs.rowTerms (loadPixel s.mem.rgb k) i, -(2 ^ 31) ≤ a ∧ a < 2 ^ 31 := by
    rw [rowTerms_loadPixel]
    simpa only [List.forall_mem_cons, List.not_mem_nil, false_imp_iff, implies_true, and_true] using hfits k i hk
  obtain ⟨t, hexec, ht, stored, rest⟩ := cpCc_runsStage.ok hf hfit (fun k hk => colorConvert_of_fits (hterms k hk))
    fun k c => clampSample_lt _
  refine ⟨t, hexec, ht, fun k i hk => ?_, rest⟩
  obtain ⟨c, hc⟩ := Colour.exists_number_eq i
  rw [← hc, stored k c hk, clampSample_shift, hc, rowSum_loadPixel]

/-! ### Gamma -/

/-- Settles O51: every channel is looked up, and every element of the image is a channel. -/
theorem cpGammaLooksEveryChannelUp : Obligations.CpGammaLooksEveryChannelUp := by
  intro s hf hfit n
  obtain ⟨t, hexec, ht, stored, rest⟩ := cpGamma_runsStage.ok hf hfit
    (v := fun k c => s.mem.glut.readNat (s.mem.rgb.readNat (3 * k + c.number))) (fun _ _ => rfl)
    fun _ _ => Memory.readNat_lt _ _
  exact ⟨t, hexec, ht, forall_element fun k c hk => BitVec.eq_of_toNat_eq (stored k c hk), rest⟩

/-! ### Faults -/

/-- Settles O52: the image is checked first; then the pixels before the first overflow are made and that one fails. -/
theorem pipelineFaultsAtTheFirstOverflow : Obligations.PipelineFaultsAtTheFirstOverflow := by
  intro s hf n v gain m leaves wbLeaves ccLeaves
  refine ⟨s.imageFits_iff, fun hn i hi => ?geometry,
    fun h0 hmax k hk => ⟨fun hleaves first => ?wb, fun hleaves first => ?cc⟩⟩
  case geometry =>
    have hfit : ¬ s.imageFits = true := fun h => by
      have := s.imageFits_iff.mp h
      change n ≠ 0 ∧ n ≤ s.params.maxPixels at this
      omega
    rcases hi with rfl | rfl | rfl
    · exact cpWb_runsStage.faultsWith_geometry hf hfit
    · exact cpCc_runsStage.faultsWith_geometry hf hfit
    · exact cpGamma_runsStage.faultsWith_geometry hf hfit
  case wb =>
    have hgain (c : Colour) : s.regs.gain c = gain c := by cases c <;> exact wbGain_eq _
    obtain ⟨c, hc⟩ := hleaves
    refine cpWb_runsStage.faultsWith_overflow hf (s.imageFits_iff.mpr ⟨h0, hmax⟩) hk
      (fun j hj => whiteBalanceFix_of_lt fun c => ?_) (whiteBalanceFix_of_ge (c := c) (hgain c ▸ hc))
    exact Nat.not_le.mp fun h => first j hj ⟨c, hgain c ▸ h⟩
  case cc =>
    have hterms (j : Nat) : ccLeaves j ↔
        ∃ i : Fin 3, ∃ a ∈ s.regs.rowTerms (loadPixel s.mem.rgb j) i, a < -(2 ^ 31) ∨ 2 ^ 31 ≤ a := by
      simp only [rowTerms_loadPixel, List.exists_mem_cons_iff, List.not_mem_nil, false_and, exists_false, or_false]
      rfl
    obtain ⟨i, a, ha, hout⟩ := (hterms k).mp hleaves
    refine cpCc_runsStage.faultsWith_overflow hf (s.imageFits_iff.mpr ⟨h0, hmax⟩) hk
      (fun j hj => colorConvert_of_fits fun i a ha => ?_) (colorConvert_of_leaves ha hout)
    have hin : ¬ (a < -(2 ^ 31) ∨ 2 ^ 31 ≤ a) := fun h => first j hj ((hterms j).mpr ⟨i, a, ha, h⟩)
    omega

/-! ### Unit gains and the identity matrix -/

/-- A stage that makes every pixel what it was keeps the image. -/
theorem RunsStage.keeps {stage : State → Pixel → Option Pixel} (hi : RunsStage i stage) (hf : s.fault = false)
    (hfit : s.imageFits = true) (hstage : ∀ k, stage s (loadPixel s.mem.rgb k) = some (loadPixel s.mem.rgb k)) :
    ∃ t, exec i s = .next t ∧ t = s.setRgb t.mem.rgb ∧ ∀ j, t.mem.rgb.read j = s.mem.rgb.read j := by
  obtain ⟨t, hexec, ht, stored, rest⟩ := hi.ok hf hfit (v := fun k c => s.mem.rgb.readNat (3 * k + c.number))
    (fun k _ => hstage k) fun _ _ => Memory.readNat_lt _ _
  have inside : ∀ j, j < 3 * s.regs.imagePixels → t.mem.rgb.read j = s.mem.rgb.read j :=
    forall_element fun k c hk => BitVec.eq_of_toNat_eq (stored k c hk)
  exact ⟨t, hexec, ht, fun j => (Nat.lt_or_ge j _).elim (inside j) (rest j)⟩

/-- Gain `2^shift` shifted back by `shift` (R295). -/
theorem balanced_unit (shift : Nat) {v : Nat} (hv : v < 2 ^ 16) : balanced (2 ^ shift) shift v = v := by
  rw [balanced, Nat.mul_div_cancel v (Nat.two_pow_pos shift)]
  exact Nat.min_eq_left (Nat.le_of_lt_succ hv)

/-- White balance with unit gains keeps every pixel (R295). -/
theorem whiteBalanceFix_unit {g : Regs} (hshift : g.wbShiftAmount ≤ 15) (hgain : ∀ c, g.gain c = 2 ^ g.wbShiftAmount)
    (rgb : Memory 16) (k : Nat) : whiteBalanceFix g (loadPixel rgb k) = some (loadPixel rgb k) := by
  have hlt (v : Nat) (hv : v < 2 ^ 16) : v * 2 ^ g.wbShiftAmount < 2 ^ 31 := by
    calc v * 2 ^ g.wbShiftAmount
      _ ≤ v * 2 ^ 15 := Nat.mul_le_mul_left v (Nat.pow_le_pow_right (by decide) hshift)
      _ < 2 ^ 31 := by omega
  rw [whiteBalanceFix_of_lt fun c => hgain c ▸ hlt _ (rgb.readNat_lt _)]
  simp only [hgain, balanced_unit _ (rgb.readNat_lt _)]
  rfl

section identity

variable {g : Regs} (hcm : g.cm = #v[8192, 0, 0, 0, 8192, 0, 0, 0, 8192])
include hcm

/-- The entries of a row (R295). -/
theorem matrixRow_identity (c : Colour) :
    g.matrixEntry c.number 0 = (if c = .red then 8192 else 0) ∧
    g.matrixEntry c.number 1 = (if c = .green then 8192 else 0) ∧
    g.matrixEntry c.number 2 = if c = .blue then 8192 else 0 := by
  simp only [Regs.matrixEntry, hcm]
  cases c <;> exact ⟨rfl, rfl, rfl⟩

/-- Each row selects its own channel, times 2^13. -/
theorem rowSum_identity (p : Pixel) (c : Colour) : g.rowSum p c.number = p.channel c.number * 2 ^ 13 := by
  obtain ⟨red, green, blue⟩ := matrixRow_identity hcm c
  rw [Regs.rowSum, red, green, blue]
  cases c <;> simp [Pixel.channel, Colour.number, Int.mul_comm]

/-- No value of a row leaves `i32`. -/
theorem rowTerms_identity (rgb : Memory 16) (k : Nat) (i : Fin 3) :
    ∀ a ∈ g.rowTerms (loadPixel rgb k) i, -(2 ^ 31) ≤ a ∧ a < 2 ^ 31 := by
  obtain ⟨c, hc⟩ := Colour.exists_number_eq i
  obtain ⟨red, green, blue⟩ := matrixRow_identity hcm c
  have hr : (loadPixel rgb k).r < 2 ^ 16 := rgb.readNat_lt _
  have hg : (loadPixel rgb k).g < 2 ^ 16 := rgb.readNat_lt _
  have hb : (loadPixel rgb k).b < 2 ^ 16 := rgb.readNat_lt _
  rw [← hc]
  simp only [Regs.rowTerms, Regs.rowSum, red, green, blue, List.forall_mem_cons, List.not_mem_nil, false_imp_iff,
    implies_true, and_true]
  cases c <;> simp only [reduceCtorEq, if_true, if_false] <;> omega

/-- The matrix 8192 times the identity keeps every pixel (R295). -/
theorem colorConvert_identity (rgb : Memory 16) (k : Nat) : colorConvert g (loadPixel rgb k) = some (loadPixel rgb k) := by
  have clamp (v : Nat) (hv : v < 2 ^ 16) : clampSample ((v * 2 ^ 13 : Int) >>> Config.bitShift) = v := by
    have := clampSample_shift (v * 2 ^ 13)
    omega
  rw [colorConvert_of_fits (rowTerms_identity hcm rgb k)]
  simp only [rowSum_identity hcm, loadPixel_channel, clamp _ (rgb.readNat_lt _)]
  rfl

end identity

/-- Settles O53: unit gains keep every pixel, and so does the identity matrix after them. -/
theorem unitGainsAndIdentityMatrixChangeNothing : Obligations.UnitGainsAndIdentityMatrixChangeNothing := by
  intro s hf hfit hshift hr hg hb hcm
  have hamount : s.regs.wbShiftAmount = s.regs.wbShift.toNat := by
    rw [wbShiftAmount_eq]
    omega
  have unit {w : Word} (hw : w.toNat = 2 ^ s.regs.wbShift.toNat) : wbGain w = 2 ^ s.regs.wbShiftAmount := by
    rw [wbGain_eq, hw, hamount, Nat.mod_eq_of_lt (Nat.pow_lt_pow_right (by decide) (by omega))]
  have hgain (c : Colour) : s.regs.gain c = 2 ^ s.regs.wbShiftAmount := by
    cases c with
    | red => exact unit hr
    | green => exact unit hg
    | blue => exact unit hb
  obtain ⟨t, hwb, ht, keptWb⟩ := cpWb_runsStage.keeps hf hfit (whiteBalanceFix_unit (hamount ▸ hshift) hgain _)
  obtain ⟨hregs, hparams, hfault⟩ : t.regs = s.regs ∧ t.params = s.params ∧ t.fault = s.fault := by
    rw [ht]
    exact ⟨rfl, rfl, rfl⟩
  obtain ⟨u, hcc, hu, keptCc⟩ := cpCc_runsStage.keeps (hfault.trans hf) (by rwa [State.imageFits, hregs, hparams])
    (colorConvert_identity (hregs ▸ hcm) _)
  refine ⟨t, u, hwb, hcc, ?_, fun k => (keptCc k).trans (keptWb k)⟩
  rw [hu, State.setRgb_fault, hfault, hf]

end Sys2Proof.Machine
end

section
/-! The system command (R320): what `SYS.RESET` clears, and what it keeps. -/

namespace Sys2Proof.Machine

/-- `SYS.RESET` asks nothing of the state: it is the one command the fault state accepts (R336). -/
theorem exec_sysReset (s : State) : exec .sysReset s = .next (systemReset s) := rfl

theorem systemReset_built (s : State) (slot : Slot) : (systemReset s).hu[slot].built = false := by
  rw [systemReset_hu, HuffSlot.allUnspecified_built]

theorem systemReset_hostReadReg (s : State) (r : Reg) : (systemReset s).hostReadReg r = 0 :=
  State.hostReadReg_of_reset (systemReset_regs s) (systemReset_fault s) (systemReset_br s) (systemReset_built s) r

/-- Settles O13: `SYS.RESET` ends in the system reset of its start state, whose registers, fault latch, cursor and slots are
those of a reset, and whose memories are the start state's. -/
theorem sysResetClearsAllButTheMemories : Obligations.SysResetClearsAllButTheMemories := fun s =>
  ⟨systemReset s, exec_sysReset s, systemReset_hostReadReg s, systemReset_fault s, systemReset_br s, systemReset_built s,
    systemReset_mem s, systemReset_params s, systemReset_port s, systemReset_readback s⟩

end Sys2Proof.Machine
end

section
/-! The fault state (R330 to R336): what taking a fault does, which steps take one, and what the block does until it is reset. -/

namespace Sys2Proof.Machine

variable {s t : State} {i : Instr}

/-! ### Taking a fault -/

/-- A command that writes a memory writes that one alone (R77). -/
theorem writes_eq_singleton {sp : Space} (h : sp ∈ i.writes) : i.writes = [sp] := by
  cases i <;> simp only [Instr.writes, List.not_mem_nil, List.mem_singleton] at h <;> exact h ▸ rfl

/-- The memory a faulting command writes is made unspecified from the second draw of the fault; the first is that of `RES`. -/
theorem takeFault_mem_of_writes {sp : Space} (h : sp ∈ i.writes) (c : Cause) (s : State) :
    (takeFault i.writes c s).mem = s.mem.spoil (s.draws + 1) sp ∧ s.draws + 1 < (takeFault i.writes c s).draws := by
  rw [takeFault_mem, takeFault_draws, writes_eq_singleton h]
  exact ⟨rfl, Nat.lt_succ_self _⟩

/-- Settles O8: every field but the memories by computation; of the memories the one written is spoiled. -/
theorem takingAFaultRecordsItAndSpoilsWhatIsWritten : Obligations.TakingAFaultRecordsItAndSpoilsWhatIsWritten := by
  intro i c s
  refine ⟨rfl, rfl, rfl, rfl, rfl, rfl, rfl, fun sp hsp k => Memories.hostRead_spoilAll hsp k _ _, fun h => ?_, fun h => ?_⟩
  all_goals
    obtain ⟨hmem, hdraw⟩ := takeFault_mem_of_writes h c s
    exact ⟨s.draws + 1, Nat.le_succ _, hdraw, by rw [hmem]; rfl⟩

/-- Settles O10: the fifteen numbers by computation (R331). -/
theorem faultCodesAreNumberedAsListed : Obligations.FaultCodesAreNumberedAsListed := rfl

/-! ### The latch along a command -/

/-- The latch and its two registers are in `t` as they are in `s` (R335). -/
def LatchKept (s t : State) : Prop :=
  t.fault = s.fault ∧ t.regs.faultCode = s.regs.faultCode ∧ t.regs.faultInfo = s.regs.faultInfo

/-- From `s` to `t` the latch is kept, or a fault is taken outside the fault state. -/
def LatchSteps (s t : State) : Prop := LatchKept s t ∨ s.fault = false ∧ t.fault = true

theorem LatchKept.refl (s : State) : LatchKept s s := ⟨rfl, rfl, rfl⟩

/-- A command that takes no fault does not touch the latch, but for `SYS.RESET`. -/
theorem EndsIn.latchKept (hi : i ≠ .sysReset) (h : EndsIn i s t) : LatchKept s t := by
  cases i with
  | sysReset => exact absurd rfl hi
  | brInit _ => obtain ⟨br, -, rfl⟩ := h; exact .refl s
  | brRead _ => obtain ⟨br, v, -, rfl⟩ := h; exact .refl s
  | brPeek _ => obtain ⟨v, rfl⟩ := h; exact .refl s
  | brSkip _ => obtain ⟨br, -, rfl⟩ := h; exact .refl s
  | huBuild _ => obtain ⟨x, -, rfl⟩ := h; exact .refl s
  | huSym _ => obtain ⟨br, v, -, rfl⟩ := h; exact .refl s
  | huDec _ => obtain ⟨br, v, -, rfl⟩ := h; exact .refl s
  | dcRun => obtain ⟨m, br, -, rfl⟩ := h; exact .refl s
  | ppNorm _ => obtain ⟨m, -, rfl⟩ := h; exact .refl s
  | dmRun _ => obtain ⟨m, w, h', -, rfl⟩ := h; exact .refl s
  | cpWb => obtain ⟨m, -, rfl⟩ := h; exact .refl s
  | cpCc => obtain ⟨m, -, rfl⟩ := h; exact .refl s
  | cpGamma => obtain ⟨m, -, rfl⟩ := h; exact .refl s

/-- No ending sets the latch: a command that enters the fault state does so by taking a fault. -/
theorem EndsIn.fault_false (hf : s.fault = false) (h : EndsIn i s t) : t.fault = false := by
  by_cases hi : i = .sysReset
  · subst hi; subst h; rfl
  · exact (h.latchKept hi).1.trans hf

/-- Settles O9: of the three things a command can do, only taking a fault enters the fault state. -/
theorem faultingCommandsTakeTheFault : Obligations.FaultingCommandsTakeTheFault := by
  intro i s t hs hexec ht
  rcases exec_cases hexec with ⟨hs', -⟩ | hend | ⟨c, br, -, he⟩
  · exact absurd hs' (by simp [hs])
  · exact absurd ht (by simp [hend.fault_false hs])
  · exact ⟨c, br, he⟩

/-! ### Commands in the fault state -/

theorem exec_of_fault (hf : s.fault = true) (hi : i ≠ .sysReset) : exec i s = .next s := by
  obtain ⟨r, -, he⟩ := exec_eq_settle i s hi
  rw [he, if_pos hf]

/-- `0x00000001` is the only word of `SYS.RESET` (R92). -/
theorem decode_sysReset_iff {c : Word} : decode c = .ok .sysReset ↔ c = 0x00000001#32 :=
  decode_eq_ok_iff.trans ⟨fun h => h.2.symm, fun h => ⟨rfl, h.symm⟩⟩

/-- A word the fault state ignores is illegal, or the encoding of a command it ignores (R336). -/
theorem runCommand_of_fault {c : Word} (hf : s.fault = true) (hc : c ≠ 0x00000001#32) : runCommand c s = .next s := by
  cases hdec : decode c with
  | ok i =>
    rw [runCommand_of_decode hdec]
    exact exec_of_fault hf fun hi => hc (decode_sysReset_iff.mp (hi ▸ hdec))
  | error e => simp only [runCommand, hdec, whenAccepting_of_fault hf]

theorem State.hostWriteReg_withFault (s : State) (f : Bool) (r : Reg) (v : Word) :
    State.hostWriteReg r v { s with fault := f } = { s.hostWriteReg r v with fault := f } := by
  simp only [State.hostWriteReg_eq]

/-- A host write but to `CMD` does not look at the latch, and does not touch it (R336). -/
theorem hostWriteElement_withFault (s : State) (f : Bool) (id n : Nat) (v : Word) :
    hostWriteElement { s with fault := f } id n v = { hostWriteElement s id n v with fault := f } := by
  unfold hostWriteElement
  cases Space.ofId id with
  | none => rfl
  | some sp =>
    dsimp only
    split
    · rfl
    cases sp with
    | reg =>
      cases Reg.ofNumber n with
      | none => rfl
      | some r => exact State.hostWriteReg_withFault s f r v
    | _ => rfl

/-- Settles O11: a word for `CMD`, a command, any other write, a read. -/
theorem faultStateIgnoresCommands : Obligations.FaultStateIgnoresCommands := by
  refine ⟨fun s c rest hf hport => ?word, fun i s hf hi => exec_of_fault hf hi, ?write,
    fun s id n rest hport => step_of_port hport⟩
  case word =>
    rw [step_of_port hport]
    exact ⟨fun hc => runCommand_of_fault hf hc, fun hc => runCommand_of_decode (decode_sysReset_iff.mpr hc) _⟩
  case write =>
    intro s t id n v rest hcmd hport hstep f
    have hn : ¬(id = 0 ∧ n = 0) := not_and_or.mpr hcmd
    rw [step_of_port_write hport hn] at hstep
    cases hstep
    rw [step_of_port_write (s := { s with fault := f }) hport hn]
    exact congrArg _ (hostWriteElement_withFault { s with port := rest } f id n v)

/-! ### The latch along a step -/

/-- A command but `SYS.RESET` keeps the latch or takes a fault. -/
theorem exec_latchSteps (hi : i ≠ .sysReset) (h : exec i s = .next t) : LatchSteps s t := by
  cases hf : s.fault with
  | true =>
    rw [exec_of_fault hf hi] at h
    cases h
    exact .inl (.refl s)
  | false =>
    rcases exec_cases h with ⟨-, rfl⟩ | hend | ⟨c, br, -, rfl⟩
    · exact .inl (.refl _)
    · exact .inl (hend.latchKept hi)
    · exact .inr ⟨hf, rfl⟩

/-- So does any word written to `CMD` but that of `SYS.RESET`. -/
theorem runCommand_latchSteps {c : Word} (hc : c ≠ 0x00000001#32) (h : runCommand c s = .next t) : LatchSteps s t := by
  unfold runCommand at h
  split at h
  · rename_i i hdec
    exact exec_latchSteps (fun hi => hc (decode_sysReset_iff.mp (hi ▸ hdec))) h
  · rcases whenAccepting_cases h with ⟨-, rfl⟩ | ⟨hf, rfl⟩
    · exact .inl (.refl _)
    · exact .inr ⟨hf, rfl⟩

/-- No other host write reaches the latch or its read-only registers (R27, R66). -/
theorem hostWriteElement_latchKept (s : State) (id n : Nat) (v : Word) : LatchKept s (hostWriteElement s id n v) := by
  unfold hostWriteElement
  split
  · exact .refl s
  split
  · exact .refl s
  split
  · split
    · rw [State.hostWriteReg_eq]
      exact ⟨rfl, Regs.hostSet_faultCode _ _ _, Regs.hostSet_faultInfo _ _ _⟩
    · exact .refl s
  · simp only [LatchKept, hostWriteEffect_fault, hostWriteEffect_regs, and_self]

/-- Every action of the host but a reset keeps the latch or takes a fault. -/
theorem runHostAction_latchSteps {a : HostAction} (hreset : a ≠ .hardwareReset) (hsys : a ≠ .write 0 0 0x00000001#32)
    (h : runHostAction a s = .next t) : LatchSteps s t := by
  cases a with
  | write id n v =>
    rw [runHostAction] at h
    split at h
    · rename_i hcmd
      obtain ⟨rfl, rfl⟩ := hcmd
      exact runCommand_latchSteps (fun hv => hsys (hv ▸ rfl)) h
    · cases h
      exact .inl (hostWriteElement_latchKept s id n v)
  | read id n => cases h; exact .inl (.refl s)
  | hardwareReset => exact absurd rfl hreset

theorem step_latchSteps (h : step s = .next t)
    (hport : ∀ rest, s.port ≠ .hardwareReset :: rest ∧ s.port ≠ .write 0 0 0x00000001#32 :: rest) : LatchSteps s t := by
  unfold step nextAction at h
  split at h
  · cases h
    exact .inl (.refl s)
  · rename_i a rest ha
    obtain ⟨hreset, hsys⟩ := hport rest
    exact runHostAction_latchSteps (s := { s with port := rest }) (fun he => hreset (he ▸ ha)) (fun he => hsys (he ▸ ha)) h

/-- Settles O12: a step that does not keep the latch enters the fault state from outside it. -/
theorem faultsAreTerminalAndSticky : Obligations.FaultsAreTerminalAndSticky := by
  intro s t hstep hport
  rcases step_latchSteps hstep hport with ⟨hfault, hcode, hinfo⟩ | ⟨hs, ht⟩
  · exact ⟨fun hs => ⟨hfault.trans hs, hcode, hinfo⟩, fun _ _ => ⟨hcode, hinfo⟩⟩
  · exact ⟨fun hs' => absurd hs' (by simp [hs]), fun _ ht' => absurd ht (by simp [ht'])⟩

/-! ### Nothing stops the machine -/

theorem exec_answers (i : Instr) (s : State) : ∃ t, exec i s = .next t := by
  by_cases hi : i = .sysReset
  · exact ⟨systemReset s, hi ▸ exec_sysReset s⟩
  · obtain ⟨r, -, he⟩ := exec_eq_settle i s hi
    exact ⟨_, he⟩

theorem runCommand_answers (c : Word) (s : State) : ∃ t, runCommand c s = .next t := by
  unfold runCommand
  split
  · exact exec_answers _ s
  · exact ⟨_, rfl⟩

theorem runHostAction_answers (a : HostAction) (s : State) : ∃ t, runHostAction a s = .next t := by
  cases a with
  | write id n v =>
    rw [runHostAction]
    split
    · exact runCommand_answers v s
    · exact ⟨_, rfl⟩
  | read id n => exact ⟨_, rfl⟩
  | hardwareReset => exact ⟨_, rfl⟩

theorem step_of_idle (h : s.port = []) : step s = .next s := by
  simp only [step, nextAction, h]

/-- Settles O7: the block is idle, or it runs an action, and each kind of action answers a state. -/
theorem everyStepAnswersANextState : Obligations.EveryStepAnswersANextState := by
  refine fun s => ⟨?_, fun i => exec_answers i s, step_of_idle⟩
  cases hport : s.port with
  | nil => exact ⟨s, step_of_idle hport⟩
  | cons a rest => rw [step_of_port hport]; exact runHostAction_answers a _

end Sys2Proof.Machine
end
